-- ==== Sys2Proof/Word.lean ====
section
/-! DEFINITION. The word and byte types of the CORE and the two readings of a word as a number
(spec/00_scope.md R6, R7). -/

namespace Sys2Proof

/-- A 32-bit bit pattern: a register, an instruction word, a data word or an address (R6, R7). -/
abbrev Word := BitVec 32

/-- An 8-bit memory element (20_memory.md R50). -/
abbrev Byte := BitVec 8

/-- `uint(v)`: the unsigned reading, in `[0, 2^32)` (R7). -/
abbrev uint (v : Word) : Nat := v.toNat

/-- `sint(v)`: the two's-complement reading, in `[-2^31, 2^31)` (R7). -/
abbrev sint (v : Word) : Int := v.toInt

end Sys2Proof
end

