-- ==== Sys2Proof/Syntax.lean ====
section
/-! DEFINITION. The instructions: one constructor per row of spec/opcode_table.json, with the fields of
the decoded variants of 30_encoding.md R96. -/

namespace Sys2Proof

/-- A general register number, 0 to 31 (10_state.md R21). -/
abbrev Reg := Fin 32

/-- The raw 16-bit immediate or offset field (30_encoding.md R81). -/
abbrev Imm16 := BitVec 16

/-- The raw 26-bit jump field (30_encoding.md R81). -/
abbrev Imm26 := BitVec 26

/-- The decoded variants of R96 but for UNKNOWN, in the order of the opcode table. The fields an
instruction ignores (R92) are no part of it. -/
inductive Instr where
  /-- `add rd, rs, rt` (R141) -/
  | add (rs rt rd : Reg)
  /-- `sub rd, rs, rt` (R142) -/
  | sub (rs rt rd : Reg)
  /-- `mul rs, rt` (R143): `rd` is ignored. -/
  | mul (rs rt : Reg)
  /-- `and rd, rs, rt` (R144) -/
  | and (rs rt rd : Reg)
  /-- `or rd, rs, rt` (R145) -/
  | or (rs rt rd : Reg)
  /-- `xor rd, rs, rt` (R146) -/
  | xor (rs rt rd : Reg)
  /-- `not rd, rs` (R147): `rt` is ignored. -/
  | not (rs rd : Reg)
  /-- `slt rd, rs, rt` (R148) -/
  | slt (rs rt rd : Reg)
  /-- `bgtz rs, off` (R184): `rt` is ignored. -/
  | bgtz (rs : Reg) (imm16 : Imm16)
  /-- `j target` (R185) -/
  | j (imm26 : Imm26)
  /-- `jal target` (R186) -/
  | jal (imm26 : Imm26)
  /-- `beq rs, rt, off` (R181) -/
  | beq (rs rt : Reg) (imm16 : Imm16)
  /-- `bne rs, rt, off` (R182) -/
  | bne (rs rt : Reg) (imm16 : Imm16)
  /-- `blez rs, off` (R183): `rt` is ignored. -/
  | blez (rs : Reg) (imm16 : Imm16)
  /-- `addi rt, rs, imm` (R160) -/
  | addi (rs rt : Reg) (imm16 : Imm16)
  /-- `slti rt, rs, imm` (R161) -/
  | slti (rs rt : Reg) (imm16 : Imm16)
  /-- `andi rt, rs, imm` (R162) -/
  | andi (rs rt : Reg) (imm16 : Imm16)
  /-- `ori rt, rs, imm` (R163) -/
  | ori (rs rt : Reg) (imm16 : Imm16)
  /-- `lw rt, imm(rs)` (R171) -/
  | lw (rs rt : Reg) (imm16 : Imm16)
  /-- `sw rt, imm(rs)` (R172) -/
  | sw (rs rt : Reg) (imm16 : Imm16)
  /-- The zero word, EXHAUSTED (R94): not an instruction of the set, a row of the table. -/
  | terminator
deriving DecidableEq, Repr, Inhabited

end Sys2Proof
end

