-- ==== Sys2Proof/WellFormed.lean ====
section
/-! DEFINITION. Well-formedness of an instruction: every field fits the bits its format gives it
(30_encoding.md R81 to R84, R96). The field types carry the bounds, so the checks are also given on
plain numbers, where they can fail. -/

namespace Sys2Proof

/-- A field value of a `bits`-bit field. -/
def fieldFits (bits n : Nat) : Bool := decide (n < 2 ^ bits)

/-- A register number from a plain number: 5 bits (R81, R96). -/
def regOfNat? (n : Nat) : Option Reg := if h : n < 32 then some ⟨n, h⟩ else none

/-- An immediate field from a plain number: 16 bits (R81, R96). -/
def imm16OfNat? (n : Nat) : Option Imm16 := if n < 2 ^ 16 then some (BitVec.ofNat 16 n) else none

/-- A jump field from a plain number: 26 bits (R81, R96). -/
def imm26OfNat? (n : Nat) : Option Imm26 := if n < 2 ^ 26 then some (BitVec.ofNat 26 n) else none

/-- Every register field fits 5 bits, every immediate 16 and every jump field 26 (R96). -/
def Instr.wellFormed : Instr → Bool
  | .add rs rt rd => fieldFits 5 rs && fieldFits 5 rt && fieldFits 5 rd
  | .sub rs rt rd => fieldFits 5 rs && fieldFits 5 rt && fieldFits 5 rd
  | .mul rs rt => fieldFits 5 rs && fieldFits 5 rt
  | .and rs rt rd => fieldFits 5 rs && fieldFits 5 rt && fieldFits 5 rd
  | .or rs rt rd => fieldFits 5 rs && fieldFits 5 rt && fieldFits 5 rd
  | .xor rs rt rd => fieldFits 5 rs && fieldFits 5 rt && fieldFits 5 rd
  | .not rs rd => fieldFits 5 rs && fieldFits 5 rd
  | .slt rs rt rd => fieldFits 5 rs && fieldFits 5 rt && fieldFits 5 rd
  | .bgtz rs imm => fieldFits 5 rs && fieldFits 16 imm.toNat
  | .j imm => fieldFits 26 imm.toNat
  | .jal imm => fieldFits 26 imm.toNat
  | .beq rs rt imm => fieldFits 5 rs && fieldFits 5 rt && fieldFits 16 imm.toNat
  | .bne rs rt imm => fieldFits 5 rs && fieldFits 5 rt && fieldFits 16 imm.toNat
  | .blez rs imm => fieldFits 5 rs && fieldFits 16 imm.toNat
  | .addi rs rt imm => fieldFits 5 rs && fieldFits 5 rt && fieldFits 16 imm.toNat
  | .slti rs rt imm => fieldFits 5 rs && fieldFits 5 rt && fieldFits 16 imm.toNat
  | .andi rs rt imm => fieldFits 5 rs && fieldFits 5 rt && fieldFits 16 imm.toNat
  | .ori rs rt imm => fieldFits 5 rs && fieldFits 5 rt && fieldFits 16 imm.toNat
  | .lw rs rt imm => fieldFits 5 rs && fieldFits 5 rt && fieldFits 16 imm.toNat
  | .sw rs rt imm => fieldFits 5 rs && fieldFits 5 rt && fieldFits 16 imm.toNat
  | .terminator => true

end Sys2Proof
end

