-- ==== Sys2Proof/Decode.lean ====
section
/-! DEFINITION. Byte order, bit fields, the decoder and the encoder (spec/30_encoding.md; the field
primitives of 00_scope.md R9 and R10). -/

namespace Sys2Proof

/-! ### Byte order (20_memory.md R52, R53, R54, R56) -/

/-- Big-endian assembly: the byte at the lowest address is bits[31:24]. -/
def wordOfBytes (b0 b1 b2 b3 : Byte) : Word := b0 ++ b1 ++ b2 ++ b3

/-- Byte `k` (0 to 3, in address order) of a word stored big-endian (R53). -/
def byteOfWord (v : Word) (k : Nat) : Byte := v.extractLsb' (8 * (3 - k)) 8

/-- The four bytes of a word in address order (R53). -/
def bytesOfWord (v : Word) : List Byte :=
  [byteOfWord v 0, byteOfWord v 1, byteOfWord v 2, byteOfWord v 3]

/-! ### Bit fields -/

/-- `grabRight(data, n)`: the low `n` bits, `data & (2^n - 1)` (R9). -/
def grabRight (data : Word) (n : Nat) : Word := data &&& BitVec.ofNat 32 (2 ^ n - 1)

/-- `grabLeft(data, n)`: the high `n` bits, by an unsigned right shift by `32 - n` (R10). -/
def grabLeft (data : Word) (n : Nat) : Word := data >>> (32 - n)

/-- bits[31:26], `grabLeft(word, 6)` (R81). -/
def opcodeField (w : Word) : BitVec 6 := (grabLeft w 6).setWidth 6

/-- bits[25:21], `grabRight(grabLeft(word, 11), 5)` (R81). -/
def rsField (w : Word) : Reg := ((grabRight (grabLeft w 11) 5).setWidth 5).toFin

/-- bits[20:16] (R81). -/
def rtField (w : Word) : Reg := (w.extractLsb' 16 5).toFin

/-- bits[15:11] (R81). -/
def rdField (w : Word) : Reg := (w.extractLsb' 11 5).toFin

/-- bits[10:6], used by no instruction (R81, R92). -/
def shamtField (w : Word) : BitVec 5 := w.extractLsb' 6 5

/-- bits[5:0], `grabRight(word, 6)` (R81). -/
def functField (w : Word) : BitVec 6 := (grabRight w 6).setWidth 6

/-- bits[15:0], `grabRight(word, 16)` (R81). -/
def imm16Field (w : Word) : Imm16 := (grabRight w 16).setWidth 16

/-- bits[25:0], `grabRight(word, 26)` (R81; the position is the spec's general knowledge G2). -/
def imm26Field (w : Word) : Imm26 := (grabRight w 26).setWidth 26

/-! ### The decoder -/

/-- Why the decoder gives no instruction: the UNKNOWN variant of R93, or fewer than the 4 bytes every
instruction has (R80). -/
inductive DecodeError where
  /-- A non-zero word that matches no instruction (R93). -/
  | unknownOpcode (word : Word)
  /-- Fewer than 4 bytes were given. -/
  | tooFewBytes (given : Nat)
deriving DecidableEq, Repr

/-- The R-type map by `funct` (R86). -/
def decodeRType (w : Word) : Except DecodeError Instr :=
  match functField w with
  | 0b100000#6 => .ok (.add (rsField w) (rtField w) (rdField w))
  | 0b100010#6 => .ok (.sub (rsField w) (rtField w) (rdField w))
  | 0b011000#6 => .ok (.mul (rsField w) (rtField w))
  | 0b100100#6 => .ok (.and (rsField w) (rtField w) (rdField w))
  | 0b100101#6 => .ok (.or (rsField w) (rtField w) (rdField w))
  | 0b100110#6 => .ok (.xor (rsField w) (rtField w) (rdField w))
  | 0b100111#6 => .ok (.not (rsField w) (rdField w))
  | 0b101010#6 => .ok (.slt (rsField w) (rtField w) (rdField w))
  | _ => .error (.unknownOpcode w)

/-- The I-type map by opcode (R87), which holds the J-format rows too (R84). -/
def decodeIType (w : Word) : Except DecodeError Instr :=
  match opcodeField w with
  | 0b000001#6 => .ok (.bgtz (rsField w) (imm16Field w))
  | 0b000010#6 => .ok (.j (imm26Field w))
  | 0b000011#6 => .ok (.jal (imm26Field w))
  | 0b000100#6 => .ok (.beq (rsField w) (rtField w) (imm16Field w))
  | 0b000101#6 => .ok (.bne (rsField w) (rtField w) (imm16Field w))
  | 0b000110#6 => .ok (.blez (rsField w) (imm16Field w))
  | 0b001000#6 => .ok (.addi (rsField w) (rtField w) (imm16Field w))
  | 0b001010#6 => .ok (.slti (rsField w) (rtField w) (imm16Field w))
  | 0b001100#6 => .ok (.andi (rsField w) (rtField w) (imm16Field w))
  | 0b001101#6 => .ok (.ori (rsField w) (rtField w) (imm16Field w))
  | 0b100011#6 => .ok (.lw (rsField w) (rtField w) (imm16Field w))
  | 0b101011#6 => .ok (.sw (rsField w) (rtField w) (imm16Field w))
  | _ => .error (.unknownOpcode w)

/-- The decoder, total on all `2^32` words (R85): the zero word first, then by `funct` when the opcode
field is 0, else by the opcode field. -/
def decode (w : Word) : Except DecodeError Instr :=
  if w = 0#32 then .ok .terminator
  else if opcodeField w = 0#6 then decodeRType w
  else decodeIType w

/-- Decoding from bytes in address order: always 4 bytes (R80, R95), big-endian (20_memory.md R54). -/
def decodeBytes : List Byte → Except DecodeError (Instr × List Byte)
  | b0 :: b1 :: b2 :: b3 :: rest => (decode (wordOfBytes b0 b1 b2 b3)).map (fun i => (i, rest))
  | few => .error (.tooFewBytes few.length)

/-! ### The encoder -/

/-- A register number as its 5-bit field. -/
def regBits (r : Reg) : BitVec 5 := BitVec.ofFin r

/-- Format R (R82): opcode 0. -/
def encodeR (rs rt rd : Reg) (shamt : BitVec 5) (funct : BitVec 6) : Word :=
  0b000000#6 ++ regBits rs ++ regBits rt ++ regBits rd ++ shamt ++ funct

/-- Format I (R83). -/
def encodeI (opcode : BitVec 6) (rs rt : Reg) (imm16 : Imm16) : Word :=
  opcode ++ regBits rs ++ regBits rt ++ imm16

/-- Format J (R84). -/
def encodeJ (opcode : BitVec 6) (imm26 : Imm26) : Word := opcode ++ imm26

/-- The instruction's word, 0 in every ignored field (R97; opcodes and functs from R86 and R87). -/
def encode : Instr → Word
  | .add rs rt rd => encodeR rs rt rd 0#5 0x20#6
  | .sub rs rt rd => encodeR rs rt rd 0#5 0x22#6
  | .mul rs rt => encodeR rs rt 0 0#5 0x18#6
  | .and rs rt rd => encodeR rs rt rd 0#5 0x24#6
  | .or rs rt rd => encodeR rs rt rd 0#5 0x25#6
  | .xor rs rt rd => encodeR rs rt rd 0#5 0x26#6
  | .not rs rd => encodeR rs 0 rd 0#5 0x27#6
  | .slt rs rt rd => encodeR rs rt rd 0#5 0x2A#6
  | .bgtz rs imm => encodeI 0x01#6 rs 0 imm
  | .j imm => encodeJ 0x02#6 imm
  | .jal imm => encodeJ 0x03#6 imm
  | .beq rs rt imm => encodeI 0x04#6 rs rt imm
  | .bne rs rt imm => encodeI 0x05#6 rs rt imm
  | .blez rs imm => encodeI 0x06#6 rs 0 imm
  | .addi rs rt imm => encodeI 0x08#6 rs rt imm
  | .slti rs rt imm => encodeI 0x0A#6 rs rt imm
  | .andi rs rt imm => encodeI 0x0C#6 rs rt imm
  | .ori rs rt imm => encodeI 0x0D#6 rs rt imm
  | .lw rs rt imm => encodeI 0x23#6 rs rt imm
  | .sw rs rt imm => encodeI 0x2B#6 rs rt imm
  | .terminator => 0#32

/-- The instruction's bytes as memory holds them (20_memory.md R56). -/
def encodeBytes (i : Instr) : List Byte := bytesOfWord (encode i)

/-- The bits of an instruction's word that it ignores (R92): `shamt` of every R-type instruction, `rd`
of `mul`, `rt` of `not`, `blez` and `bgtz`. -/
def ignoredBits : Instr → Word
  | .add _ _ _ | .sub _ _ _ | .and _ _ _ | .or _ _ _ | .xor _ _ _ | .slt _ _ _ => 0x000007C0#32
  | .mul _ _ => 0x0000FFC0#32
  | .not _ _ => 0x001F07C0#32
  | .blez _ _ | .bgtz _ _ => 0x001F0000#32
  | .j _ | .jal _ => 0#32
  | .beq _ _ _ | .bne _ _ _ => 0#32
  | .addi _ _ _ | .slti _ _ _ | .andi _ _ _ | .ori _ _ _ | .lw _ _ _ | .sw _ _ _ => 0#32
  | .terminator => 0#32

/-! ### The opcode table -/

/-- One row of spec/opcode_table.json. -/
structure TableRow where
  mnemonic : String
  pattern  : Word
  mask     : Word
deriving DecidableEq, Repr

/-- A word matches a row when it agrees with the pattern on the mask. -/
def TableRow.covers (r : TableRow) (w : Word) : Bool := w &&& r.mask == r.pattern

/-- spec/opcode_table.json, row by row. -/
def opcodeTable : List TableRow :=
  [⟨"add", 0x00000020#32, 0xFC00003F#32⟩, ⟨"sub", 0x00000022#32, 0xFC00003F#32⟩,
   ⟨"mul", 0x00000018#32, 0xFC00003F#32⟩, ⟨"and", 0x00000024#32, 0xFC00003F#32⟩,
   ⟨"or", 0x00000025#32, 0xFC00003F#32⟩, ⟨"xor", 0x00000026#32, 0xFC00003F#32⟩,
   ⟨"not", 0x00000027#32, 0xFC00003F#32⟩, ⟨"slt", 0x0000002A#32, 0xFC00003F#32⟩] ++
  [⟨"bgtz", 0x04000000#32, 0xFC000000#32⟩, ⟨"j", 0x08000000#32, 0xFC000000#32⟩,
   ⟨"jal", 0x0C000000#32, 0xFC000000#32⟩, ⟨"beq", 0x10000000#32, 0xFC000000#32⟩,
   ⟨"bne", 0x14000000#32, 0xFC000000#32⟩, ⟨"blez", 0x18000000#32, 0xFC000000#32⟩,
   ⟨"addi", 0x20000000#32, 0xFC000000#32⟩, ⟨"slti", 0x28000000#32, 0xFC000000#32⟩] ++
  [⟨"andi", 0x30000000#32, 0xFC000000#32⟩, ⟨"ori", 0x34000000#32, 0xFC000000#32⟩,
   ⟨"lw", 0x8C000000#32, 0xFC000000#32⟩, ⟨"sw", 0xAC000000#32, 0xFC000000#32⟩,
   ⟨"(terminator)", 0x00000000#32, 0xFFFFFFFF#32⟩]

/-- An instruction's mnemonic as the table spells it. -/
def Instr.mnemonic : Instr → String
  | .add _ _ _ => "add" | .sub _ _ _ => "sub" | .mul _ _ => "mul" | .and _ _ _ => "and"
  | .or _ _ _ => "or" | .xor _ _ _ => "xor" | .not _ _ => "not" | .slt _ _ _ => "slt"
  | .bgtz _ _ => "bgtz" | .j _ => "j" | .jal _ => "jal" | .beq _ _ _ => "beq"
  | .bne _ _ _ => "bne" | .blez _ _ => "blez" | .addi _ _ _ => "addi" | .slti _ _ _ => "slti"
  | .andi _ _ _ => "andi" | .ori _ _ _ => "ori" | .lw _ _ _ => "lw" | .sw _ _ _ => "sw"
  | .terminator => "(terminator)"

/-! ### The host's table word -/

/-- The word of which the table gives the low `nbits` bits, every bit above them 0. -/
def tableWord (nbits w : Nat) : Word := BitVec.ofNat 32 (w % 2 ^ nbits)

/-- What the decoder reads from a table word laid out big-endian (20_memory.md R54). -/
def decodeTableWord (nbits w : Nat) : Option Instr :=
  match decodeBytes (bytesOfWord (tableWord nbits w)) with
  | .ok (i, _) => some i
  | .error _ => none

end Sys2Proof
end

