-- ==== Sys2Proof/Config.lean ====
section
/-! DEFINITION. What the spec leaves open, as constants with no body: nothing can be proved about
their values. The parameters to which the spec gives a value stand in Machine/Params.lean. -/

namespace Sys2Proof

/-- `HEADER_TAG`, the state image's header: OPEN in the spec (70_reset_and_hazards.md R235, decision
D26). Log 14. -/
opaque Config.headerTag : List Byte

/-- What the instruction latch `IR` holds while no instruction is in flight, by draw: "any value"
(93_implementation_defined.md U8; 10_state.md R41). Log 11. -/
opaque Config.freeIr : Nat → Word

/-- What the variant latch `KIND` holds while no instruction is in flight (U8). Log 11. -/
opaque Config.freeKind : Nat → Instr

/-- What the ALU latch `A` holds while no instruction is in flight (U8). Log 11. -/
opaque Config.freeA : Nat → Word

/-- What the ALU latch `B` holds while no instruction is in flight (U8). Log 11. -/
opaque Config.freeB : Nat → Word

/-- What the ALU latch `RES` holds while no instruction is in flight (U8). Log 11. -/
opaque Config.freeRes : Nat → Word

/-- What the ALU latch `PHI` holds while no instruction is in flight (U8). Log 11. -/
opaque Config.freePhi : Nat → Word

/-- What the ALU latch `PLO` holds while no instruction is in flight (U8). Log 11. -/
opaque Config.freePlo : Nat → Word

/-- What the ALU latch `COND` holds while no instruction is in flight (U8). Log 11. -/
opaque Config.freeCond : Nat → Bool

end Sys2Proof
end

