-- ==== Sys2Proof/Machine/Params.lean ====
section
/-! DEFINITION. The implementation parameters to which the spec gives a value (00_scope.md R6). -/

namespace Sys2Proof.Machine

/-- `MEM_SIZE >= 4` (R6, decision D4). -/
def Params.memSizeMin : Nat := 4

/-- `MEM_SIZE <= 2^31 - 1` (R6, decision D4). -/
def Params.memSizeMax : Nat := 2147483647

/-- The `MEM_SIZE` that State.reset is constructed with. DESIGN CHOICE, unsafe (log 3): the spec makes
it a construction argument. -/
def Params.memSize : Nat := 1048576

/-- `R0_HARDWIRED`: register 0 is writable (R6, 10_state.md R22, decision D1). Log 5. -/
def Params.r0Hardwired : Bool := false

/-- `SP_INDEX` (R6, 10_state.md R24, decision D2). Log 6. -/
def Params.spIndex : Reg := 29

/-- `LINK_INDEX` (R6, 10_state.md R24, decision D2). Log 6. -/
def Params.linkIndex : Reg := 31

/-- `MICROSTEPS(kind)` (40_execution_cycle.md R119). The call that finds the terminator is its only
microstep. -/
def Params.microsteps : Instr → Nat
  | .add _ _ _ | .sub _ _ _ | .and _ _ _ | .or _ _ _ | .xor _ _ _ | .slt _ _ _ => 6
  | .addi _ _ _ => 6
  | .mul _ _ => 7
  | .not _ _ => 4
  | .lw _ _ _ | .sw _ _ _ => 3
  | .slti _ _ _ => 5
  | .andi _ _ _ | .ori _ _ _ => 6
  | .beq _ _ _ | .bne _ _ _ => 6
  | .blez _ _ | .bgtz _ _ => 5
  | .j _ => 1
  | .jal _ => 2
  | .terminator => 1

/-- The most microsteps an instruction takes (40_execution_cycle.md R119, R122). -/
def Params.maxMicrosteps : Nat := 7

end Sys2Proof.Machine
end

