-- ==== Sys2Proof/Machine/State.lean ====
section
/-! DEFINITION. The state of the CORE (10_state.md R20), its error conditions (60_exceptions.md R201)
and its state right after construction (R41). -/

namespace Sys2Proof.Machine

/-- The alu_unit's latches (10_state.md R33). -/
structure AluLatches where
  /-- `A`, first operand. -/
  a    : Word
  /-- `B`, second operand. -/
  b    : Word
  /-- `RES`, 32-bit result. -/
  res  : Word
  /-- `PHI`, high half of the product. -/
  phi  : Word
  /-- `PLO`, low half of the product. -/
  plo  : Word
  /-- `COND`, branch condition. -/
  cond : Bool
deriving DecidableEq, Repr

/-- The CORE's state "and nothing else" (10_state.md R20), and the model's own draw counter. -/
structure State where
  /-- `x[0..31]` (R21). -/
  x       : Vector Word 32
  /-- `pc` (R26). -/
  pc      : Word
  /-- `hi` (R28). -/
  hi      : Word
  /-- `lo` (R28). -/
  lo      : Word
  /-- `M[0..MEM_SIZE-1]` (20_memory.md R50), in the canonical form of Machine/Ops.lean (log 23). -/
  mem     : List Host.Cell
  /-- `MEM_SIZE` (20_memory.md R61). -/
  memSize : Nat
  /-- The microstep counter (R31). -/
  mstep   : Nat
  /-- The instruction latch `IR` (R32). -/
  ir      : Word
  /-- The decoded variant latch `KIND` (R32). -/
  kind    : Instr
  /-- The ALU latches (R33). -/
  alu     : AluLatches
  /-- The model's own: how many times the latches took free contents (U8, log 11). -/
  draws   : Nat
deriving DecidableEq, Repr

/-- The kind of a memory access, as MemoryOutOfBounds records it (60_exceptions.md R201). -/
inductive AccessKind where
  | fetch
  | load
  | store
deriving DecidableEq, Repr

/-- The errors of R201 that a microstep can return: the CORE stops, the host decides (R200). -/
inductive Fault where
  /-- MemoryOutOfBounds (R202), with the kind and the address of the access's first byte. Raised by the
  fetch of microstep 0 and by the terminal microstep of `lw` and `sw`. Safe: the spec's own stop. -/
  | memoryOutOfBounds (kind : AccessKind) (addr : Word)
  /-- UnknownOpcode (R203), with the word. Raised by microstep 0 on a word of R93. Safe: the spec's own
  stop. -/
  | unknownOpcode (word : Word)
deriving DecidableEq, Repr

/-- What the model has no meaning for. -/
inductive Refusal where
  /-- An arm of exec without a meaning, by mnemonic. Safe. No arm raises it in this model. -/
  | notModelled (mnemonic : String)
deriving DecidableEq, Repr

/-- The state after construction with `Params.memSize` (10_state.md R41, 70_reset_and_hazards.md R230).
The latches' values are DESIGN CHOICE (log 12); the rest is R41's table. -/
def State.reset : State where
  x       := (Vector.replicate 32 0#32).set Params.spIndex (BitVec.ofNat 32 (Params.memSize - 4))
  pc      := 0#32
  hi      := 0#32
  lo      := 0#32
  mem     := []
  memSize := Params.memSize
  mstep   := 0
  ir      := 0#32
  kind    := .terminator
  alu     := ⟨0#32, 0#32, 0#32, 0#32, 0#32, false⟩
  draws   := 0

end Sys2Proof.Machine
end

