-- ==== Sys2Proof/Machine/Ops.lean ====
section
/-! DEFINITION. The shared operations over registers and memory (10_state.md R22 to R28,
20_memory.md R51 to R57), raising an error (60_exceptions.md R207) and ending an instruction
(40_execution_cycle.md R117, R126). -/

namespace Sys2Proof.Machine

/-! ### The byte array: a list of (index, byte), indexes rising, no byte 0 listed -/

/-- An index that is not listed holds the construction value 0 (10_state.md R41, 20_memory.md R63). -/
def Memory.unlisted : Byte := 0#8

/-- `M[a]`. -/
def Memory.read : List Host.Cell → Nat → Byte
  | [], _ => Memory.unlisted
  | (k, v) :: rest, a => if k = a then v else Memory.read rest a

/-- `M[a] <- b`, keeping the canonical form. -/
def Memory.write : List Host.Cell → Nat → Byte → List Host.Cell
  | [], a, b => if b = Memory.unlisted then [] else [(a, b)]
  | (k, v) :: rest, a, b =>
    if a < k then
      if b = Memory.unlisted then (k, v) :: rest else (a, b) :: (k, v) :: rest
    else if a = k then
      if b = Memory.unlisted then rest else (a, b) :: rest
    else (k, v) :: Memory.write rest a b

/-- The canonical form: indexes strictly rising, and no entry equal to what an unlisted index reads as. -/
abbrev Memory.wf (m : List Host.Cell) : Prop :=
  m.Pairwise (fun p q => p.1 < q.1) ∧ ∀ p ∈ m, p.2 ≠ Memory.unlisted

/-- Bytes placed at consecutive indexes from `a`. -/
def Memory.writeBytes (m : List Host.Cell) (a : Nat) : List Byte → List Host.Cell
  | [] => m
  | b :: bs => Memory.writeBytes (Memory.write m a b) (a + 1) bs

/-- Big-endian assembly of the four bytes at `a` (20_memory.md R52). -/
def Memory.readWord (m : List Host.Cell) (a : Nat) : Word :=
  wordOfBytes (Memory.read m a) (Memory.read m (a + 1)) (Memory.read m (a + 2)) (Memory.read m (a + 3))

/-- The four bytes of `v` big-endian from `a` (20_memory.md R53). -/
def Memory.writeWord (m : List Host.Cell) (a : Nat) (v : Word) : List Host.Cell :=
  Memory.writeBytes m a (bytesOfWord v)

/-! ### Single-field updates -/

/-- `pc <- v`. -/
def State.setPc (v : Word) (s : State) : State := { s with pc := v }

/-- `hi <- h; lo <- l`. -/
def State.setHiLo (h l : Word) (s : State) : State := { s with hi := h, lo := l }

/-- The whole register file's general registers. -/
def State.setX (v : Vector Word 32) (s : State) : State := { s with x := v }

/-- The byte array. -/
def State.setMem (m : List Host.Cell) (s : State) : State := { s with mem := m }

/-- The microstep counter (10_state.md R31). -/
def State.setMstep (n : Nat) (s : State) : State := { s with mstep := n }

/-- `IR <- w; KIND <- i` (10_state.md R32). -/
def State.setFetched (w : Word) (i : Instr) (s : State) : State := { s with ir := w, kind := i }

/-- The ALU latches (10_state.md R33). -/
def State.setAlu (l : AluLatches) (s : State) : State := { s with alu := l }

/-! ### General registers (10_state.md R22, R23) -/

/-- A register read under either setting of `R0_HARDWIRED` (R22): hardwired, `x[0]` reads 0. -/
def State.readRegWith (hardwired : Bool) (s : State) (i : Reg) : Word :=
  if hardwired && decide (i = 0) then 0#32 else s.x[i]

/-- A register write under either setting of `R0_HARDWIRED` (R22): hardwired, a write to `x[0]` is
discarded. -/
def State.writeRegWith (hardwired : Bool) (i : Reg) (v : Word) (s : State) : State :=
  if hardwired && decide (i = 0) then s else s.setX (s.x.set i v)

/-- `x[i]` (R23). -/
def State.readReg (s : State) (i : Reg) : Word := s.readRegWith Params.r0Hardwired i

/-- `x[i] <- v` (R22). -/
def State.writeReg (i : Reg) (v : Word) (s : State) : State := s.writeRegWith Params.r0Hardwired i v

/-- `NextSeq`: `pc <- pc + 4`, wrapping (00_scope.md R11, 10_state.md R26). -/
def State.nextSeq (s : State) : State := s.setPc (s.pc + 4#32)

/-! ### Raising an error (60_exceptions.md R200, R207, R210)

The CORE has no trap entry: nothing is saved and control does not transfer. There is no return from
an error either (R211). -/

/-- `raise E(info)`: the effect ends with the error and none of its writes (R207). -/
def raise (f : Fault) : Host.Outcome State Fault Refusal := .fault f

/-! ### Memory access (20_memory.md R51 to R54) -/

/-- `M[a]` of the state. -/
def State.readByte (s : State) (a : Nat) : Byte := Memory.read s.mem a

/-- An access of `n` bytes at `addr` is in bounds: `uint(addr) + n <= MEM_SIZE` on unbounded integers
(R51). -/
def State.inBounds (s : State) (addr : Word) (n : Nat) : Bool := decide (uint addr + n ≤ s.memSize)

/-- A 4-byte read of the memory_subsystem's read port (10_state.md R38). -/
def State.readAccess (s : State) (kind : AccessKind) (addr : Word) : Except Fault Word :=
  if s.inBounds addr 4 then .ok (Memory.readWord s.mem (uint addr))
  else .error (.memoryOutOfBounds kind addr)

/-- `MemRead(addr, 4)` (R52). -/
def State.memRead (s : State) (addr : Word) : Except Fault Word := s.readAccess .load addr

/-- `FetchRead(addr)` (R54). -/
def State.fetchRead (s : State) (addr : Word) : Except Fault Word := s.readAccess .fetch addr

/-- `MemWrite(addr, 4, v)` (R53). -/
def State.memWrite (s : State) (addr v : Word) : Except Fault State :=
  if s.inBounds addr 4 then .ok (s.setMem (Memory.writeWord s.mem (uint addr) v))
  else .error (.memoryOutOfBounds .store addr)

/-! ### No instruction in flight -/

/-- The ALU latches' contents between instructions, by draw: any value (93_implementation_defined.md
U8). Log 11. -/
def freeAluLatches (n : Nat) : AluLatches :=
  ⟨Config.freeA n, Config.freeB n, Config.freeRes n, Config.freePhi n, Config.freePlo n, Config.freeCond n⟩

/-- `mstep <- 0`: no instruction is in flight any more, by retirement, error or host mutation
(10_state.md R31, 40_execution_cycle.md R117, R126). The latches hold any value then (U8, log 11). -/
def State.idle (s : State) : State :=
  { s with
    mstep := 0
    ir    := Config.freeIr s.draws
    kind  := Config.freeKind s.draws
    alu   := freeAluLatches s.draws
    draws := s.draws + 1 }

end Sys2Proof.Machine
end

