-- ==== Sys2Proof/Machine/Flags.lean ====
section
/-! DEFINITION. The CORE has no flags, condition codes or predicates (10_state.md R29). What stands for
them are the comparisons of the alu_unit (41_alu_register.md R140), each computed from its operands
inside one instruction. -/

namespace Sys2Proof.Machine

/-- `SLT(a, b)` as a condition: `sint(a) < sint(b)`. -/
def condLt (a b : Word) : Bool := decide (sint a < sint b)

/-- `EQ(a, b)`. -/
def condEq (a b : Word) : Bool := decide (a = b)

/-- `NE(a, b)`. -/
def condNe (a b : Word) : Bool := decide (a ≠ b)

/-- `LEZ(a)`: `sint(a) <= 0` (44_control_transfer.md R183, general knowledge G6). -/
def condLez (a : Word) : Bool := decide (sint a ≤ 0)

/-- `GTZ(a)`: `sint(a) > 0` (44_control_transfer.md R184, general knowledge G6). -/
def condGtz (a : Word) : Bool := decide (sint a > 0)

end Sys2Proof.Machine
end

