-- ==== Sys2Proof/Machine/Operands.lean ====
section
/-! DEFINITION. The operand forms: immediates, the branch offset, the effective address
(30_encoding.md R88 to R91, 43_load_store.md R170). -/

namespace Sys2Proof.Machine

/-- `simm = sext_32(imm16)` (R88). -/
def simm (imm16 : Imm16) : Word := imm16.signExtend 32

/-- `zimm = zext_32(imm16)` (R89, decision D9). -/
def zimm (imm16 : Imm16) : Word := imm16.setWidth 32

/-- `boff = sext_32(imm16) << 2` (R90). -/
def branchOffset (imm16 : Imm16) : Word := simm imm16 <<< 2

/-- `zext_32(imm26) << 2` (R91). -/
def jumpOffset (imm26 : Imm26) : Word := imm26.setWidth 32 <<< 2

/-- `EA = x[rs] + sext_32(imm16)`, mod `2^32` (43_load_store.md R170; the base is `x[rs]`, decision D8). -/
def State.effectiveAddress (s : State) (rs : Reg) (imm16 : Imm16) : Word := s.readReg rs + simm imm16

end Sys2Proof.Machine
end

