-- ==== Sys2Proof/Machine/Alu.lean ====
section
/-! DEFINITION. The alu_unit: its functions (41_alu_register.md R140) and its interface
(10_state.md R36). No function raises an error. -/

namespace Sys2Proof.Machine

/-- `ADD(a, b)`, mod `2^32`. -/
def aluAdd (a b : Word) : Word := a + b

/-- `SUB(a, b)`, mod `2^32`. -/
def aluSub (a b : Word) : Word := a - b

/-- The 64-bit pattern of the exact signed product (R143). -/
def aluProduct (a b : Word) : BitVec 64 := BitVec.ofInt 64 (sint a * sint b)

/-- `MUL`'s `phi = p[63:32]`. -/
def aluMulHi (a b : Word) : Word := (aluProduct a b).extractLsb' 32 32

/-- `MUL`'s `plo = p[31:0]`. -/
def aluMulLo (a b : Word) : Word := (aluProduct a b).extractLsb' 0 32

/-- `AND(a, b)`. -/
def aluAnd (a b : Word) : Word := a &&& b

/-- `OR(a, b)`. -/
def aluOr (a b : Word) : Word := a ||| b

/-- `XOR(a, b)`. -/
def aluXor (a b : Word) : Word := a ^^^ b

/-- `NOT(a)`. -/
def aluNot (a : Word) : Word := ~~~a

/-- `SLT(a, b)`: 1 or 0. -/
def aluSlt (a b : Word) : Word := if condLt a b then 1#32 else 0#32

/-- `BTARGET(p, imm16)`, mod `2^32` (44_control_transfer.md R180). -/
def aluBranchTarget (p : Word) (imm16 : Imm16) : Word := p + branchOffset imm16

/-- `JTARGET(p, imm26)` (30_encoding.md R91). -/
def aluJumpTarget (p : Word) (imm26 : Imm26) : Word := (p &&& 0xF0000000#32) ||| jumpOffset imm26

/-- The operations of R36. -/
inductive AluOp where
  | add | sub | mul | and | or | xor | not | slt | eq | ne | lez | gtz | btarget | jtarget
deriving DecidableEq, Repr

/-- The output lines an operation drives (R36, log 21). -/
inductive AluOut where
  /-- `res` -/
  | result (res : Word)
  /-- `phi` and `plo`, `MUL` only -/
  | product (phi plo : Word)
  /-- `cond` -/
  | condition (cond : Bool)
deriving DecidableEq, Repr

/-- The alu_unit (R36, R140): an operation and two 32-bit operands. `NOT`, `LEZ` and `GTZ` do not use `b`.
DESIGN CHOICE (log 21): R36 and R140 do not say how `BTARGET` and `JTARGET` get their 16-bit and 26-bit
field through a 32-bit operand; here `a` is `p`, the field is the low bits of `b`, and `b`'s other bits are
ignored. -/
def alu (op : AluOp) (a b : Word) : AluOut :=
  match op with
  | .add => .result (aluAdd a b)
  | .sub => .result (aluSub a b)
  | .mul => .product (aluMulHi a b) (aluMulLo a b)
  | .and => .result (aluAnd a b)
  | .or => .result (aluOr a b)
  | .xor => .result (aluXor a b)
  | .not => .result (aluNot a)
  | .slt => .result (aluSlt a b)
  | .eq => .condition (condEq a b)
  | .ne => .condition (condNe a b)
  | .lez => .condition (condLez a)
  | .gtz => .condition (condGtz a)
  | .btarget => .result (aluBranchTarget a (b.setWidth 16))
  | .jtarget => .result (aluJumpTarget a (b.setWidth 26))

end Sys2Proof.Machine
end

