-- ==== Sys2Proof/Machine/AluRegister.lean ====
section
/-! DEFINITION. The register-register ALU instructions (spec/41_alu_register.md). Each meaning is the
instruction's effect (00_scope.md R11). -/

namespace Sys2Proof.Machine

/-- The effect shared by every instruction that writes one general register and goes on: `x[d] <- v`,
then NextSeq. -/
def commitReg (d : Reg) (v : Word) (s : State) : Host.Outcome State Fault Refusal :=
  .next (s.writeReg d v).nextSeq

/-- `x[rd] <- x[rs] + x[rt]; NextSeq` (R141). -/
def execAdd (rs rt rd : Reg) (s : State) : Host.Outcome State Fault Refusal :=
  commitReg rd (aluAdd (s.readReg rs) (s.readReg rt)) s

/-- `x[rd] <- x[rs] - x[rt]; NextSeq` (R142; minuend `rs`, general knowledge G5). -/
def execSub (rs rt rd : Reg) (s : State) : Host.Outcome State Fault Refusal :=
  commitReg rd (aluSub (s.readReg rs) (s.readReg rt)) s

/-- `hi` and `lo` take the halves of the signed product; NextSeq (R143, conflict C2). -/
def execMul (rs rt : Reg) (s : State) : Host.Outcome State Fault Refusal :=
  .next (s.setHiLo (aluMulHi (s.readReg rs) (s.readReg rt)) (aluMulLo (s.readReg rs) (s.readReg rt))).nextSeq

/-- `x[rd] <- x[rs] & x[rt]; NextSeq` (R144). -/
def execAnd (rs rt rd : Reg) (s : State) : Host.Outcome State Fault Refusal :=
  commitReg rd (aluAnd (s.readReg rs) (s.readReg rt)) s

/-- `x[rd] <- x[rs] | x[rt]; NextSeq` (R145). -/
def execOr (rs rt rd : Reg) (s : State) : Host.Outcome State Fault Refusal :=
  commitReg rd (aluOr (s.readReg rs) (s.readReg rt)) s

/-- `x[rd] <- x[rs] ^ x[rt]; NextSeq` (R146). -/
def execXor (rs rt rd : Reg) (s : State) : Host.Outcome State Fault Refusal :=
  commitReg rd (aluXor (s.readReg rs) (s.readReg rt)) s

/-- `x[rd] <- ~x[rs]; NextSeq` (R147; the operand is `rs`, decision D10). -/
def execNot (rs rd : Reg) (s : State) : Host.Outcome State Fault Refusal :=
  commitReg rd (aluNot (s.readReg rs)) s

/-- `x[rd] <- (sint(x[rs]) < sint(x[rt])) ? 1 : 0; NextSeq` (R148). -/
def execSlt (rs rt rd : Reg) (s : State) : Host.Outcome State Fault Refusal :=
  commitReg rd (aluSlt (s.readReg rs) (s.readReg rt)) s

end Sys2Proof.Machine
end

