-- ==== Sys2Proof/Machine/AluImmediate.lean ====
section
/-! DEFINITION. The register-immediate ALU instructions (spec/42_alu_immediate.md). The destination is
`x[rt]`. -/

namespace Sys2Proof.Machine

/-- `x[rt] <- x[rs] + sext_32(imm16); NextSeq` (R160). -/
def execAddi (rs rt : Reg) (imm16 : Imm16) (s : State) : Host.Outcome State Fault Refusal :=
  commitReg rt (aluAdd (s.readReg rs) (simm imm16)) s

/-- `x[rt] <- (sint(x[rs]) < sint(sext_32(imm16))) ? 1 : 0; NextSeq` (R161). -/
def execSlti (rs rt : Reg) (imm16 : Imm16) (s : State) : Host.Outcome State Fault Refusal :=
  commitReg rt (aluSlt (s.readReg rs) (simm imm16)) s

/-- `x[rt] <- x[rs] & zext_32(imm16); NextSeq` (R162, decision D9). -/
def execAndi (rs rt : Reg) (imm16 : Imm16) (s : State) : Host.Outcome State Fault Refusal :=
  commitReg rt (aluAnd (s.readReg rs) (zimm imm16)) s

/-- `x[rt] <- x[rs] | zext_32(imm16); NextSeq` (R163, decision D9). -/
def execOri (rs rt : Reg) (imm16 : Imm16) (s : State) : Host.Outcome State Fault Refusal :=
  commitReg rt (aluOr (s.readReg rs) (zimm imm16)) s

end Sys2Proof.Machine
end

