-- ==== Sys2Proof/Machine/Control.lean ====
section
/-! DEFINITION. Branches, jumps and the terminator (spec/44_control_transfer.md, 30_encoding.md R94). No
delay slots (R187). -/

namespace Sys2Proof.Machine

/-- `Branch(cond)`: to `pc + (sext_32(imm16) << 2)` from the branch's own address, else `pc + 4` (R180,
conflict C3). -/
def branch (cond : Bool) (imm16 : Imm16) (s : State) : Host.Outcome State Fault Refusal :=
  .next (if cond then s.setPc (aluBranchTarget s.pc imm16) else s.nextSeq)

/-- `Branch(x[rs] == x[rt])` (R181). -/
def execBeq (rs rt : Reg) (imm16 : Imm16) (s : State) : Host.Outcome State Fault Refusal :=
  branch (condEq (s.readReg rs) (s.readReg rt)) imm16 s

/-- `Branch(x[rs] != x[rt])` (R182). -/
def execBne (rs rt : Reg) (imm16 : Imm16) (s : State) : Host.Outcome State Fault Refusal :=
  branch (condNe (s.readReg rs) (s.readReg rt)) imm16 s

/-- `Branch(sint(x[rs]) <= 0)` (R183). -/
def execBlez (rs : Reg) (imm16 : Imm16) (s : State) : Host.Outcome State Fault Refusal :=
  branch (condLez (s.readReg rs)) imm16 s

/-- `Branch(sint(x[rs]) > 0)` (R184). -/
def execBgtz (rs : Reg) (imm16 : Imm16) (s : State) : Host.Outcome State Fault Refusal :=
  branch (condGtz (s.readReg rs)) imm16 s

/-- `pc <- (pc & 0xF0000000) | (zext_32(imm26) << 2)` (R185). -/
def execJ (imm26 : Imm26) (s : State) : Host.Outcome State Fault Refusal :=
  .next (s.setPc (aluJumpTarget s.pc imm26))

/-- `x[LINK_INDEX] <- pc + 4` and the jump, both from the old `pc` (R186). -/
def execJal (imm26 : Imm26) (s : State) : Host.Outcome State Fault Refusal :=
  .next ((s.writeReg Params.linkIndex (s.pc + 4#32)).setPc (aluJumpTarget s.pc imm26))

/-- The terminator: "it has no effect and does not advance `pc`" (30_encoding.md R94,
40_execution_cycle.md R113). Log 2. -/
def execTerminator (s : State) : Host.Outcome State Fault Refusal := .next s

end Sys2Proof.Machine
end

