-- ==== Sys2Proof/Machine/LoadStore.lean ====
section
/-! DEFINITION. `lw` and `sw` (spec/43_load_store.md). -/

namespace Sys2Proof.Machine

/-- `x[rt] <- MemRead(EA, 4); NextSeq`, or MemoryOutOfBounds(LOAD, EA) and no write (R171). -/
def execLw (rs rt : Reg) (imm16 : Imm16) (s : State) : Host.Outcome State Fault Refusal :=
  match s.memRead (s.effectiveAddress rs imm16) with
  | .ok v => commitReg rt v s
  | .error f => raise f

/-- `MemWrite(EA, 4, x[rt]); NextSeq`, or MemoryOutOfBounds(STORE, EA) and no write (R172). -/
def execSw (rs rt : Reg) (imm16 : Imm16) (s : State) : Host.Outcome State Fault Refusal :=
  match s.memWrite (s.effectiveAddress rs imm16) (s.readReg rt) with
  | .ok t => .next t.nextSeq
  | .error f => raise f

end Sys2Proof.Machine
end

