-- ==== Sys2Proof/Machine/Dispatch.lean ====
section
/-! DEFINITION. One arm per instruction: its effect, applied at its terminal microstep
(40_execution_cycle.md R117). -/

namespace Sys2Proof.Machine

def exec (i : Instr) (s : State) : Host.Outcome State Fault Refusal :=
  match i with
  | .add rs rt rd => Sys2Proof.Machine.execAdd rs rt rd s
  | .sub rs rt rd => Sys2Proof.Machine.execSub rs rt rd s
  | .mul rs rt => Sys2Proof.Machine.execMul rs rt s
  | .and rs rt rd => Sys2Proof.Machine.execAnd rs rt rd s
  | .or rs rt rd => Sys2Proof.Machine.execOr rs rt rd s
  | .xor rs rt rd => Sys2Proof.Machine.execXor rs rt rd s
  | .not rs rd => Sys2Proof.Machine.execNot rs rd s
  | .slt rs rt rd => Sys2Proof.Machine.execSlt rs rt rd s
  | .bgtz rs imm16 => Sys2Proof.Machine.execBgtz rs imm16 s
  | .j imm26 => Sys2Proof.Machine.execJ imm26 s
  | .jal imm26 => Sys2Proof.Machine.execJal imm26 s
  | .beq rs rt imm16 => Sys2Proof.Machine.execBeq rs rt imm16 s
  | .bne rs rt imm16 => Sys2Proof.Machine.execBne rs rt imm16 s
  | .blez rs imm16 => Sys2Proof.Machine.execBlez rs imm16 s
  | .addi rs rt imm16 => Sys2Proof.Machine.execAddi rs rt imm16 s
  | .slti rs rt imm16 => Sys2Proof.Machine.execSlti rs rt imm16 s
  | .andi rs rt imm16 => Sys2Proof.Machine.execAndi rs rt imm16 s
  | .ori rs rt imm16 => Sys2Proof.Machine.execOri rs rt imm16 s
  | .lw rs rt imm16 => Sys2Proof.Machine.execLw rs rt imm16 s
  | .sw rs rt imm16 => Sys2Proof.Machine.execSw rs rt imm16 s
  | .terminator => Sys2Proof.Machine.execTerminator s

end Sys2Proof.Machine
end

