-- ==== Sys2Proof/Machine/Microstep.lean ====
section
/-! DEFINITION. The writeback_controller: one microstep, and the host's two loops over it
(spec/40_execution_cycle.md). -/

namespace Sys2Proof.Machine

/-- The result of one `runMicrostep` call (R111). -/
inductive StepResult where
  /-- CONTINUE: a non-terminal microstep was performed. -/
  | continued
  /-- RETIRED: the terminal microstep committed the instruction. -/
  | retired
  /-- EXHAUSTED: the word at `pc` is 0; nothing changed. -/
  | exhausted (pc : Word)
  /-- MEMORY_OUT_OF_BOUNDS or UNKNOWN_OPCODE, with what it carries. -/
  | error (f : Fault)
  /-- The model's own: exec refused. No arm of exec refuses. -/
  | refused (r : Refusal)
deriving DecidableEq, Repr

/-- The numeric codes of R111 and R201 (decision D16). The refusal is no result of the spec. -/
def StepResult.code : StepResult → Option Nat
  | .continued => some 0
  | .retired => some 1
  | .exhausted _ => some 2
  | .error (.memoryOutOfBounds _ _) => some 3
  | .error (.unknownOpcode _) => some 4
  | .refused _ => none

/-- `FETCH` = 0, `LOAD` = 1, `STORE` = 2 (R111). -/
def AccessKind.code : AccessKind → Nat
  | .fetch => 0
  | .load => 1
  | .store => 2

/-! ### The ALU latches, microstep by microstep (10_state.md R33; labels of R120; log 13) -/

/-- What the alu_unit returns is retrieved into its latches. -/
def AluLatches.retrieve (l : AluLatches) : AluOut → AluLatches
  | .result v => { l with res := v }
  | .product h lo => { l with phi := h, plo := lo }
  | .condition c => { l with cond := c }

/-- Six microsteps on two operands: send, send, operate, retrieve, stage, commit (R120). -/
def twoOperandPhase (op : AluOp) (a b : Word) (k : Nat) (l : AluLatches) : AluLatches :=
  match k with
  | 0 => { l with a := a }
  | 1 => { l with b := b }
  | 3 => l.retrieve (alu op l.a l.b)
  | _ => l

/-- `SLTI`: send, send immediate, compare and retrieve, stage, commit (R120). -/
def sltiPhase (a b : Word) (k : Nat) (l : AluLatches) : AluLatches :=
  match k with
  | 0 => { l with a := a }
  | 1 => { l with b := b }
  | 2 => l.retrieve (alu .slt l.a l.b)
  | _ => l

/-- `MUL`: send, send, multiply, retrieve product, split HI, split LO, commit (R120). -/
def mulPhase (a b : Word) (k : Nat) (l : AluLatches) : AluLatches :=
  match k with
  | 0 => { l with a := a }
  | 1 => { l with b := b }
  | 4 => { l with phi := aluMulHi l.a l.b }
  | 5 => { l with plo := aluMulLo l.a l.b }
  | _ => l

/-- `NOT`: send, retrieve, stage, commit (R120). -/
def notPhase (a : Word) (k : Nat) (l : AluLatches) : AluLatches :=
  match k with
  | 0 => { l with a := a }
  | 1 => l.retrieve (alu .not l.a l.b)
  | _ => l

/-- `LW` and `SW`: form EA, stage, commit (R120). DESIGN CHOICE (log 13): R120 and R170 leave open which
latches `form EA` loads; here it loads `A` with the base, `B` with the sign-extended offset and `RES` with
their sum, all at microstep 0. -/
def addressPhase (base off : Word) (k : Nat) (l : AluLatches) : AluLatches :=
  match k with
  | 0 => { l with a := base, b := off }.retrieve (alu .add base off)
  | _ => l

/-- `BEQ` and `BNE`: send, send, compare, retrieve, form target, commit (R120). -/
def compareBranchPhase (op : AluOp) (a b pc : Word) (imm16 : Imm16) (k : Nat) (l : AluLatches) : AluLatches :=
  match k with
  | 0 => { l with a := a }
  | 1 => { l with b := b }
  | 3 => l.retrieve (alu op l.a l.b)
  | 4 => l.retrieve (alu .btarget pc (zimm imm16))
  | _ => l

/-- `BLEZ` and `BGTZ`: send, compare with 0, retrieve, form target, commit (R120). -/
def zeroBranchPhase (op : AluOp) (a pc : Word) (imm16 : Imm16) (k : Nat) (l : AluLatches) : AluLatches :=
  match k with
  | 0 => { l with a := a }
  | 2 => l.retrieve (alu op l.a l.b)
  | 3 => l.retrieve (alu .btarget pc (zimm imm16))
  | _ => l

/-- `JAL`: stage link, commit (R120). -/
def linkPhase (pc : Word) (k : Nat) (l : AluLatches) : AluLatches :=
  match k with
  | 0 => l.retrieve (alu .add pc 4#32)
  | _ => l

/-- The ALU latches after microstep `k` of `i`, from what they hold before it. -/
def aluPhase (i : Instr) (k : Nat) (s : State) : AluLatches :=
  match i with
  | .add rs rt _ => twoOperandPhase .add (s.readReg rs) (s.readReg rt) k s.alu
  | .sub rs rt _ => twoOperandPhase .sub (s.readReg rs) (s.readReg rt) k s.alu
  | .mul rs rt => mulPhase (s.readReg rs) (s.readReg rt) k s.alu
  | .and rs rt _ => twoOperandPhase .and (s.readReg rs) (s.readReg rt) k s.alu
  | .or rs rt _ => twoOperandPhase .or (s.readReg rs) (s.readReg rt) k s.alu
  | .xor rs rt _ => twoOperandPhase .xor (s.readReg rs) (s.readReg rt) k s.alu
  | .not rs _ => notPhase (s.readReg rs) k s.alu
  | .slt rs rt _ => twoOperandPhase .slt (s.readReg rs) (s.readReg rt) k s.alu
  | .bgtz rs imm16 => zeroBranchPhase .gtz (s.readReg rs) s.pc imm16 k s.alu
  | .j _ => s.alu
  | .jal _ => linkPhase s.pc k s.alu
  | .beq rs rt imm16 => compareBranchPhase .eq (s.readReg rs) (s.readReg rt) s.pc imm16 k s.alu
  | .bne rs rt imm16 => compareBranchPhase .ne (s.readReg rs) (s.readReg rt) s.pc imm16 k s.alu
  | .blez rs imm16 => zeroBranchPhase .lez (s.readReg rs) s.pc imm16 k s.alu
  | .addi rs _ imm16 => twoOperandPhase .add (s.readReg rs) (simm imm16) k s.alu
  | .slti rs _ imm16 => sltiPhase (s.readReg rs) (simm imm16) k s.alu
  | .andi rs _ imm16 => twoOperandPhase .and (s.readReg rs) (zimm imm16) k s.alu
  | .ori rs _ imm16 => twoOperandPhase .or (s.readReg rs) (zimm imm16) k s.alu
  | .lw rs _ imm16 => addressPhase (s.readReg rs) (simm imm16) k s.alu
  | .sw rs _ imm16 => addressPhase (s.readReg rs) (simm imm16) k s.alu
  | .terminator => s.alu

/-! ### One microstep -/

/-- The terminal microstep (R117): every write of the effect, `mstep <- 0` and RETIRED; or, where the
effect raises an error, no write of it, `mstep <- 0` and the error. -/
def terminalMicrostep (i : Instr) (s : State) : StepResult × State :=
  match exec i s with
  | .next t => (.retired, t.idle)
  | .fault f => (.error f, s.idle)
  | .refused r => (.refused r, s.idle)

/-- Finding the terminator (R113): EXHAUSTED, nothing changed. -/
def exhaustedMicrostep (s : State) : StepResult × State :=
  match exec .terminator s with
  | .next t => (.exhausted s.pc, t)
  | .fault f => (.error f, s)
  | .refused r => (.refused r, s)

/-- A non-terminal microstep of `i` (R115, R116): `mstep` counts it, the latches may change, and
nothing else does. -/
def intermediateMicrostep (i : Instr) (s : State) : StepResult × State :=
  (.continued, (s.setAlu (aluPhase i s.mstep s)).setMstep (s.mstep + 1))

/-- Microstep `s.mstep` of `i`: terminal when it is the last of `MICROSTEPS(i)` (R115 to R117). A counter
at or past the last, which no run reaches, is terminal too (log 16). -/
def microstepOf (i : Instr) (s : State) : StepResult × State :=
  if s.mstep + 1 < Params.microsteps i then intermediateMicrostep i s else terminalMicrostep i s

/-- A call with no instruction in flight (R112 to R115): fetch, the zero word, decode, latch. -/
def firstMicrostep (s : State) : StepResult × State :=
  match s.fetchRead s.pc with
  | .error f => (.error f, s)
  | .ok w =>
    match decode w with
    | .error _ => (.error (.unknownOpcode w), s)
    | .ok .terminator => exhaustedMicrostep s
    | .ok i => microstepOf i (s.setFetched w i)

/-- `runMicrostep()`: exactly one microstep (R110, R121). -/
def runMicrostep (s : State) : StepResult × State :=
  if s.mstep = 0 then firstMicrostep s else microstepOf s.kind s

/-! ### The host's loops -/

/-- At most `n` `runMicrostep` calls, up to the first result that is not CONTINUE. -/
def runMicrosteps : Nat → State → StepResult × State
  | 0, s => (.continued, s)
  | n + 1, s =>
    match runMicrostep s with
    | (.continued, t) => runMicrosteps n t
    | r => r

/-- `runInstruction()` (R122): it returns "after at most 7 calls" (log 15). -/
def runInstruction (s : State) : StepResult × State := runMicrosteps Params.maxMicrosteps s

/-- What `runToCompletion` returns in the model: the result of R123, or the model's own, non-architectural
report that `FUEL` ran out (decision D32). -/
inductive RunResult where
  | ended (r : StepResult)
  | outOfFuel
deriving DecidableEq, Repr

/-- `runToCompletion()` (R123), with a bound of `fuel` instructions (D32, log 15). -/
def runToCompletion : Nat → State → RunResult × State
  | 0, s => (.outOfFuel, s)
  | n + 1, s =>
    match runInstruction s with
    | (.retired, t) => runToCompletion n t
    | (r, t) => (.ended r, t)

/-- The outcome of a whole instruction call in the host's three outcomes (log 1, log 2): an error is a
fault; RETIRED and EXHAUSTED are the state the call leaves. -/
def outcomeOf (r : StepResult × State) : Host.Outcome State Fault Refusal :=
  match r with
  | (.error f, _) => .fault f
  | (.refused q, _) => .refused q
  | (_, t) => .next t

end Sys2Proof.Machine
end

