-- ==== Sys2Proof/Machine/Step.lean ====
section
/-! DEFINITION. The step: one `runInstruction` call (40_execution_cycle.md R122; log 1). -/

namespace Sys2Proof.Machine

/-- One `runInstruction` call. -/
def step (s : State) : Host.Outcome State Fault Refusal := outcomeOf (runInstruction s)

/-- Where a word is placed to be fetched next: at `pc`, or, where `pc` is out of bounds, at index 0
(log 25). -/
def State.fetchPlace (s : State) : Word := if s.inBounds s.pc 4 then s.pc else 0#32

/-- The state with a table word stored where the next fetch reads it, and no instruction in flight
(log 17, log 25). -/
def State.withFetchWord (s : State) (nbits w : Nat) : State :=
  ((s.setMem (Memory.writeWord s.mem (uint s.fetchPlace) (tableWord nbits w))).setPc s.fetchPlace).setMstep 0

end Sys2Proof.Machine
end

