-- ==== Sys2Proof/Machine/Asm.lean ====
section
/-! DEFINITION. The assembler forms (30_encoding.md R97) and register names (10_state.md R24), as
structured lines (log 24). Nothing of the CORE reads them. -/

namespace Sys2Proof.Machine

/-- The assembler names (R24, general knowledge G1). -/
def regNames : List String :=
  ["$zero", "$at", "$v0", "$v1", "$a0", "$a1", "$a2", "$a3", "$t0", "$t1", "$t2", "$t3", "$t4", "$t5",
   "$t6", "$t7"] ++
  ["$s0", "$s1", "$s2", "$s3", "$s4", "$s5", "$s6", "$s7", "$t8", "$t9", "$k0", "$k1", "$gp", "$sp",
   "$fp", "$ra"]

/-- The register a name stands for. -/
def regOfName? (name : String) : Option Reg := (List.finRange 32).find? (fun r => regNames[r.val]? == some name)

/-- One operand as written. -/
inductive AsmOperand where
  | reg (r : Reg)
  /-- A raw 16-bit immediate or branch offset. -/
  | imm (v : Imm16)
  /-- `imm(rs)`. -/
  | mem (offset : Imm16) (base : Reg)
  /-- A raw 26-bit target. -/
  | target (v : Imm26)
deriving DecidableEq, Repr

/-- A mnemonic and its operands in written order. -/
structure AsmLine where
  op   : String
  args : List AsmOperand
deriving DecidableEq, Repr

/-- The syntax column of R97. The terminator has no assembler form. -/
def disassemble : Instr → Option AsmLine
  | .add rs rt rd => some ⟨"add", [.reg rd, .reg rs, .reg rt]⟩
  | .sub rs rt rd => some ⟨"sub", [.reg rd, .reg rs, .reg rt]⟩
  | .mul rs rt => some ⟨"mul", [.reg rs, .reg rt]⟩
  | .and rs rt rd => some ⟨"and", [.reg rd, .reg rs, .reg rt]⟩
  | .or rs rt rd => some ⟨"or", [.reg rd, .reg rs, .reg rt]⟩
  | .xor rs rt rd => some ⟨"xor", [.reg rd, .reg rs, .reg rt]⟩
  | .not rs rd => some ⟨"not", [.reg rd, .reg rs]⟩
  | .slt rs rt rd => some ⟨"slt", [.reg rd, .reg rs, .reg rt]⟩
  | .bgtz rs off => some ⟨"bgtz", [.reg rs, .imm off]⟩
  | .j t => some ⟨"j", [.target t]⟩
  | .jal t => some ⟨"jal", [.target t]⟩
  | .beq rs rt off => some ⟨"beq", [.reg rs, .reg rt, .imm off]⟩
  | .bne rs rt off => some ⟨"bne", [.reg rs, .reg rt, .imm off]⟩
  | .blez rs off => some ⟨"blez", [.reg rs, .imm off]⟩
  | .addi rs rt v => some ⟨"addi", [.reg rt, .reg rs, .imm v]⟩
  | .slti rs rt v => some ⟨"slti", [.reg rt, .reg rs, .imm v]⟩
  | .andi rs rt v => some ⟨"andi", [.reg rt, .reg rs, .imm v]⟩
  | .ori rs rt v => some ⟨"ori", [.reg rt, .reg rs, .imm v]⟩
  | .lw rs rt v => some ⟨"lw", [.reg rt, .mem v rs]⟩
  | .sw rs rt v => some ⟨"sw", [.reg rt, .mem v rs]⟩
  | .terminator => none

/-- The instruction a line of R97's table stands for. -/
def assemble (l : AsmLine) : Option Instr :=
  match l.args with
  | [.reg a, .reg b, .reg c] =>
    if l.op = "add" then some (.add b c a)
    else if l.op = "sub" then some (.sub b c a)
    else if l.op = "and" then some (.and b c a)
    else if l.op = "or" then some (.or b c a)
    else if l.op = "xor" then some (.xor b c a)
    else if l.op = "slt" then some (.slt b c a)
    else none
  | [.reg a, .reg b] =>
    if l.op = "mul" then some (.mul a b)
    else if l.op = "not" then some (.not b a)
    else none
  | [.reg a, .reg b, .imm v] =>
    if l.op = "addi" then some (.addi b a v)
    else if l.op = "slti" then some (.slti b a v)
    else if l.op = "andi" then some (.andi b a v)
    else if l.op = "ori" then some (.ori b a v)
    else if l.op = "beq" then some (.beq a b v)
    else if l.op = "bne" then some (.bne a b v)
    else none
  | [.reg a, .mem v b] =>
    if l.op = "lw" then some (.lw b a v)
    else if l.op = "sw" then some (.sw b a v)
    else none
  | [.reg a, .imm v] =>
    if l.op = "blez" then some (.blez a v)
    else if l.op = "bgtz" then some (.bgtz a v)
    else none
  | [.target t] =>
    if l.op = "j" then some (.j t)
    else if l.op = "jal" then some (.jal t)
    else none
  | _ => none

/-- `off = (L - pc_of_branch) / 4`, counted from the branch's own address; `none` where no 16-bit field
reaches the label. -/
def labelOffset? (pc label : Word) : Option Imm16 :=
  let off : Imm16 := ((label - pc) >>> 2).setWidth 16
  if branchOffset off = label - pc then some off else none

/-- `imm26 = (L >> 2) & 0x3FFFFFF`. -/
def labelTarget (label : Word) : Imm26 := (label >>> 2).setWidth 26

end Sys2Proof.Machine
end

