-- ==== Sys2Proof/Machine/HostOps.lean ====
section
/-! DEFINITION. Construction and the host's direct state access (70_reset_and_hazards.md R230, R231,
R240, R241). The only other host writes are program load (Machine/Loader.lean) and state restore
(Machine/Codec.lean). -/

namespace Sys2Proof.Machine

/-- A freshly constructed CORE with memory size `n` (R230; the table of 10_state.md R41). -/
def State.construct (n : Nat) : State :=
  { State.reset with
    x       := (Vector.replicate 32 0#32).set Params.spIndex (BitVec.ofNat 32 (n - 4))
    memSize := n }

/-- The construction request: outside `[4, 2^31 - 1]` it is refused and constructs nothing (R230,
decision D4). -/
def construct (n : Nat) : Option State :=
  if Params.memSizeMin ≤ n ∧ n ≤ Params.memSizeMax then some (State.construct n) else none

/-- `getPC() -> pc`. -/
def getPC (s : State) : Word := s.pc

/-- `setPC(v)`: any 32-bit `v`; `mstep <- 0` (40_execution_cycle.md R126). -/
def setPC (v : Word) (s : State) : State := (s.setPc v).idle

/-- What `getRegisters()` returns (R240, decision D27). -/
structure RegisterView where
  x  : List Word
  hi : Word
  lo : Word
deriving DecidableEq, Repr

/-- `getRegisters()`: `x[0..31]`, `hi` and `lo`. -/
def getRegisters (s : State) : RegisterView :=
  ⟨(List.finRange 32).map s.readReg, s.hi, s.lo⟩

/-- `getMemory()`: a copy of `M[0..MEM_SIZE-1]`. -/
def getMemory (s : State) : List Byte := (List.range s.memSize).map s.readByte

end Sys2Proof.Machine
end

