-- ==== Sys2Proof/Machine/Codec.lean ====
section
/-! DEFINITION. State persistence: the image's layout, segments and checks (70_reset_and_hazards.md R235
to R238, decisions D25 and D26). `HEADER_TAG` is an argument here and OPEN in Config (log 14). -/

namespace Sys2Proof.Machine

/-! ### The segment rule (R237) -/

/-- `mid = floor(MEM_SIZE / 2)`. -/
def State.midpoint (s : State) : Nat := s.memSize / 2

/-- `TEXTLEN = 1 + max { a < mid : M[a] != 0 }`, or 0. -/
def State.textLen (s : State) : Nat :=
  (s.mem.filter (fun c => decide (c.1 < s.midpoint ∧ c.2 ≠ 0#8))).foldl (fun n c => max n (c.1 + 1)) 0

/-- `STACKLEN = MEM_SIZE - min { a >= mid : M[a] != 0 }`, or 0. -/
def State.stackLen (s : State) : Nat :=
  (s.mem.filter (fun c => decide (s.midpoint ≤ c.1 ∧ c.1 < s.memSize ∧ c.2 ≠ 0#8))).foldl
    (fun n c => max n (s.memSize - c.1)) 0

/-- `n` bytes of memory from index `a`, ascending. -/
def State.segment (s : State) (a n : Nat) : List Byte := (List.range n).map (fun k => s.readByte (a + k))

/-! ### Saving (R235) -/

/-- The image of a state under a header tag. -/
def saveStateWith (tag : List Byte) (s : State) : List Byte :=
  tag
    ++ (List.finRange 32).flatMap (fun i => bytesOfWord (s.readReg i))
    ++ bytesOfWord s.pc ++ bytesOfWord s.hi ++ bytesOfWord s.lo
    ++ bytesOfWord (BitVec.ofNat 32 s.memSize)
    ++ bytesOfWord (BitVec.ofNat 32 s.textLen) ++ s.segment 0 s.textLen
    ++ bytesOfWord (BitVec.ofNat 32 s.stackLen) ++ s.segment (s.memSize - s.stackLen) s.stackLen

/-- `saveState()` with the CORE's own tag. It changes no state. -/
def saveState (s : State) : List Byte := saveStateWith Config.headerTag s

/-! ### Reading (R236) -/

/-- `be32(o)`. -/
def be32 (bytes : List Byte) (o : Nat) : Word :=
  wordOfBytes (bytes.getD o 0#8) (bytes.getD (o + 1) 0#8) (bytes.getD (o + 2) 0#8) (bytes.getD (o + 3) 0#8)

/-- `MEMLEN = be32(T + 140)`. -/
def imageMemLen (tagLen : Nat) (bytes : List Byte) : Nat := uint (be32 bytes (tagLen + 140))

/-- `TEXTLEN = be32(T + 144)`. -/
def imageTextLen (tagLen : Nat) (bytes : List Byte) : Nat := uint (be32 bytes (tagLen + 144))

/-- `STACKLEN = be32(T + 148 + TEXTLEN)`. -/
def imageStackLen (tagLen : Nat) (bytes : List Byte) : Nat :=
  uint (be32 bytes (tagLen + 148 + imageTextLen tagLen bytes))

/-! ### Restoring (R238) -/

/-- Which check failed. -/
inductive MalformedReason where
  | truncated
  | badTag
  | badMemLen
  | segmentsExceedMemory
  | lengthMismatch
deriving DecidableEq, Repr

/-- The result of a state restore. -/
inductive RestoreResult where
  | ok
  /-- `MALFORMED_STATE(reason)`. -/
  | malformedState (reason : MalformedReason)
deriving DecidableEq, Repr

/-- Code 6 (60_exceptions.md R201); `OK` has none. -/
def RestoreResult.code : RestoreResult → Option Nat
  | .ok => none
  | .malformedState _ => some 6

/-- The six checks in order: the first that fails, or none. -/
def imageProblem (tag bytes : List Byte) : Option MalformedReason :=
  if bytes.length < tag.length + 148 then some .truncated
  else if bytes.take tag.length ≠ tag then some .badTag
  else if imageMemLen tag.length bytes < Params.memSizeMin ∨ imageMemLen tag.length bytes > Params.memSizeMax then
    some .badMemLen
  else if bytes.length < tag.length + 152 + imageTextLen tag.length bytes then some .truncated
  else if imageTextLen tag.length bytes + imageStackLen tag.length bytes > imageMemLen tag.length bytes then
    some .segmentsExceedMemory
  else if bytes.length ≠ tag.length + 152 + imageTextLen tag.length bytes + imageStackLen tag.length bytes then
    some .lengthMismatch
  else none

/-- The memory of an image: zero but for its two segments. -/
def imageMemory (tagLen : Nat) (bytes : List Byte) : List Host.Cell :=
  let textLen := imageTextLen tagLen bytes
  let stackLen := imageStackLen tagLen bytes
  Memory.writeBytes
    (Memory.writeBytes [] 0 ((bytes.drop (tagLen + 148)).take textLen))
    (imageMemLen tagLen bytes - stackLen)
    ((bytes.drop (tagLen + 152 + textLen)).take stackLen)

/-- The state an accepted image gives: every field at once, `mstep <- 0`. -/
def restored (tagLen : Nat) (bytes : List Byte) (s : State) : State :=
  State.idle { s with
    x       := Vector.ofFn (fun i => be32 bytes (tagLen + 4 * i.val))
    pc      := be32 bytes (tagLen + 128)
    hi      := be32 bytes (tagLen + 132)
    lo      := be32 bytes (tagLen + 136)
    memSize := imageMemLen tagLen bytes
    mem     := imageMemory tagLen bytes }

/-- `loadState(bytes)` under a header tag: a rejected image changes nothing. -/
def loadStateWith (tag bytes : List Byte) (s : State) : RestoreResult × State :=
  match imageProblem tag bytes with
  | some reason => (.malformedState reason, s)
  | none => (.ok, restored tag.length bytes s)

/-- `loadState(bytes)` with the CORE's own tag. -/
def loadState (bytes : List Byte) (s : State) : RestoreResult × State :=
  loadStateWith Config.headerTag bytes s

end Sys2Proof.Machine
end

