-- ==== Sys2Proof/Machine/Loader.lean ====
section
/-! DEFINITION. Program load: the text grammar, placement and errors (70_reset_and_hazards.md R232,
R233, decision D24). A text is a list of characters (log 19). -/

namespace Sys2Proof.Machine

/-- `SP ::= " " | "\t"`. -/
def isSp (c : Char) : Bool := c == ' ' || c == '\t'

/-- The text split at LF; a CR directly before an LF is dropped. -/
def splitLines : List Char → List (List Char)
  | [] => [[]]
  | '\r' :: '\n' :: rest => [] :: splitLines rest
  | '\n' :: rest => [] :: splitLines rest
  | c :: rest =>
    match splitLines rest with
    | [] => [[c]]
    | l :: ls => (c :: l) :: ls

/-- A line with its leading and trailing spaces and tabs left out. -/
def trimLine (l : List Char) : List Char := ((l.dropWhile isSp).reverse.dropWhile isSp).reverse

/-- A line that holds only spaces and tabs, or nothing. -/
def blankLine (l : List Char) : Bool := l.all isSp

/-- `HEX ::= [0-9a-fA-F]`, with its value. -/
def hexDigit? (c : Char) : Option Nat :=
  if '0' ≤ c ∧ c ≤ '9' then some (c.toNat - '0'.toNat)
  else if 'a' ≤ c ∧ c ≤ 'f' then some (c.toNat - 'a'.toNat + 10)
  else if 'A' ≤ c ∧ c ≤ 'F' then some (c.toNat - 'A'.toNat + 10)
  else none

/-- The value of a run of hex digits, most significant first. -/
def hexValue (ds : List Char) : Nat := ds.foldl (fun n c => 16 * n + (hexDigit? c).getD 0) 0

/-- `group ::= [01]{8}`, most significant bit first. -/
def parseGroup (t : List Char) : Option Byte :=
  if t.length = 8 ∧ t.all (fun c => c == '0' || c == '1') then
    some (t.foldl (fun n c => 2 * n + (if c == '1' then 1 else 0)) 0 : Nat)
  else none

/-- The runs of non-SP characters of a line body. -/
def splitGroups : List Char → List (List Char)
  | [] => [[]]
  | c :: rest =>
    if isSp c then [] :: splitGroups rest
    else
      match splitGroups rest with
      | [] => [[c]]
      | t :: ts => (c :: t) :: ts

/-- Every run as a group. -/
def parseGroups : List (List Char) → Option (List Byte)
  | [] => some []
  | t :: ts =>
    match parseGroup t, parseGroups ts with
    | some b, some bs => some (b :: bs)
    | _, _ => none

/-- The line body after the colon: `SP* group (SP+ group)*`, at least one group. -/
def parseBody (body : List Char) : Option (List Byte) :=
  match (splitGroups body).filter (fun t => !t.isEmpty) with
  | [] => none
  | ts => parseGroups ts

/-- The address and the rest of a trimmed line: `("0x" | "0X") HEX+ ":"`, 1 to 8 digits. -/
def parseAddress : List Char → Option (Nat × List Char)
  | '0' :: x :: rest =>
    if x = 'x' ∨ x = 'X' then
      let digits := rest.takeWhile (fun c => (hexDigit? c).isSome)
      if 1 ≤ digits.length ∧ digits.length ≤ 8 then
        match rest.dropWhile (fun c => (hexDigit? c).isSome) with
        | ':' :: body => some (hexValue digits, body)
        | _ => none
      else none
    else none
  | _ => none

/-- One line of R232's grammar: its address and its bytes. -/
def parseLine (l : List Char) : Option (Nat × List Byte) :=
  match parseAddress (trimLine l) with
  | some (addr, body) =>
    match parseBody body with
    | some bs => some (addr, bs)
    | none => none
  | none => none

/-- The result of a program load (R232, R233). -/
inductive LoadResult where
  /-- `LOADED(n)`: `n` non-blank lines applied. -/
  | loaded (n : Nat)
  /-- `MALFORMED_PROGRAM_TEXT(line)`. -/
  | malformedProgramText (line : Nat)
  /-- `MEMORY_OUT_OF_BOUNDS(LOADER, a, line)`: the first byte address not below `MEM_SIZE`. -/
  | memoryOutOfBounds (addr line : Nat)
deriving DecidableEq, Repr

/-- The codes of 60_exceptions.md R201; `LOADED` has none. -/
def LoadResult.code : LoadResult → Option Nat
  | .loaded _ => none
  | .malformedProgramText _ => some 5
  | .memoryOutOfBounds _ _ => some 3

/-- The kind `LOADER` of a MemoryOutOfBounds (R201). -/
def loaderKindCode : Nat := 3

/-- Lines in order from line number `line`, `n` applied so far. Each line is checked before any of its
bytes is written; the first that fails stops the load and leaves the earlier ones applied (R233). -/
def loadLines : Nat → Nat → List (List Char) → State → LoadResult × State
  | _, n, [], s => (.loaded n, s)
  | line, n, l :: ls, s =>
    if blankLine l then loadLines (line + 1) n ls s
    else
      match parseLine l with
      | none => (.malformedProgramText line, s)
      | some (addr, bs) =>
        if addr + bs.length > s.memSize then (.memoryOutOfBounds (max addr s.memSize) line, s)
        else loadLines (line + 1) (n + 1) ls (s.setMem (Memory.writeBytes s.mem addr bs))

/-- Program load: it sets `mstep <- 0` (40_execution_cycle.md R126; also when it fails, log 18). -/
def loadProgram (text : List Char) (s : State) : LoadResult × State :=
  loadLines 1 0 (splitLines text) s.idle

/-! ### Writing a line -/

/-- A hex digit of a value below 16. -/
def hexChar (n : Nat) : Char := if n < 10 then Char.ofNat (48 + n) else Char.ofNat (87 + n)

/-- An address as 8 hex digits. -/
def hexChars (a : Word) : List Char :=
  (List.range 8).map (fun k => hexChar (a.toNat / 16 ^ (7 - k) % 16))

/-- A byte as a group. -/
def groupChars (b : Byte) : List Char :=
  (List.range 8).map (fun k => if b.getLsbD (7 - k) then '1' else '0')

/-- A line of R232's grammar that places `bytes` from `addr`. -/
def programLine (addr : Word) (bytes : List Byte) : List Char :=
  ['0', 'x'] ++ hexChars addr ++ [':'] ++ bytes.flatMap (fun b => ' ' :: groupChars b)

/-- Lines in order, with an LF between two. -/
def programText : List (Word × List Byte) → List Char
  | [] => []
  | [l] => programLine l.1 l.2
  | l :: q :: ls => programLine l.1 l.2 ++ '\n' :: programText (q :: ls)

/-- The memory after the lines are placed in order. -/
def placeLines (m : List Host.Cell) (lines : List (Word × List Byte)) : List Host.Cell :=
  lines.foldl (fun n l => Memory.writeBytes n (uint l.1) l.2) m

end Sys2Proof.Machine
end

