-- ==== Sys2Proof/Safety.lean ====
section
/-! DEFINITION. What claims are stated in: which parts of the state agree, what an instruction may
change, the invariants of the machine, and what a safe step is. -/

namespace Sys2Proof.Machine

/-! ### Agreement of states -/

/-- The architectural state agrees (40_execution_cycle.md R124): `x[]`, `pc`, `hi`, `lo`, `M`, `MEM_SIZE`. -/
def SameArch (s t : State) : Prop :=
  t.x = s.x ∧ t.pc = s.pc ∧ t.hi = s.hi ∧ t.lo = s.lo ∧ t.mem = s.mem ∧ t.memSize = s.memSize

/-- The hidden state agrees (10_state.md R31 to R33), and the model's draw counter. -/
def SameHidden (s t : State) : Prop :=
  t.mstep = s.mstep ∧ t.ir = s.ir ∧ t.kind = s.kind ∧ t.alu = s.alu ∧ t.draws = s.draws

/-- The architectural state of `s` with the hidden state of `h`. -/
def State.withHiddenOf (s h : State) : State :=
  { s with mstep := h.mstep, ir := h.ir, kind := h.kind, alu := h.alu, draws := h.draws }

/-- An outcome with its next state changed by `g`. -/
def mapNext (g : State → State) : Host.Outcome State Fault Refusal → Host.Outcome State Fault Refusal
  | .next t => .next (g t)
  | .fault f => .fault f
  | .refused r => .refused r

/-- Every general register but those of `ds` reads as before. -/
def SameRegsBut (ds : List Reg) (s t : State) : Prop := ∀ r, r ∉ ds → t.readReg r = s.readReg r

/-- Every byte of memory reads as before, and `MEM_SIZE` is the same. -/
def SameMemory (s t : State) : Prop := (∀ a, t.readByte a = s.readByte a) ∧ t.memSize = s.memSize

/-- Every byte outside the `n` bytes from `a` reads as before, and `MEM_SIZE` is the same. -/
def SameMemoryBut (a n : Nat) (s t : State) : Prop :=
  (∀ b, (b < a ∨ a + n ≤ b) → t.readByte b = s.readByte b) ∧ t.memSize = s.memSize

/-! ### Frames: `pc` may change, and only what is named -/

/-- Only the general registers of `ds` and `pc` may differ. -/
def ChangesOnlyRegs (ds : List Reg) (s t : State) : Prop :=
  SameRegsBut ds s t ∧ t.hi = s.hi ∧ t.lo = s.lo ∧ SameMemory s t ∧ SameHidden s t

/-- Only `hi`, `lo` and `pc` may differ. -/
def ChangesOnlyHiLo (s t : State) : Prop :=
  SameRegsBut [] s t ∧ SameMemory s t ∧ SameHidden s t

/-- Only the `n` bytes of memory from `a` and `pc` may differ. -/
def ChangesOnlyMemory (a n : Nat) (s t : State) : Prop :=
  SameRegsBut [] s t ∧ t.hi = s.hi ∧ t.lo = s.lo ∧ SameMemoryBut a n s t ∧ SameHidden s t

/-- The general register an instruction writes (10_state.md R25). -/
def destination : Instr → Option Reg
  | .add _ _ rd | .sub _ _ rd | .and _ _ rd | .or _ _ rd | .xor _ _ rd | .slt _ _ rd => some rd
  | .not _ rd => some rd
  | .addi _ rt _ | .slti _ rt _ | .andi _ rt _ | .ori _ rt _ | .lw _ rt _ => some rt
  | .jal _ => some Params.linkIndex
  | .mul _ _ | .sw _ _ _ | .beq _ _ _ | .bne _ _ _ | .blez _ _ | .bgtz _ _ | .j _ | .terminator => none

/-! ### Invariants -/

/-- Memory in canonical form and inside `[0, MEM_SIZE)`, and `MEM_SIZE` in range (20_memory.md R50, 00_scope.md
R6). -/
def State.MemoryOk (s : State) : Prop :=
  Memory.wf s.mem ∧ (∀ c ∈ s.mem, c.1 < s.memSize) ∧
    Params.memSizeMin ≤ s.memSize ∧ s.memSize ≤ Params.memSizeMax

/-- While an instruction is in flight, `IR = FetchRead(pc)`, `KIND` is its decoding, and the counter is
below `MICROSTEPS(KIND)` (10_state.md R31, R32). -/
def State.InFlightOk (s : State) : Prop :=
  s.mstep = 0 ∨
    (s.fetchRead s.pc = .ok s.ir ∧ decode s.ir = .ok s.kind ∧ s.kind ≠ .terminator ∧
      s.mstep < Params.microsteps s.kind)

/-- `pc` is a multiple of 4 (10_state.md R27). -/
def State.PcAligned (s : State) : Prop := uint s.pc % 4 = 0

/-- `A` and `B` hold the operands sent so far, and `RES` the result once retrieved (after microstep
`k`). -/
def twoOperandsSent (a b r : Word) (k n : Nat) (l : AluLatches) : Prop :=
  (1 ≤ n → l.a = a) ∧ (2 ≤ n → l.b = b) ∧ (k < n → l.res = r)

/-- What the ALU latches hold after the first `n` microsteps of `i`: what the commit will write or
decide on (10_state.md R33; the microsteps are the model's, log 13). -/
def latchesAfter (i : Instr) (n : Nat) (s : State) : Prop :=
  match i with
  | .add rs rt _ => twoOperandsSent (s.readReg rs) (s.readReg rt) (s.readReg rs + s.readReg rt) 3 n s.alu
  | .sub rs rt _ => twoOperandsSent (s.readReg rs) (s.readReg rt) (s.readReg rs - s.readReg rt) 3 n s.alu
  | .and rs rt _ => twoOperandsSent (s.readReg rs) (s.readReg rt) (s.readReg rs &&& s.readReg rt) 3 n s.alu
  | .or rs rt _ => twoOperandsSent (s.readReg rs) (s.readReg rt) (s.readReg rs ||| s.readReg rt) 3 n s.alu
  | .xor rs rt _ => twoOperandsSent (s.readReg rs) (s.readReg rt) (s.readReg rs ^^^ s.readReg rt) 3 n s.alu
  | .slt rs rt _ =>
    twoOperandsSent (s.readReg rs) (s.readReg rt) (aluSlt (s.readReg rs) (s.readReg rt)) 3 n s.alu
  | .addi rs _ v => twoOperandsSent (s.readReg rs) (simm v) (s.readReg rs + simm v) 3 n s.alu
  | .andi rs _ v => twoOperandsSent (s.readReg rs) (zimm v) (s.readReg rs &&& zimm v) 3 n s.alu
  | .ori rs _ v => twoOperandsSent (s.readReg rs) (zimm v) (s.readReg rs ||| zimm v) 3 n s.alu
  | .slti rs _ v => twoOperandsSent (s.readReg rs) (simm v) (aluSlt (s.readReg rs) (simm v)) 2 n s.alu
  | .mul rs rt =>
    (1 ≤ n → s.alu.a = s.readReg rs) ∧ (2 ≤ n → s.alu.b = s.readReg rt) ∧
      (4 < n → s.alu.phi = aluMulHi (s.readReg rs) (s.readReg rt)) ∧
      (5 < n → s.alu.plo = aluMulLo (s.readReg rs) (s.readReg rt))
  | .not rs _ => (1 ≤ n → s.alu.a = s.readReg rs) ∧ (1 < n → s.alu.res = ~~~s.readReg rs)
  | .lw rs _ v | .sw rs _ v => 0 < n → s.alu.res = s.effectiveAddress rs v
  | .beq rs rt v =>
    (1 ≤ n → s.alu.a = s.readReg rs) ∧ (2 ≤ n → s.alu.b = s.readReg rt) ∧
      (3 < n → s.alu.cond = condEq (s.readReg rs) (s.readReg rt)) ∧
      (4 < n → s.alu.res = aluBranchTarget s.pc v)
  | .bne rs rt v =>
    (1 ≤ n → s.alu.a = s.readReg rs) ∧ (2 ≤ n → s.alu.b = s.readReg rt) ∧
      (3 < n → s.alu.cond = condNe (s.readReg rs) (s.readReg rt)) ∧
      (4 < n → s.alu.res = aluBranchTarget s.pc v)
  | .blez rs v =>
    (1 ≤ n → s.alu.a = s.readReg rs) ∧ (2 < n → s.alu.cond = condLez (s.readReg rs)) ∧
      (3 < n → s.alu.res = aluBranchTarget s.pc v)
  | .bgtz rs v =>
    (1 ≤ n → s.alu.a = s.readReg rs) ∧ (2 < n → s.alu.cond = condGtz (s.readReg rs)) ∧
      (3 < n → s.alu.res = aluBranchTarget s.pc v)
  | .jal _ => 0 < n → s.alu.res = s.pc + 4#32
  | .j _ | .terminator => True

/-- The latches of the instruction in flight follow its microsteps. -/
def State.LatchesOk (s : State) : Prop := s.mstep = 0 ∨ latchesAfter s.kind s.mstep s

/-- Every whole-machine invariant of the model that `runMicrostep` keeps. -/
def State.Inv (s : State) : Prop := s.MemoryOk ∧ s.InFlightOk ∧ s.LatchesOk

/-! ### Resting and safe states -/

/-- The resting state after a normal end (60_exceptions.md R219, 70_reset_and_hazards.md R245): no
instruction is in flight and the word at `pc` is 0. -/
def State.Resting (s : State) : Prop := s.mstep = 0 ∧ s.fetchRead s.pc = .ok 0#32

/-- A safe step: the call returns no error. -/
def SafeStep (s : State) : Prop := ∃ t, step s = .next t

/-- The state after `k` `runMicrostep` calls. -/
def afterMicrosteps : Nat → State → State
  | 0, s => s
  | k + 1, s => afterMicrosteps k (runMicrostep s).2

end Sys2Proof.Machine
end

