-- ==== Sys2Proof/Certificates/Slice0/Obligations.lean ====
section
/-! DEFINITION. The statements for the provers. Each docstring names the rule of spec/ it formalises, and
the decision (D), general-knowledge item (G) or log entry that a clause rests on. -/

open Sys2Proof Sys2Proof.Machine

/-! ### Encoding -/

/-- R82, R83, R84, R86, R87, R96, R97: every well-formed instruction decodes back from its word, and from
its bytes whatever follows them. No operand bit is dropped. (Zero in the ignored fields is R97's; the
position of imm26 is G2.) -/
def Obligations.DecodeOfEncodeIsIdentity : Prop :=
  ∀ (i : Instr) (rest : List Byte),
    i.wellFormed = true ∧ decode (encode i) = .ok i ∧ decodeBytes (encodeBytes i ++ rest) = .ok (i, rest)

/-- R92 (decision D11), R97: a word that decodes encodes back to itself but for the bits its instruction
ignores, which come back 0; and any word that agrees with it outside those bits decodes alike. -/
def Obligations.EncodeOfDecodeClearsOnlyIgnoredBits : Prop :=
  ∀ (w : Word) (i : Instr), decode w = .ok i →
    encode i = w &&& ~~~ignoredBits i ∧
    ∀ v : Word, v &&& ~~~ignoredBits i = w &&& ~~~ignoredBits i → decode v = .ok i

/-- R85, R86, R87, R94 and opcode_table.json: the decoder gives a word the one row of the table that covers
it, and no instruction where no row does; no word is covered by two rows. -/
def Obligations.DecodeFollowsTheOpcodeTable : Prop :=
  (∀ w : Word,
    (match decode w with
      | .ok i => some i.mnemonic
      | .error _ => none) = (opcodeTable.find? (fun r => r.covers w)).map (fun r => r.mnemonic)) ∧
  ∀ (w : Word) (r q : TableRow), r ∈ opcodeTable → q ∈ opcodeTable → r.covers w = true → q.covers w = true →
    r = q

/-- R93: which words are UNKNOWN, how many opcode and funct values that leaves, and that such a word raises
UnknownOpcode with the word. Every other word decodes to an instruction or the terminator. -/
def Obligations.UnknownWordsAreTheUnlistedOnes : Prop :=
  (∀ w : Word,
    (decode w = .error (.unknownOpcode w) ↔
      w ≠ 0#32 ∧ ((opcodeField w).toNat ∉ [0, 1, 2, 3, 4, 5, 6, 8, 10, 12, 13, 35, 43] ∨
        ((opcodeField w).toNat = 0 ∧ (functField w).toNat ∉ [0x20, 0x22, 0x18, 0x24, 0x25, 0x26, 0x27, 0x2A]))) ∧
    ((∃ i, decode w = .ok i) ∨ decode w = .error (.unknownOpcode w))) ∧
  ((List.range 64).filter (fun n => n ∉ [0, 1, 2, 3, 4, 5, 6, 8, 10, 12, 13, 35, 43])).length = 51 ∧
  ((List.range 64).filter (fun n => n ∉ [0x20, 0x22, 0x18, 0x24, 0x25, 0x26, 0x27, 0x2A])).length = 56 ∧
  ∀ (s : State) (w : Word), s.mstep = 0 → s.fetchRead s.pc = .ok w → decode w = .error (.unknownOpcode w) →
    (runMicrostep s).1 = .error (.unknownOpcode w)

/-- 95_test_vectors.md (Decode), R85 to R96: words written out in the spec decode as it says. -/
def Obligations.SpecWordsDecode : Prop :=
  decode 0x00000000#32 = .ok .terminator ∧
  decode 0x010957E0#32 = .ok (.add 8 9 10) ∧
  decode 0x01095018#32 = .ok (.mul 8 9) ∧
  decode 0x01095027#32 = .ok (.not 8 10) ∧
  decode 0x19050002#32 = .ok (.blez 8 2#16) ∧
  decode 0x05000002#32 = .ok (.bgtz 8 2#16) ∧
  decode 0x8FAAFFFC#32 = .ok (.lw 29 10 0xFFFC#16) ∧
  decode 0x0BFFFFFF#32 = .ok (.j 0x3FFFFFF#26) ∧
  decode 0x1C000000#32 = .error (.unknownOpcode 0x1C000000#32) ∧
  decode 0x000007C0#32 = .error (.unknownOpcode 0x000007C0#32)

/-- R9, R10 and R81: the field primitives are the low and the high bits of the pattern, and the decoder's
fields are the bits the spec names. -/
def Obligations.FieldsAreTheNamedBits : Prop :=
  (∀ (data : Word) (n : Nat), 1 ≤ n → n ≤ 31 → uint (grabRight data n) = uint data % 2 ^ n) ∧
  (∀ (data : Word) (n : Nat), 1 ≤ n → n ≤ 32 → uint (grabLeft data n) = uint data / 2 ^ (32 - n)) ∧
  ∀ w : Word,
    opcodeField w = w.extractLsb' 26 6 ∧ (rsField w).val = (w.extractLsb' 21 5).toNat ∧
    (rtField w).val = (w.extractLsb' 16 5).toNat ∧ (rdField w).val = (w.extractLsb' 11 5).toNat ∧
    functField w = w.extractLsb' 0 6 ∧ imm16Field w = w.extractLsb' 0 16 ∧ imm26Field w = w.extractLsb' 0 26

/-- R97, R24 (general knowledge G1, G3; the structured form is log 24): the assembler form of an
instruction assembles back to it; a label is reached by the offset counted from the branch's own address;
a jump's field reaches a word-aligned label of the jump's region. -/
def Obligations.AssemblerFormsAndLabels : Prop :=
  (∀ (i : Instr) (l : AsmLine), disassemble i = some l → assemble l = some i) ∧
  (∀ (pc label : Word) (off : Imm16), labelOffset? pc label = some off → aluBranchTarget pc off = label) ∧
  (∀ (pc : Word) (off : Imm16), labelOffset? pc (aluBranchTarget pc off) = some off) ∧
  (∀ (pc label : Word), uint label % 4 = 0 → uint label / 2 ^ 28 = uint pc / 2 ^ 28 →
    aluJumpTarget pc (labelTarget label) = label) ∧
  ∀ r : Reg, (regNames[r.val]?).bind regOfName? = some r

/-! ### Registers and memory -/

/-- R22, R23 (decision D1; log 5): under either setting of R0_HARDWIRED a read gives what was last written,
but that a hardwired register 0 reads 0 and discards writes; in the spec's setting register 0 is written
and read like any other. -/
def Obligations.RegisterReadsWhatWasWritten : Prop :=
  (∀ (hw : Bool) (s : State) (i j : Reg) (v : Word),
    (s.writeRegWith hw i v).readRegWith hw j =
      if hw = true ∧ j = 0 then 0#32 else if j = i then v else s.readRegWith hw j) ∧
  (∀ (s : State) (v : Word), s.writeRegWith true 0 v = s) ∧
  ∀ (s : State) (i j : Reg) (v : Word), (s.writeReg i v).readReg j = if j = i then v else s.readReg j

/-- R51 (decision D5), R52, R54 (D7), R57 (D6): a read succeeds exactly when all four bytes lie below
MEM_SIZE, whatever the alignment, and gives them big-endian; the signed reading of the address gives the
same verdict while MEM_SIZE is in range (D4). -/
def Obligations.ReadsAreBoundsCheckedAndBigEndian : Prop :=
  ∀ (s : State) (kind : AccessKind) (addr : Word),
    (uint addr + 4 ≤ s.memSize →
      ∃ v, s.readAccess kind addr = .ok v ∧
        uint v = (s.readByte (uint addr)).toNat * 2 ^ 24 + (s.readByte (uint addr + 1)).toNat * 2 ^ 16 +
          (s.readByte (uint addr + 2)).toNat * 2 ^ 8 + (s.readByte (uint addr + 3)).toNat) ∧
    (¬ uint addr + 4 ≤ s.memSize → s.readAccess kind addr = .error (.memoryOutOfBounds kind addr)) ∧
    (s.memSize ≤ 2 ^ 31 - 1 →
      (uint addr + 4 ≤ s.memSize ↔ 0 ≤ sint addr ∧ sint addr + 4 ≤ (s.memSize : Int)))

/-- R173 (from R171, R172, R63): a load after a store to the same effective address gives the stored word,
aligned or not; a load `k` bytes further (`k` 1 to 3) takes its top `4 - k` bytes from the stored word's
low ones. -/
def Obligations.LoadAfterStore : Prop :=
  ∀ (s t : State) (rs rt rd : Reg) (imm16 : Imm16), s.MemoryOk → exec (.sw rs rt imm16) s = .next t →
    (∃ u, exec (.lw rs rd imm16) t = .next u ∧ u.readReg rd = s.readReg rt) ∧
    ∀ k : Nat, 1 ≤ k → k ≤ 3 → uint (s.effectiveAddress rs imm16) + k + 4 ≤ s.memSize →
      ∃ v, t.memRead (s.effectiveAddress rs imm16 + BitVec.ofNat 32 k) = .ok v ∧
        uint v / 2 ^ (8 * k) = uint (s.readReg rt) % 2 ^ (32 - 8 * k)

/-! ### Register-register instructions -/

/-- R141 (`shamt` ignored: R92, decision D11; `rd = 0` is written: D1): the word, the result, the frame. -/
def Obligations.AddWritesTheSum : Prop :=
  ∀ (s : State) (rs rt rd : Reg) (shamt : BitVec 5),
    decode (encodeR rs rt rd shamt 0b100000#6) = .ok (.add rs rt rd) ∧
    ∃ t, exec (.add rs rt rd) s = .next t ∧
      uint (t.readReg rd) = (uint (s.readReg rs) + uint (s.readReg rt)) % 2 ^ 32 ∧
      t.pc = s.pc + 4#32 ∧ ChangesOnlyRegs [rd] s t

/-- R142 (minuend `rs`: general knowledge G5; D11, D1 as for `add`). -/
def Obligations.SubWritesTheDifference : Prop :=
  ∀ (s : State) (rs rt rd : Reg) (shamt : BitVec 5),
    decode (encodeR rs rt rd shamt 0b100010#6) = .ok (.sub rs rt rd) ∧
    ∃ t, exec (.sub rs rt rd) s = .next t ∧
      t.readReg rd = BitVec.ofInt 32 (sint (s.readReg rs) - sint (s.readReg rt)) ∧
      t.pc = s.pc + 4#32 ∧ ChangesOnlyRegs [rd] s t

/-- R143, R149 (`rd` and `shamt` ignored: D11): `hi` and `lo` are the halves of the 64-bit pattern of the
exact signed product, and together they are that product; no general register is written. -/
def Obligations.MulWritesTheSignedProduct : Prop :=
  ∀ (s : State) (rs rt rd : Reg) (shamt : BitVec 5),
    decode (encodeR rs rt rd shamt 0b011000#6) = .ok (.mul rs rt) ∧
    ∃ t, exec (.mul rs rt) s = .next t ∧
      t.hi = (BitVec.ofInt 64 (sint (s.readReg rs) * sint (s.readReg rt))).extractLsb' 32 32 ∧
      t.lo = (BitVec.ofInt 64 (sint (s.readReg rs) * sint (s.readReg rt))).extractLsb' 0 32 ∧
      (uint t.lo : Int) + 2 ^ 32 * sint t.hi = sint (s.readReg rs) * sint (s.readReg rt) ∧
      t.pc = s.pc + 4#32 ∧ ChangesOnlyHiLo s t

/-- R144, R145, R146 (`shamt` ignored: D11): bit by bit. -/
def Obligations.AndOrXorWriteBitByBit : Prop :=
  ∀ (s : State) (rs rt rd : Reg) (shamt : BitVec 5),
    decode (encodeR rs rt rd shamt 0b100100#6) = .ok (.and rs rt rd) ∧
    decode (encodeR rs rt rd shamt 0b100101#6) = .ok (.or rs rt rd) ∧
    decode (encodeR rs rt rd shamt 0b100110#6) = .ok (.xor rs rt rd) ∧
    (∃ t, exec (.and rs rt rd) s = .next t ∧
      (∀ k < 32, (t.readReg rd).getLsbD k = ((s.readReg rs).getLsbD k && (s.readReg rt).getLsbD k)) ∧
      t.pc = s.pc + 4#32 ∧ ChangesOnlyRegs [rd] s t) ∧
    (∃ t, exec (.or rs rt rd) s = .next t ∧
      (∀ k < 32, (t.readReg rd).getLsbD k = ((s.readReg rs).getLsbD k || (s.readReg rt).getLsbD k)) ∧
      t.pc = s.pc + 4#32 ∧ ChangesOnlyRegs [rd] s t) ∧
    (∃ t, exec (.xor rs rt rd) s = .next t ∧
      (∀ k < 32, (t.readReg rd).getLsbD k = ((s.readReg rs).getLsbD k != (s.readReg rt).getLsbD k)) ∧
      t.pc = s.pc + 4#32 ∧ ChangesOnlyRegs [rd] s t)

/-- R147 (the operand is `rs`: decision D10; `rt` and `shamt` ignored: D11). -/
def Obligations.NotWritesTheComplement : Prop :=
  ∀ (s : State) (rs rt rd : Reg) (shamt : BitVec 5),
    decode (encodeR rs rt rd shamt 0b100111#6) = .ok (.not rs rd) ∧
    ∃ t, exec (.not rs rd) s = .next t ∧
      (∀ k < 32, (t.readReg rd).getLsbD k = !(s.readReg rs).getLsbD k) ∧
      t.pc = s.pc + 4#32 ∧ ChangesOnlyRegs [rd] s t

/-- R148 (`shamt` ignored: D11). -/
def Obligations.SltComparesSigned : Prop :=
  ∀ (s : State) (rs rt rd : Reg) (shamt : BitVec 5),
    decode (encodeR rs rt rd shamt 0b101010#6) = .ok (.slt rs rt rd) ∧
    ∃ t, exec (.slt rs rt rd) s = .next t ∧
      uint (t.readReg rd) = (if sint (s.readReg rs) < sint (s.readReg rt) then 1 else 0) ∧
      t.pc = s.pc + 4#32 ∧ ChangesOnlyRegs [rd] s t

/-! ### Register-immediate instructions -/

/-- R160: the word, the sum with the sign-extended immediate, no trap, the frame (`rt = 0` is written:
R160's corner case under R0_HARDWIRED = false, decision D1, log 5). -/
def Obligations.AddiWritesTheSum : Prop :=
  ∀ (s : State) (rs rt : Reg) (imm16 : Imm16),
    decode (encodeI 0b001000#6 rs rt imm16) = .ok (.addi rs rt imm16) ∧
    ∃ t, exec (.addi rs rt imm16) s = .next t ∧
      t.readReg rt = BitVec.ofInt 32 (sint (s.readReg rs) + imm16.toInt) ∧
      t.pc = s.pc + 4#32 ∧ ChangesOnlyRegs [rt] s t

/-- R161: the word, the signed comparison with the sign-extended immediate, the frame (`rt = 0` is written:
decision D1). -/
def Obligations.SltiComparesSigned : Prop :=
  ∀ (s : State) (rs rt : Reg) (imm16 : Imm16),
    decode (encodeI 0b001010#6 rs rt imm16) = .ok (.slti rs rt imm16) ∧
    ∃ t, exec (.slti rs rt imm16) s = .next t ∧
      uint (t.readReg rt) = (if sint (s.readReg rs) < imm16.toInt then 1 else 0) ∧
      t.pc = s.pc + 4#32 ∧ ChangesOnlyRegs [rt] s t

/-- R162, R163 (zero extension: decision D9): `andi` keeps the immediate's bits and clears the rest, `ori`
sets them and keeps the rest. -/
def Obligations.AndiOriZeroExtend : Prop :=
  ∀ (s : State) (rs rt : Reg) (imm16 : Imm16),
    decode (encodeI 0b001100#6 rs rt imm16) = .ok (.andi rs rt imm16) ∧
    decode (encodeI 0b001101#6 rs rt imm16) = .ok (.ori rs rt imm16) ∧
    (∃ t, exec (.andi rs rt imm16) s = .next t ∧
      (∀ k < 32, (t.readReg rt).getLsbD k = (decide (k < 16) && ((s.readReg rs).getLsbD k && imm16.getLsbD k))) ∧
      t.pc = s.pc + 4#32 ∧ ChangesOnlyRegs [rt] s t) ∧
    (∃ t, exec (.ori rs rt imm16) s = .next t ∧
      (∀ k < 32, (t.readReg rt).getLsbD k = ((s.readReg rs).getLsbD k || (decide (k < 16) && imm16.getLsbD k))) ∧
      t.pc = s.pc + 4#32 ∧ ChangesOnlyRegs [rt] s t)

/-! ### Loads and stores -/

/-- R170 (base `rs`: decision D8), R171, R52 (bounds: D5): in bounds `lw` loads the four bytes at `EA`
big-endian and goes on; out of bounds it raises MemoryOutOfBounds(LOAD, EA). -/
def Obligations.LwLoadsOrFaults : Prop :=
  ∀ (s : State) (rs rt : Reg) (imm16 : Imm16),
    decode (encodeI 0b100011#6 rs rt imm16) = .ok (.lw rs rt imm16) ∧
    s.effectiveAddress rs imm16 = s.readReg rs + BitVec.ofInt 32 imm16.toInt ∧
    (uint (s.effectiveAddress rs imm16) + 4 ≤ s.memSize →
      ∃ t, exec (.lw rs rt imm16) s = .next t ∧
        uint (t.readReg rt) =
          (s.readByte (uint (s.effectiveAddress rs imm16))).toNat * 2 ^ 24 +
          (s.readByte (uint (s.effectiveAddress rs imm16) + 1)).toNat * 2 ^ 16 +
          (s.readByte (uint (s.effectiveAddress rs imm16) + 2)).toNat * 2 ^ 8 +
          (s.readByte (uint (s.effectiveAddress rs imm16) + 3)).toNat ∧
        t.pc = s.pc + 4#32 ∧ ChangesOnlyRegs [rt] s t) ∧
    (¬ uint (s.effectiveAddress rs imm16) + 4 ≤ s.memSize →
      exec (.lw rs rt imm16) s = .fault (.memoryOutOfBounds .load (s.effectiveAddress rs imm16)))

/-- R170 (D8), R172, R53 (bounds: D5): in a canonical memory (an invariant, see StepKeepsTheInvariant) and in
bounds, `sw` stores the word's four bytes at `EA` big-endian and nothing else; out of bounds it raises
MemoryOutOfBounds(STORE, EA). -/
def Obligations.SwStoresOrFaults : Prop :=
  ∀ (s : State) (rs rt : Reg) (imm16 : Imm16), Memory.wf s.mem →
    decode (encodeI 0b101011#6 rs rt imm16) = .ok (.sw rs rt imm16) ∧
    s.effectiveAddress rs imm16 = s.readReg rs + BitVec.ofInt 32 imm16.toInt ∧
    (uint (s.effectiveAddress rs imm16) + 4 ≤ s.memSize →
      ∃ t, exec (.sw rs rt imm16) s = .next t ∧
        (∀ k < 4, (t.readByte (uint (s.effectiveAddress rs imm16) + k)).toNat =
          uint (s.readReg rt) / 2 ^ (8 * (3 - k)) % 256) ∧
        t.pc = s.pc + 4#32 ∧ ChangesOnlyMemory (uint (s.effectiveAddress rs imm16)) 4 s t) ∧
    (¬ uint (s.effectiveAddress rs imm16) + 4 ≤ s.memSize →
      exec (.sw rs rt imm16) s = .fault (.memoryOutOfBounds .store (s.effectiveAddress rs imm16)))

/-! ### Control transfer -/

/-- R181 with R180: taken exactly when the registers are equal, to the branch's own address plus four times
the signed offset; else to `pc + 4`. -/
def Obligations.BeqBranchesOnEqual : Prop :=
  ∀ (s : State) (rs rt : Reg) (imm16 : Imm16),
    decode (encodeI 0b000100#6 rs rt imm16) = .ok (.beq rs rt imm16) ∧
    ∃ t, exec (.beq rs rt imm16) s = .next t ∧
      t.pc = (if s.readReg rs = s.readReg rt then s.pc + BitVec.ofInt 32 (4 * imm16.toInt) else s.pc + 4#32) ∧
      ChangesOnlyRegs [] s t

/-- R182 with R180: taken exactly when the registers differ. -/
def Obligations.BneBranchesOnUnequal : Prop :=
  ∀ (s : State) (rs rt : Reg) (imm16 : Imm16),
    decode (encodeI 0b000101#6 rs rt imm16) = .ok (.bne rs rt imm16) ∧
    ∃ t, exec (.bne rs rt imm16) s = .next t ∧
      t.pc = (if s.readReg rs = s.readReg rt then s.pc + 4#32 else s.pc + BitVec.ofInt 32 (4 * imm16.toInt)) ∧
      ChangesOnlyRegs [] s t

/-- R183, R184 with R180 (signed conditions: general knowledge G6; `rt` ignored: D11): `blez` is taken on a
signed value at most 0, `bgtz` on one above 0, so on one register they take opposite paths. -/
def Obligations.BlezBgtzBranchOnSign : Prop :=
  ∀ (s : State) (rs rt : Reg) (imm16 : Imm16),
    decode (encodeI 0b000110#6 rs rt imm16) = .ok (.blez rs imm16) ∧
    decode (encodeI 0b000001#6 rs rt imm16) = .ok (.bgtz rs imm16) ∧
    ∃ t u, exec (.blez rs imm16) s = .next t ∧ exec (.bgtz rs imm16) s = .next u ∧
      (sint (s.readReg rs) ≤ 0 → t.pc = s.pc + BitVec.ofInt 32 (4 * imm16.toInt) ∧ u.pc = s.pc + 4#32) ∧
      (0 < sint (s.readReg rs) → t.pc = s.pc + 4#32 ∧ u.pc = s.pc + BitVec.ofInt 32 (4 * imm16.toInt)) ∧
      ChangesOnlyRegs [] s t ∧ ChangesOnlyRegs [] s u

/-- R185, R91 (position of imm26: general knowledge G2): the jump stays in its own 256 MiB region, at four
times the field. -/
def Obligations.JJumpsWithinItsRegion : Prop :=
  ∀ (s : State) (imm26 : Imm26),
    decode (encodeJ 0b000010#6 imm26) = .ok (.j imm26) ∧
    ∃ t, exec (.j imm26) s = .next t ∧
      uint t.pc = uint s.pc / 2 ^ 28 * 2 ^ 28 + 4 * imm26.toNat ∧ ChangesOnlyRegs [] s t

/-- R186 (link register 31: decision D2; G2): the link is the old `pc + 4`, the target as for `j`. -/
def Obligations.JalLinksAndJumps : Prop :=
  ∀ (s : State) (imm26 : Imm26),
    decode (encodeJ 0b000011#6 imm26) = .ok (.jal imm26) ∧
    ∃ t, exec (.jal imm26) s = .next t ∧ t.readReg 31 = s.pc + 4#32 ∧
      uint t.pc = uint s.pc / 2 ^ 28 * 2 ^ 28 + 4 * imm26.toNat ∧ ChangesOnlyRegs [31] s t

/-- R94, R113 (not sticky: decision D28; that `step` is one runInstruction call and answers
a next state here is the model's choice, logs 1 and 2):
the zero word has no effect, the microstep returns EXHAUSTED with `pc` and changes nothing, and so does
every further call. -/
def Obligations.TerminatorChangesNothing : Prop :=
  decode 0#32 = .ok .terminator ∧
  (∀ s : State, exec .terminator s = .next s) ∧
  ∀ s : State, s.mstep = 0 → s.fetchRead s.pc = .ok 0#32 →
    runMicrostep s = (.exhausted s.pc, s) ∧ runInstruction s = (.exhausted s.pc, s) ∧ step s = .next s

/-! ### All instructions -/

/-- R25, R28, R61: an instruction writes at most the one general register the table of R25 gives it; only
`mul` writes `hi` or `lo`; only `sw` writes memory, and it the 4 bytes at its effective address alone; none
changes MEM_SIZE. -/
def Obligations.InstructionsWriteOnlyTheirOwnState : Prop :=
  ∀ (i : Instr) (s t : State), exec i s = .next t →
    (∀ r, t.readReg r ≠ s.readReg r → destination i = some r) ∧
    (t.hi ≠ s.hi ∨ t.lo ≠ s.lo → ∃ rs rt, i = .mul rs rt) ∧
    ((∃ a, t.readByte a ≠ s.readByte a) → ∃ rs rt imm16, i = .sw rs rt imm16) ∧
    (∀ rs rt imm16, i = .sw rs rt imm16 → SameMemoryBut (uint (s.effectiveAddress rs imm16)) 4 s t) ∧
    t.memSize = s.memSize ∧ SameHidden s t

/-- R28: no instruction reads `hi` or `lo`: with other values in them every instruction does the same, and
only `mul` replaces them. -/
def Obligations.NoInstructionReadsHiLo : Prop :=
  ∀ (i : Instr) (s : State) (h l : Word),
    exec i (s.setHiLo h l) =
      match i with
      | .mul _ _ => exec i s
      | _ => mapNext (fun t => t.setHiLo h l) (exec i s)

/-- R205, R208, R149: only `lw` and `sw` can raise an error at the terminal microstep, and only
MemoryOutOfBounds at their own effective address, out of bounds; every other instruction completes, and
none is refused. -/
def Obligations.OnlyLoadsAndStoresFault : Prop :=
  ∀ (i : Instr) (s : State),
    (∀ f, exec i s = .fault f → ∃ rs rt imm16,
      ¬ uint (s.effectiveAddress rs imm16) + 4 ≤ s.memSize ∧
      ((i = .lw rs rt imm16 ∧ f = .memoryOutOfBounds .load (s.effectiveAddress rs imm16)) ∨
        (i = .sw rs rt imm16 ∧ f = .memoryOutOfBounds .store (s.effectiveAddress rs imm16)))) ∧
    ((∀ rs rt imm16, i ≠ .lw rs rt imm16 ∧ i ≠ .sw rs rt imm16) → ∃ t, exec i s = .next t) ∧
    ∀ r, exec i s ≠ .refused r

/-- R189, R27, R26: a jump's target is a multiple of 4 from any `pc`; every other instruction keeps `pc`
modulo 4. -/
def Obligations.TargetsKeepAlignment : Prop :=
  ∀ (i : Instr) (s t : State), exec i s = .next t →
    (∀ imm26, i = .j imm26 ∨ i = .jal imm26 → uint t.pc % 4 = 0) ∧
    ((∀ imm26, i ≠ .j imm26 ∧ i ≠ .jal imm26) → uint t.pc % 4 = uint s.pc % 4)

/-! ### The step -/

/-- R112 to R117, R122 (that `step` is one runInstruction call, and what an error and EXHAUSTED are in it, is
the model's choice, logs 1 and 2): with no instruction in flight, when the word at `pc` decodes to an
instruction, the step is that instruction's effect, and around it only `mstep <- 0` and the latches' free
contents; for the terminator it is the effect alone. -/
def Obligations.StepRunsTheDecodedInstruction : Prop :=
  ∀ (s : State) (w : Word) (i : Instr), s.mstep = 0 → s.fetchRead s.pc = .ok w → decode w = .ok i →
    (i ≠ .terminator → step s = mapNext State.idle (exec i s)) ∧
    (i = .terminator → step s = exec i s) ∧
    ∀ t : State, SameArch t t.idle ∧ t.idle.mstep = 0

/-- R112: with `mstep = 0` the call reads FetchRead(pc); a read that fails returns MEMORY_OUT_OF_BOUNDS(FETCH,
pc) and changes no state, `mstep` included; after one that succeeds the call never returns that. -/
def Obligations.FetchOutOfBoundsChangesNothing : Prop :=
  ∀ s : State, s.mstep = 0 →
    (∀ f, s.fetchRead s.pc = .error f →
      f = .memoryOutOfBounds .fetch s.pc ∧ runMicrostep s = (.error (.memoryOutOfBounds .fetch s.pc), s)) ∧
    ∀ w, s.fetchRead s.pc = .ok w → ∀ a, (runMicrostep s).1 ≠ .error (.memoryOutOfBounds .fetch a)

/-- R112, R114, R127 as the host's step shows them (the fault outcome is the model's choice, log 1; the
bounds are D5): out of bounds at `pc`, and an unknown word at `pc`. -/
def Obligations.StepStopsOnFetchAndDecodeErrors : Prop :=
  ∀ s : State, s.mstep = 0 →
    (¬ uint s.pc + 4 ≤ s.memSize → step s = .fault (.memoryOutOfBounds .fetch s.pc)) ∧
    ∀ w e, uint s.pc + 4 ≤ s.memSize →
      wordOfBytes (s.readByte (uint s.pc)) (s.readByte (uint s.pc + 1)) (s.readByte (uint s.pc + 2))
        (s.readByte (uint s.pc + 3)) = w →
      decode w = .error e → step s = .fault (.unknownOpcode w)

/-- R114 (decision D15): an unknown word returns UNKNOWN_OPCODE with the word and changes no state. -/
def Obligations.UnknownOpcodeChangesNothing : Prop :=
  ∀ (s : State) (w : Word) (e : DecodeError), s.mstep = 0 → s.fetchRead s.pc = .ok w → decode w = .error e →
    runMicrostep s = (.error (.unknownOpcode w), s) ∧ runInstruction s = (.error (.unknownOpcode w), s)

/-- R116: an intermediate microstep counts, returns CONTINUE, and changes no register, no `pc`, no
`hi`/`lo` and no memory; that IR and KIND are kept is R32's latching (decision D18, log 9). -/
def Obligations.IntermediateMicrostepOnlyCounts : Prop :=
  ∀ s : State, 1 ≤ s.mstep → s.mstep < Params.microsteps s.kind - 1 →
    ∃ t, runMicrostep s = (.continued, t) ∧ t.mstep = s.mstep + 1 ∧ SameArch s t ∧
      t.ir = s.ir ∧ t.kind = s.kind

/-- R117 (decision D12): the call that starts at the last microstep commits the whole effect, or returns
its error with no write of it; either way no instruction is in flight after it. -/
def Obligations.TerminalMicrostepCommits : Prop :=
  ∀ s : State, 1 ≤ s.mstep → s.mstep = Params.microsteps s.kind - 1 →
    (∀ t, exec s.kind s = .next t →
      ∃ u, runMicrostep s = (.retired, u) ∧ SameArch t u ∧ u.mstep = 0) ∧
    (∀ f, exec s.kind s = .fault f →
      ∃ u, runMicrostep s = (.error f, u) ∧ SameArch s u ∧ u.mstep = 0)

/-- R115 to R117, R119 (counts the source leaves open: D13; latching: D18): the counts of R119's table, and an
instruction takes exactly MICROSTEPS(kind) calls: each but the last returns CONTINUE and leaves the
architectural state as it was, and the last commits the effect as read at the first. After it the latches
hold free contents (U8, log 11). -/
def Obligations.InstructionTakesItsMicrosteps : Prop :=
  (∀ rs rt rd : Reg, Params.microsteps (.add rs rt rd) = 6 ∧ Params.microsteps (.sub rs rt rd) = 6 ∧
    Params.microsteps (.and rs rt rd) = 6 ∧ Params.microsteps (.or rs rt rd) = 6 ∧
    Params.microsteps (.xor rs rt rd) = 6 ∧ Params.microsteps (.slt rs rt rd) = 6 ∧
    Params.microsteps (.mul rs rt) = 7 ∧ Params.microsteps (.not rs rd) = 4) ∧
  (∀ (rs rt : Reg) (v : Imm16), Params.microsteps (.addi rs rt v) = 6 ∧ Params.microsteps (.lw rs rt v) = 3 ∧
    Params.microsteps (.sw rs rt v) = 3 ∧ Params.microsteps (.slti rs rt v) = 5 ∧
    Params.microsteps (.andi rs rt v) = 6 ∧ Params.microsteps (.ori rs rt v) = 6 ∧
    Params.microsteps (.beq rs rt v) = 6 ∧ Params.microsteps (.bne rs rt v) = 6 ∧
    Params.microsteps (.blez rs v) = 5 ∧ Params.microsteps (.bgtz rs v) = 5) ∧
  (∀ t : Imm26, Params.microsteps (.j t) = 1 ∧ Params.microsteps (.jal t) = 2) ∧
  ∀ (s : State) (w : Word) (i : Instr), s.mstep = 0 → s.fetchRead s.pc = .ok w → decode w = .ok i →
    i ≠ .terminator →
    (∀ k, k + 1 < Params.microsteps i →
      (runMicrostep (afterMicrosteps k s)).1 = .continued ∧
      SameArch s (afterMicrosteps (k + 1) s) ∧ (afterMicrosteps (k + 1) s).mstep = k + 1 ∧
      (afterMicrosteps (k + 1) s).ir = w ∧ (afterMicrosteps (k + 1) s).kind = i) ∧
    runMicrostep (afterMicrosteps (Params.microsteps i - 1) s) =
      match exec i s with
      | .next t => (.retired, t.idle)
      | .fault f => (.error f, s.idle)
      | .refused r => (.refused r, s.idle)

/-- R124, R206, R55: only a call that returns RETIRED changes architectural state; an error leaves no
instruction in flight. -/
def Obligations.OnlyRetirementChangesArchitecture : Prop :=
  ∀ (s t : State) (r : StepResult), runMicrostep s = (r, t) →
    (r ≠ .retired → SameArch s t) ∧ ((∃ f, r = .error f) → t.mstep = 0) ∧ (r = .retired → t.mstep = 0)

/-- R122: runInstruction is the first result other than CONTINUE of successive runMicrostep calls, found
after at most 7 of them; it is RETIRED, EXHAUSTED or an error; called with an instruction in flight, it
completes that instruction. That the loop itself stops at 7 is log 15; in a state whose counter is at or past
the last microstep, which no run reaches, the call is terminal by log 16. -/
def Obligations.RunInstructionEndsWithinSevenCalls : Prop :=
  ∀ s : State,
    (∃ k, k < 7 ∧ runInstruction s = runMicrostep (afterMicrosteps k s) ∧
      ∀ j < k, (runMicrostep (afterMicrosteps j s)).1 = .continued) ∧
    ((runInstruction s).1 = .retired ∨ (∃ p, (runInstruction s).1 = .exhausted p) ∨
      ∃ f, (runInstruction s).1 = .error f) ∧
    (1 ≤ s.mstep → runInstruction s = terminalMicrostep s.kind s ∧ (runInstruction s).2.mstep = 0)

/-- R127, R211 (decisions D15, D31): a call that does not retire repeats with the same result, and the
architectural state stays. The premise is the model's in-flight invariant (see MicrostepKeepsTheInvariant). -/
def Obligations.StoppingResultsRepeat : Prop :=
  ∀ (s t : State) (r : StepResult), s.InFlightOk → runInstruction s = (r, t) → r ≠ .retired →
    SameArch s t ∧ t.mstep = 0 ∧ (runInstruction t).1 = r

/-- R123, R219, R245 (fuel is the model's bound, D32, log 15; that `step` is one runInstruction call and answers
EXHAUSTED with a next state is logs 1 and 2): a run that ends with EXHAUSTED ends in the
resting state, at the terminating word's address, and every further step leaves it there. -/
def Obligations.ExhaustedRunEndsAtRest : Prop :=
  ∀ (fuel : Nat) (s t : State) (p : Word), runToCompletion fuel s = (.ended (.exhausted p), t) →
    t.Resting ∧ p = t.pc ∧ step t = .next t

/-- R33, R32 and 93_implementation_defined.md U8 (log 11): what the latches hold while no instruction is in
flight reaches no architectural state and no result. -/
def Obligations.IdleLatchesAreUnobservable : Prop :=
  ∀ s h : State, s.mstep = 0 → h.mstep = 0 →
    (runInstruction (s.withHiddenOf h)).1 = (runInstruction s).1 ∧
    SameArch (runInstruction s).2 (runInstruction (s.withHiddenOf h)).2

/-! ### Invariants -/

/-- R31, R32, R33, R50, R61 (which latch is loaded when is the model's choice, log 13): every microstep keeps
memory canonical and inside MEM_SIZE, IR and KIND the word at `pc` and its decoding while an instruction is
in flight, the counter below MICROSTEPS(KIND), and the ALU latches the operands sent and results retrieved
so far. -/
def Obligations.MicrostepKeepsTheInvariant : Prop :=
  ∀ s : State, s.Inv → (runMicrostep s).2.Inv

/-- R31, R32, R33, R50, R61, R122: the same invariant over whole steps (its latch clauses are log 13), with no
instruction in flight after one. That the latter holds of every step is the model's choice: `step` is one
runInstruction call (log 1; R244's step is runMicrostep), and EXHAUSTED is answered with a next state (log 2). -/
def Obligations.StepKeepsTheInvariant : Prop :=
  ∀ s t : State, s.Inv → step s = .next t → t.Inv ∧ t.mstep = 0

/-- The constructed state meets the invariant for every memory size in range, and so does State.reset, whose
size is the model's choice (log 3). -/
def Obligations.ConstructionMeetsTheInvariant : Prop :=
  (∀ n, 4 ≤ n → n ≤ 2 ^ 31 - 1 → (State.construct n).Inv ∧ (State.construct n).PcAligned) ∧
  State.reset.Inv ∧ State.reset.PcAligned

/-- R27, R189: `pc` stays a multiple of 4 from any state where it is one. -/
def Obligations.StepKeepsPcAligned : Prop :=
  ∀ s t : State, s.PcAligned → step s = .next t → t.PcAligned

/-- R41, R230 (values of decision D3, range of D4, SP_INDEX of D2; the latches' values are the model's choice,
log 12, and are not stated): construction, and its refusal out of range. -/
def Obligations.ConstructionState : Prop :=
  ∀ n : Nat,
    (4 ≤ n ∧ n ≤ 2 ^ 31 - 1 → ∃ s, construct n = some s ∧
      uint (s.readReg 29) = n - 4 ∧ (∀ r, r ≠ 29 → s.readReg r = 0#32) ∧
      s.pc = 0#32 ∧ s.hi = 0#32 ∧ s.lo = 0#32 ∧ (∀ a, s.readByte a = 0#8) ∧ s.memSize = n ∧ s.mstep = 0) ∧
    (¬ (4 ≤ n ∧ n ≤ 2 ^ 31 - 1) → construct n = none)

/-! ### Laws over two instructions -/

/-- R149 (`sub` order: G5): `add` then `sub` of the same operand restores the value. -/
def Obligations.AddThenSubRestores : Prop :=
  ∀ (s : State) (rs rt rd : Reg), rd ≠ rt →
    ∃ t u, exec (.add rs rt rd) s = .next t ∧ exec (.sub rd rt rd) t = .next u ∧
      u.readReg rd = s.readReg rs

/-- R164: `addi` of `k` then of `-k` restores the value when `k` is not 0x8000, and for 0x8000 two further
additions, of 0x7FFF and 1, do. -/
def Obligations.AddiThenNegatedAddiRestores : Prop :=
  (∀ (s : State) (rs rt : Reg) (k : Imm16), k ≠ 0x8000#16 →
    ∃ t u, exec (.addi rs rt k) s = .next t ∧ exec (.addi rt rt (-k)) t = .next u ∧
      u.readReg rt = s.readReg rs) ∧
  ∀ (s : State) (rs rt : Reg),
    ∃ t u v, exec (.addi rs rt 0x8000#16) s = .next t ∧ exec (.addi rt rt 0x7FFF#16) t = .next u ∧
      exec (.addi rt rt 0x0001#16) u = .next v ∧ v.readReg rt = s.readReg rs

/-- R66, R243 (decision D22): a store over the next instruction's word is what the next fetch reads. -/
def Obligations.StoreIsSeenByTheNextFetch : Prop :=
  ∀ (s t : State) (rs rt : Reg) (imm16 : Imm16), s.MemoryOk → exec (.sw rs rt imm16) s = .next t →
    t.fetchRead (s.effectiveAddress rs imm16) = .ok (s.readReg rt) ∧
    (s.effectiveAddress rs imm16 = s.pc + 4#32 → t.fetchRead t.pc = .ok (s.readReg rt))

/-! ### Host operations -/

/-- R240, R126 (decisions D17, D27): setPC takes any value, discards the instruction in flight and changes
nothing else that a host or a program can see. -/
def Obligations.SetPcDiscardsTheInstruction : Prop :=
  ∀ (s : State) (v : Word),
    getPC (setPC v s) = v ∧ (setPC v s).mstep = 0 ∧ getRegisters (setPC v s) = getRegisters s ∧
    getMemory (setPC v s) = getMemory s ∧ SameArch (s.setPc v) (setPC v s)

/-- R232, R126 (decision D24; that a load that fails resets `mstep` too is the model's choice, log 18): a
program load changes memory bytes and `mstep` only, and keeps memory canonical and inside MEM_SIZE. -/
def Obligations.ProgramLoadTouchesOnlyMemory : Prop :=
  ∀ (text : List Char) (s t : State) (r : LoadResult), loadProgram text s = (r, t) →
    t.x = s.x ∧ t.pc = s.pc ∧ t.hi = s.hi ∧ t.lo = s.lo ∧ t.memSize = s.memSize ∧ t.mstep = 0 ∧
    (s.MemoryOk → t.MemoryOk)

/-- R232, R233 (decision D24): a line written out by the grammar, with any bytes, is placed byte by byte from
its address when it fits, and refused whole, with the first byte address not below MEM_SIZE, when it does
not. That a refused load resets `mstep` too is the model's choice (log 18), and `idle` gives the latches free
contents (log 11). -/
def Obligations.LoaderPlacesAWrittenLine : Prop :=
  ∀ (s : State) (addr : Word) (bytes : List Byte), bytes ≠ [] →
    (uint addr + bytes.length ≤ s.memSize →
      loadProgram (programLine addr bytes) s =
        (.loaded 1, s.idle.setMem (Memory.writeBytes s.mem (uint addr) bytes))) ∧
    (¬ uint addr + bytes.length ≤ s.memSize →
      loadProgram (programLine addr bytes) s = (.memoryOutOfBounds (max (uint addr) s.memSize) 1, s.idle))

/-- R233 (decision D24): loading stops at the first malformed line, reports its number, and leaves the lines
before it applied and the lines after it unread. -/
def Obligations.LoaderStopsAtAMalformedLine : Prop :=
  ∀ (line n m : Nat) (before after : List (List Char)) (bad : List Char) (s t : State),
    loadLines line n before s = (.loaded m, t) → blankLine bad = false → parseLine bad = none →
    loadLines line n (before ++ bad :: after) s = (.malformedProgramText (line + before.length), t)

/-- R237 (decision D25): the segments do not overlap, every non-zero byte lies in one of them, and each is as
short as that allows. -/
def Obligations.SegmentsHoldEveryNonZeroByte : Prop :=
  ∀ s : State, s.MemoryOk →
    s.textLen ≤ s.memSize / 2 ∧ s.stackLen ≤ s.memSize - s.memSize / 2 ∧
    (∀ a < s.memSize, s.readByte a ≠ 0#8 → a < s.textLen ∨ s.memSize - s.stackLen ≤ a) ∧
    (0 < s.textLen → s.readByte (s.textLen - 1) ≠ 0#8) ∧
    (0 < s.stackLen → s.readByte (s.memSize - s.stackLen) ≠ 0#8)

/-- R235, R239 (decisions D25, D26), for every header tag: the image has the length the layout gives, loading
it succeeds whatever the machine held, and reproduces `x[]`, `pc`, `hi`, `lo`, MEM_SIZE and every memory
byte, with no instruction in flight. -/
def Obligations.SaveThenLoadRestoresTheState : Prop :=
  ∀ (tag : List Byte) (s other : State), s.MemoryOk →
    (saveStateWith tag s).length = tag.length + 152 + s.textLen + s.stackLen ∧
    ∃ t, loadStateWith tag (saveStateWith tag s) other = (.ok, t) ∧ SameArch s t ∧ t.mstep = 0

/-- R236, R238 (decisions D25, D26; the latches' free contents after an accepted image are log 11), for every
header tag: the six checks in order, with the reason of the first that fails and nothing changed, `mstep`
included. An image that passes them is accepted whether or not saveState made it, TEXTLEN above MEMLEN / 2
included, and gives every field from its offset, its two segments in place, 0 in every other byte and no
instruction in flight. -/
def Obligations.LoadStateIsAllOrNothing : Prop :=
  (∀ (bytes : List Byte) (o : Nat), uint (be32 bytes o) =
    (bytes.getD o 0#8).toNat * 2 ^ 24 + (bytes.getD (o + 1) 0#8).toNat * 2 ^ 16 +
      (bytes.getD (o + 2) 0#8).toNat * 2 ^ 8 + (bytes.getD (o + 3) 0#8).toNat) ∧
  ∀ (tag bytes : List Byte) (s t : State) (r : RestoreResult) (T memLen textLen stackLen : Nat),
    loadStateWith tag bytes s = (r, t) → T = tag.length → memLen = uint (be32 bytes (T + 140)) →
    textLen = uint (be32 bytes (T + 144)) → stackLen = uint (be32 bytes (T + 148 + textLen)) →
    r = (if bytes.length < T + 148 then .malformedState .truncated
      else if bytes.take T ≠ tag then .malformedState .badTag
      else if memLen < 4 ∨ 2 ^ 31 - 1 < memLen then .malformedState .badMemLen
      else if bytes.length < T + 152 + textLen then .malformedState .truncated
      else if memLen < textLen + stackLen then .malformedState .segmentsExceedMemory
      else if bytes.length ≠ T + 152 + textLen + stackLen then .malformedState .lengthMismatch
      else .ok) ∧
    (r ≠ .ok → t = s) ∧
    (r = .ok →
      (∀ i : Reg, t.readReg i = be32 bytes (T + 4 * i.val)) ∧ t.pc = be32 bytes (T + 128) ∧
      t.hi = be32 bytes (T + 132) ∧ t.lo = be32 bytes (T + 136) ∧ t.memSize = memLen ∧ t.mstep = 0 ∧
      (∀ a < textLen, t.readByte a = bytes.getD (T + 148 + a) 0#8) ∧
      (∀ k < stackLen, t.readByte (memLen - stackLen + k) = bytes.getD (T + 152 + textLen + k) 0#8) ∧
      (∀ a, textLen ≤ a → a < memLen - stackLen ∨ memLen ≤ a → t.readByte a = 0#8) ∧ t.MemoryOk)

/-- R232, R233 (decision D24): lines written out by the grammar, with any bytes, are placed byte by byte in
order when each fits, and memory they do not name stays; of two lines that name a byte the later wins. A
line that does not fit is refused whole with the first byte address not below MEM_SIZE and its number, and
the earlier lines stay applied. That a refused load resets `mstep` too is the model's choice (log 18), and
`idle` gives the latches free contents (log 11). -/
def Obligations.LoaderPlacesWrittenLines : Prop :=
  ∀ (s : State) (lines : List (Word × List Byte)),
    (∀ l ∈ lines, l.2 ≠ [] ∧ uint l.1 + l.2.length ≤ s.memSize) →
    loadProgram (programText lines) s = (.loaded lines.length, s.idle.setMem (placeLines s.mem lines)) ∧
    (∀ (bad : Word × List Byte) (rest : List (Word × List Byte)),
      bad.2 ≠ [] → ¬ uint bad.1 + bad.2.length ≤ s.memSize →
      loadProgram (programText (lines ++ bad :: rest)) s =
        (.memoryOutOfBounds (max (uint bad.1) s.memSize) (lines.length + 1),
          s.idle.setMem (placeLines s.mem lines))) ∧
    (∀ a, (∀ l ∈ lines, a < uint l.1 ∨ uint l.1 + l.2.length ≤ a) →
      Memory.read (placeLines s.mem lines) a = s.readByte a) ∧
    (Memory.wf s.mem → ∀ (before after : List (Word × List Byte)) (l : Word × List Byte) (k : Nat) (b : Byte),
      lines = before ++ l :: after → l.2[k]? = some b →
      (∀ q ∈ after, uint l.1 + k < uint q.1 ∨ uint q.1 + q.2.length ≤ uint l.1 + k) →
      Memory.read (placeLines s.mem lines) (uint l.1 + k) = b)
end

