-- ==== Sys2Proof/Laws/Decode.lean ====
section
/-! SUPPORT. Fields and formats as numbers: what each field of a word is worth, what each format's word
is worth, and the fields of each format. -/

namespace Sys2Proof

/-! ### Fields as numbers -/

theorem grabRight_toNat (w : Word) (n : Nat) (h : n ≤ 32) : (grabRight w n).toNat = w.toNat % 2 ^ n := by
  have hp : 2 ^ n ≤ 2 ^ 32 := Nat.pow_le_pow_right (by omega) h
  have hpos : 0 < 2 ^ n := Nat.pow_pos (by omega)
  simp only [grabRight, BitVec.toNat_and, BitVec.toNat_ofNat]
  rw [Nat.mod_eq_of_lt (by omega), Nat.and_two_pow_sub_one_eq_mod]

theorem grabLeft_toNat (w : Word) (n : Nat) : (grabLeft w n).toNat = w.toNat / 2 ^ (32 - n) := by
  simp [grabLeft, BitVec.toNat_ushiftRight, Nat.shiftRight_eq_div_pow]

theorem opcodeField_toNat (w : Word) : (opcodeField w).toNat = w.toNat / 2 ^ 26 := by
  have := w.isLt
  simp only [opcodeField, BitVec.toNat_setWidth, grabLeft_toNat]; omega

theorem functField_toNat (w : Word) : (functField w).toNat = w.toNat % 2 ^ 6 := by
  simp only [functField, BitVec.toNat_setWidth, grabRight_toNat _ 6 (by omega)]; omega

theorem rsField_val (w : Word) : (rsField w).val = w.toNat / 2 ^ 21 % 32 := by
  show ((grabRight (grabLeft w 11) 5).setWidth 5).toNat = _
  simp only [BitVec.toNat_setWidth, grabRight_toNat _ 5 (by omega), grabLeft_toNat]; omega

theorem rtField_val (w : Word) : (rtField w).val = w.toNat / 2 ^ 16 % 32 := by
  show (w.extractLsb' 16 5).toNat = _
  simp [BitVec.extractLsb'_toNat, Nat.shiftRight_eq_div_pow]

theorem rdField_val (w : Word) : (rdField w).val = w.toNat / 2 ^ 11 % 32 := by
  show (w.extractLsb' 11 5).toNat = _
  simp [BitVec.extractLsb'_toNat, Nat.shiftRight_eq_div_pow]

theorem imm16Field_toNat (w : Word) : (imm16Field w).toNat = w.toNat % 2 ^ 16 := by
  simp only [imm16Field, BitVec.toNat_setWidth, grabRight_toNat _ 16 (by omega)]; omega

theorem imm26Field_toNat (w : Word) : (imm26Field w).toNat = w.toNat % 2 ^ 26 := by
  simp only [imm26Field, BitVec.toNat_setWidth, grabRight_toNat _ 26 (by omega)]; omega

/-! ### Formats as numbers -/

theorem regBits_toNat (r : Reg) : (regBits r).toNat = r.val := rfl

theorem encodeR_toNat (rs rt rd : Reg) (shamt : BitVec 5) (funct : BitVec 6) :
    (encodeR rs rt rd shamt funct).toNat =
      rs.val * 2 ^ 21 + rt.val * 2 ^ 16 + rd.val * 2 ^ 11 + shamt.toNat * 2 ^ 6 + funct.toNat := by
  simp only [encodeR, BitVec.toNat_append, regBits_toNat]
  have := rs.isLt; have := rt.isLt; have := rd.isLt
  rw [← Nat.shiftLeft_add_eq_or_of_lt (by omega), ← Nat.shiftLeft_add_eq_or_of_lt (by omega),
    ← Nat.shiftLeft_add_eq_or_of_lt (by omega), ← Nat.shiftLeft_add_eq_or_of_lt (by omega),
    ← Nat.shiftLeft_add_eq_or_of_lt (by omega)]
  simp only [Nat.shiftLeft_eq, BitVec.toNat_ofNat]
  omega

theorem encodeI_toNat (op : BitVec 6) (rs rt : Reg) (imm : Imm16) :
    (encodeI op rs rt imm).toNat = op.toNat * 2 ^ 26 + rs.val * 2 ^ 21 + rt.val * 2 ^ 16 + imm.toNat := by
  simp only [encodeI, BitVec.toNat_append, regBits_toNat]
  have := rs.isLt; have := rt.isLt
  rw [← Nat.shiftLeft_add_eq_or_of_lt (by omega), ← Nat.shiftLeft_add_eq_or_of_lt (by omega),
    ← Nat.shiftLeft_add_eq_or_of_lt (by omega)]
  simp only [Nat.shiftLeft_eq]
  omega

theorem encodeJ_toNat (op : BitVec 6) (imm : Imm26) :
    (encodeJ op imm).toNat = op.toNat * 2 ^ 26 + imm.toNat := by
  simp only [encodeJ, BitVec.toNat_append]
  rw [← Nat.shiftLeft_add_eq_or_of_lt (by omega), Nat.shiftLeft_eq]

/-! ### The fields of each format -/

section formatR
variable (rs rt rd : Reg) (sh : BitVec 5) (fn : BitVec 6)

@[simp] theorem opcodeField_encodeR : opcodeField (encodeR rs rt rd sh fn) = 0#6 := by
  apply BitVec.eq_of_toNat_eq; rw [opcodeField_toNat, encodeR_toNat, BitVec.toNat_ofNat]
  have := rs.isLt; have := rt.isLt; have := rd.isLt; omega

@[simp] theorem functField_encodeR : functField (encodeR rs rt rd sh fn) = fn := by
  apply BitVec.eq_of_toNat_eq; rw [functField_toNat, encodeR_toNat]; have := fn.isLt; omega

@[simp] theorem rsField_encodeR : rsField (encodeR rs rt rd sh fn) = rs := by
  apply Fin.ext; rw [rsField_val, encodeR_toNat]
  have := rs.isLt; have := rt.isLt; have := rd.isLt; omega

@[simp] theorem rtField_encodeR : rtField (encodeR rs rt rd sh fn) = rt := by
  apply Fin.ext; rw [rtField_val, encodeR_toNat]
  have := rs.isLt; have := rt.isLt; have := rd.isLt; omega

@[simp] theorem rdField_encodeR : rdField (encodeR rs rt rd sh fn) = rd := by
  apply Fin.ext; rw [rdField_val, encodeR_toNat]
  have := rs.isLt; have := rt.isLt; have := rd.isLt; omega

/-- A format-R word with a non-zero funct is not the zero word. -/
theorem encodeR_ne_zero (h : fn ≠ 0#6) : encodeR rs rt rd sh fn ≠ 0#32 := by
  intro h0
  have := functField_encodeR rs rt rd sh fn
  rw [h0] at this
  exact h (by rw [← this]; rfl)

end formatR

section formatI
variable (op : BitVec 6) (rs rt : Reg) (imm : Imm16)

@[simp] theorem opcodeField_encodeI : opcodeField (encodeI op rs rt imm) = op := by
  apply BitVec.eq_of_toNat_eq; rw [opcodeField_toNat, encodeI_toNat]
  have := rs.isLt; have := rt.isLt; omega

@[simp] theorem rsField_encodeI : rsField (encodeI op rs rt imm) = rs := by
  apply Fin.ext; rw [rsField_val, encodeI_toNat]; have := rs.isLt; have := rt.isLt; omega

@[simp] theorem rtField_encodeI : rtField (encodeI op rs rt imm) = rt := by
  apply Fin.ext; rw [rtField_val, encodeI_toNat]; have := rs.isLt; have := rt.isLt; omega

@[simp] theorem imm16Field_encodeI : imm16Field (encodeI op rs rt imm) = imm := by
  apply BitVec.eq_of_toNat_eq; rw [imm16Field_toNat, encodeI_toNat]; omega

/-- A format-I word with a non-zero opcode is not the zero word. -/
theorem encodeI_ne_zero (h : op ≠ 0#6) : encodeI op rs rt imm ≠ 0#32 := by
  intro h0
  have := opcodeField_encodeI op rs rt imm
  rw [h0] at this
  exact h (by rw [← this]; rfl)

end formatI

section formatJ
variable (op : BitVec 6) (imm : Imm26)

@[simp] theorem opcodeField_encodeJ : opcodeField (encodeJ op imm) = op := by
  apply BitVec.eq_of_toNat_eq; rw [opcodeField_toNat, encodeJ_toNat]; omega

@[simp] theorem imm26Field_encodeJ : imm26Field (encodeJ op imm) = imm := by
  apply BitVec.eq_of_toNat_eq; rw [imm26Field_toNat, encodeJ_toNat]; omega

/-- A format-J word with a non-zero opcode is not the zero word. -/
theorem encodeJ_ne_zero (h : op ≠ 0#6) : encodeJ op imm ≠ 0#32 := by
  intro h0
  have := opcodeField_encodeJ op imm
  rw [h0] at this
  exact h (by rw [← this]; rfl)

end formatJ

/-! ### Decoding by format -/

theorem decode_encodeR (rs rt rd : Reg) (sh : BitVec 5) (fn : BitVec 6) (h : fn ≠ 0#6) :
    decode (encodeR rs rt rd sh fn) = decodeRType (encodeR rs rt rd sh fn) := by
  simp [decode, encodeR_ne_zero rs rt rd sh fn h]

theorem decode_encodeI (op : BitVec 6) (rs rt : Reg) (imm : Imm16) (h : op ≠ 0#6) :
    decode (encodeI op rs rt imm) = decodeIType (encodeI op rs rt imm) := by
  simp [decode, encodeI_ne_zero op rs rt imm h, h]

theorem decode_encodeJ (op : BitVec 6) (imm : Imm26) (h : op ≠ 0#6) :
    decode (encodeJ op imm) = decodeIType (encodeJ op imm) := by
  simp [decode, encodeJ_ne_zero op imm h, h]

/-! ### The opcode table's masks -/

theorem and_opcodeMask_toNat (w : Word) : (w &&& 0xFC000000#32).toNat = w.toNat / 2 ^ 26 * 2 ^ 26 := by
  have h : w &&& 0xFC000000#32 = (w >>> 26) <<< 26 := by
    apply BitVec.eq_of_getLsbD_eq
    intro i hi
    interval_cases i <;> simp
  rw [h]
  have := w.isLt
  simp [BitVec.toNat_shiftLeft, BitVec.toNat_ushiftRight, Nat.shiftRight_eq_div_pow, Nat.shiftLeft_eq]
  omega

theorem and_functMask_toNat (w : Word) :
    (w &&& 0xFC00003F#32).toNat = w.toNat / 2 ^ 26 * 2 ^ 26 + w.toNat % 2 ^ 6 := by
  have h : w &&& 0xFC00003F#32 = (w &&& 0xFC000000#32) + (w &&& 0x3F#32) := by
    have hd : (w &&& 0xFC000000#32) &&& (w &&& 0x3F#32) = 0#32 := by
      apply BitVec.eq_of_getLsbD_eq
      intro i hi
      interval_cases i <;> simp
    rw [BitVec.add_eq_or_of_and_eq_zero _ _ hd]
    apply BitVec.eq_of_getLsbD_eq
    intro i hi
    interval_cases i <;> simp
  have h6 : (w &&& 0x3F#32).toNat = w.toNat % 2 ^ 6 := by
    have := grabRight_toNat w 6 (by omega)
    simpa [grabRight] using this
  have := w.isLt
  rw [h, BitVec.toNat_add, and_opcodeMask_toNat, h6]
  omega

/-- A row that fixes the opcode field covers exactly the words with that opcode. -/
theorem covers_opcode (m : String) (w p : Word) (op : BitVec 6) (hp : p.toNat = op.toNat * 2 ^ 26) :
    TableRow.covers ⟨m, p, 0xFC000000#32⟩ w = true ↔ opcodeField w = op := by
  have h1 := and_opcodeMask_toNat w
  have h2 := opcodeField_toNat w
  simp only [TableRow.covers, beq_iff_eq]
  constructor
  · intro h; apply BitVec.eq_of_toNat_eq; rw [h] at h1; omega
  · intro h; apply BitVec.eq_of_toNat_eq; rw [h] at h2; omega

/-- A row that fixes opcode 0 and a funct covers exactly the words with both. -/
theorem covers_funct (m : String) (w p : Word) (fn : BitVec 6) (hp : p.toNat = fn.toNat) :
    TableRow.covers ⟨m, p, 0xFC00003F#32⟩ w = true ↔ opcodeField w = 0#6 ∧ functField w = fn := by
  have h1 := and_functMask_toNat w
  have h2 := opcodeField_toNat w
  have h3 := functField_toNat w
  have h4 := fn.isLt
  simp only [TableRow.covers, beq_iff_eq]
  constructor
  · intro h
    rw [h] at h1
    constructor
    · apply BitVec.eq_of_toNat_eq; rw [BitVec.toNat_ofNat]; omega
    · apply BitVec.eq_of_toNat_eq; omega
  · intro ⟨ho, hf⟩
    rw [ho] at h2; rw [hf] at h3
    rw [BitVec.toNat_ofNat] at h2
    apply BitVec.eq_of_toNat_eq; omega

/-- The terminator's row covers exactly the zero word. -/
theorem covers_terminator (m : String) (w : Word) :
    TableRow.covers ⟨m, 0#32, 0xFFFFFFFF#32⟩ w = true ↔ w = 0#32 := by
  have h : w &&& 0xFFFFFFFF#32 = w := by
    apply BitVec.eq_of_getLsbD_eq
    intro i hi
    interval_cases i <;> simp
  simp [TableRow.covers, h]

end Sys2Proof
end

