-- ==== Sys2Proof/Laws/Memory.lean ====
section
/-! SUPPORT. The byte array: canonical form, read after write, extensionality; big-endian words. -/

namespace Sys2Proof.Machine

/-! ### Reading and writing one byte -/

theorem Memory.read_write_ne (m : List Host.Cell) {a k : Nat} (b : Byte) (h : k ≠ a) :
    Memory.read (Memory.write m a b) k = Memory.read m k := by
  induction m with
  | nil => by_cases hb : b = Memory.unlisted <;> simp [Memory.write, Memory.read, hb, Ne.symm h]
  | cons c rest ih =>
    obtain ⟨j, v⟩ := c
    by_cases h1 : a < j
    · by_cases hb : b = Memory.unlisted <;> simp [Memory.write, Memory.read, h1, hb, Ne.symm h]
    · by_cases h2 : a = j
      · subst h2
        by_cases hb : b = Memory.unlisted <;> simp [Memory.write, Memory.read, hb, Ne.symm h]
      · simp [Memory.write, Memory.read, h1, h2, ih]

/-- An index below every listed one reads as unlisted. -/
theorem Memory.read_of_lt (m : List Host.Cell) (a : Nat) (h : ∀ c ∈ m, a < c.1) :
    Memory.read m a = Memory.unlisted := by
  induction m with
  | nil => rfl
  | cons c rest ih =>
    have hc : c.1 ≠ a := (Nat.ne_of_lt (h c (by simp))).symm
    simp [Memory.read, hc, ih (fun c hc => h c (by simp [hc]))]

theorem Memory.wf_nil : Memory.wf [] := ⟨List.Pairwise.nil, by simp⟩

theorem Memory.wf_cons {c : Host.Cell} {m : List Host.Cell} :
    Memory.wf (c :: m) ↔ (∀ d ∈ m, c.1 < d.1) ∧ c.2 ≠ Memory.unlisted ∧ Memory.wf m := by
  simp [Memory.wf, List.pairwise_cons]; tauto

theorem Memory.read_write_self (m : List Host.Cell) (a : Nat) (b : Byte) (h : Memory.wf m) :
    Memory.read (Memory.write m a b) a = b := by
  induction m with
  | nil => by_cases hb : b = Memory.unlisted <;> simp [Memory.write, Memory.read, hb]
  | cons c rest ih =>
    obtain ⟨j, v⟩ := c
    obtain ⟨hlt, _, hrest⟩ := Memory.wf_cons.mp h
    by_cases h1 : a < j
    · by_cases hb : b = Memory.unlisted
      · have : Memory.read ((j, v) :: rest) a = Memory.unlisted := by
          refine Memory.read_of_lt _ _ (fun d hd => ?_)
          rcases List.mem_cons.mp hd with rfl | hd
          · exact h1
          · exact Nat.lt_trans h1 (hlt d hd)
        simp [Memory.write, h1, hb, this]
      · simp [Memory.write, Memory.read, h1, hb]
    · by_cases h2 : a = j
      · subst h2
        by_cases hb : b = Memory.unlisted
        · simp [Memory.write, hb, Memory.read_of_lt rest a hlt]
        · simp [Memory.write, Memory.read, hb]
      · simp [Memory.write, Memory.read, h1, h2, Ne.symm h2, ih hrest]

/-- A write lists no index but the old ones and its own. -/
theorem Memory.mem_write {m : List Host.Cell} {a : Nat} {b : Byte} {c : Host.Cell}
    (h : c ∈ Memory.write m a b) : c ∈ m ∨ (c = (a, b) ∧ b ≠ Memory.unlisted) := by
  induction m with
  | nil => by_cases hb : b = Memory.unlisted <;> simp_all [Memory.write]
  | cons d rest ih =>
    obtain ⟨j, v⟩ := d
    by_cases h1 : a < j
    · by_cases hb : b = Memory.unlisted <;> simp_all [Memory.write]; tauto
    · by_cases h2 : a = j
      · by_cases hb : b = Memory.unlisted <;> simp_all [Memory.write]; tauto
      · simp only [Memory.write, h1, h2, if_false, List.mem_cons] at h
        rcases h with h | h
        · simp [h]
        · rcases ih h with h | h <;> simp [h]

/-- Every write keeps the canonical form. -/
theorem Memory.wf_write (m : List Host.Cell) (a : Nat) (b : Byte) (h : Memory.wf m) :
    Memory.wf (Memory.write m a b) := by
  induction m with
  | nil => by_cases hb : b = Memory.unlisted <;> simp [Memory.write, Memory.wf, hb]
  | cons c rest ih =>
    obtain ⟨j, v⟩ := c
    have hc := Memory.wf_cons.mp h
    obtain ⟨hlt, hv, hrest⟩ := hc
    by_cases h1 : a < j
    · by_cases hb : b = Memory.unlisted
      · simpa [Memory.write, h1, hb] using h
      · simp only [Memory.write, h1, if_true, hb, if_false]
        refine Memory.wf_cons.mpr ⟨fun d hd => ?_, hb, h⟩
        rcases List.mem_cons.mp hd with rfl | hd
        · exact h1
        · exact Nat.lt_trans h1 (hlt d hd)
    · by_cases h2 : a = j
      · subst h2
        by_cases hb : b = Memory.unlisted
        · simpa [Memory.write, hb] using hrest
        · have hcons : Memory.wf ((a, b) :: rest) := Memory.wf_cons.mpr ⟨hlt, hb, hrest⟩
          simpa [Memory.write, hb] using hcons
      · simp only [Memory.write, h1, if_false, h2]
        refine Memory.wf_cons.mpr ⟨fun d hd => ?_, hv, ih hrest⟩
        rcases Memory.mem_write hd with hd | ⟨rfl, _⟩
        · exact hlt d hd
        · show j < a; omega

/-- Two canonical memories that read alike are the same list. -/
theorem Memory.ext_of_read {m n : List Host.Cell} (hm : Memory.wf m) (hn : Memory.wf n)
    (h : ∀ a, Memory.read m a = Memory.read n a) : m = n := by
  induction m generalizing n with
  | nil =>
    cases n with
    | nil => rfl
    | cons d n =>
      have := h d.1
      simp [Memory.read] at this
      exact absurd this.symm (Memory.wf_cons.mp hn).2.1
  | cons c m ih =>
    obtain ⟨hclt, hcv, hm'⟩ := Memory.wf_cons.mp hm
    cases n with
    | nil =>
      have := h c.1
      simp [Memory.read] at this
      exact absurd this hcv
    | cons d n =>
      obtain ⟨hdlt, hdv, hn'⟩ := Memory.wf_cons.mp hn
      obtain ⟨j, v⟩ := c
      obtain ⟨k, w⟩ := d
      have hjk : j = k := by
        rcases Nat.lt_trichotomy j k with hlt | heq | hgt
        · have h1 := h j
          rw [Memory.read_of_lt ((k, w) :: n) j (by
            intro e he
            rcases List.mem_cons.mp he with rfl | he
            · exact hlt
            · exact Nat.lt_trans hlt (hdlt e he))] at h1
          simp [Memory.read] at h1
          exact absurd h1 hcv
        · exact heq
        · have h1 := h k
          rw [Memory.read_of_lt ((j, v) :: m) k (by
            intro e he
            rcases List.mem_cons.mp he with rfl | he
            · exact hgt
            · exact Nat.lt_trans hgt (hclt e he))] at h1
          simp [Memory.read] at h1
          exact absurd h1.symm hdv
      subst hjk
      have hvw : v = w := by simpa [Memory.read] using h j
      subst hvw
      have : m = n := ih hm' hn' (fun a => by
        by_cases ha : j = a
        · subst ha
          rw [Memory.read_of_lt m j hclt, Memory.read_of_lt n j hdlt]
        · simpa [Memory.read, ha] using h a)
      rw [this]

/-- A byte that reads as listed is listed. -/
theorem Memory.mem_of_read_ne {m : List Host.Cell} {a : Nat} (h : Memory.read m a ≠ Memory.unlisted) :
    (a, Memory.read m a) ∈ m := by
  induction m with
  | nil => exact absurd rfl h
  | cons c rest ih =>
    obtain ⟨j, v⟩ := c
    by_cases hj : j = a
    · subst hj; simp [Memory.read]
    · simp only [Memory.read, hj, if_false] at h ⊢
      exact List.mem_cons_of_mem _ (ih h)

/-- In a canonical memory a listed byte is what its index reads. -/
theorem Memory.read_of_mem {m : List Host.Cell} (hm : Memory.wf m) {c : Host.Cell} (hc : c ∈ m) :
    Memory.read m c.1 = c.2 := by
  induction m with
  | nil => simp at hc
  | cons d rest ih =>
    obtain ⟨hlt, _, hrest⟩ := Memory.wf_cons.mp hm
    rcases List.mem_cons.mp hc with rfl | hc
    · simp [Memory.read]
    · have := hlt c hc
      simp [Memory.read, Nat.ne_of_lt this, ih hrest hc]

/-! ### Consecutive bytes -/

theorem Memory.wf_writeBytes (bs : List Byte) (m : List Host.Cell) (a : Nat) (h : Memory.wf m) :
    Memory.wf (Memory.writeBytes m a bs) := by
  induction bs generalizing m a with
  | nil => exact h
  | cons b bs ih => exact ih _ _ (Memory.wf_write m a b h)

theorem Memory.read_writeBytes_outside (bs : List Byte) (m : List Host.Cell) (a k : Nat)
    (h : k < a ∨ a + bs.length ≤ k) : Memory.read (Memory.writeBytes m a bs) k = Memory.read m k := by
  induction bs generalizing m a with
  | nil => rfl
  | cons b bs ih =>
    simp only [List.length_cons] at h
    rw [Memory.writeBytes, ih _ _ (by omega), Memory.read_write_ne _ _ (by omega)]

theorem Memory.read_writeBytes_inside (bs : List Byte) (m : List Host.Cell) (a j : Nat) (hm : Memory.wf m)
    (h : j < bs.length) : Memory.read (Memory.writeBytes m a bs) (a + j) = bs[j] := by
  induction bs generalizing m a j with
  | nil => simp at h
  | cons b bs ih =>
    cases j with
    | zero =>
      rw [Memory.writeBytes, Memory.read_writeBytes_outside _ _ _ _ (by omega)]
      simpa using Memory.read_write_self m a b hm
    | succ j =>
      rw [Memory.writeBytes, show a + (j + 1) = (a + 1) + j by omega,
        ih _ _ _ (Memory.wf_write m a b hm) (by simpa using h)]
      simp

theorem Memory.mem_writeBytes {bs : List Byte} {m : List Host.Cell} {a : Nat} {c : Host.Cell}
    (h : c ∈ Memory.writeBytes m a bs) : c ∈ m ∨ (a ≤ c.1 ∧ c.1 < a + bs.length) := by
  induction bs generalizing m a with
  | nil => exact .inl h
  | cons b bs ih =>
    rcases ih h with h | h
    · rcases Memory.mem_write h with h | ⟨rfl, _⟩
      · exact .inl h
      · right; simp
    · right; simp only [List.length_cons]; omega

/-! ### Big-endian words -/

theorem wordOfBytes_byteOfWord (v : Word) :
    wordOfBytes (byteOfWord v 0) (byteOfWord v 1) (byteOfWord v 2) (byteOfWord v 3) = v := by
  apply BitVec.eq_of_toNat_eq
  simp only [wordOfBytes, byteOfWord, BitVec.toNat_append, BitVec.extractLsb'_toNat, Nat.shiftRight_eq_div_pow]
  have hv := v.isLt
  rw [← Nat.shiftLeft_add_eq_or_of_lt (by omega), ← Nat.shiftLeft_add_eq_or_of_lt (by omega),
    ← Nat.shiftLeft_add_eq_or_of_lt (by omega)]
  simp only [Nat.shiftLeft_eq]
  omega

theorem wordOfBytes_toNat (b0 b1 b2 b3 : Byte) :
    (wordOfBytes b0 b1 b2 b3).toNat =
      b0.toNat * 2 ^ 24 + b1.toNat * 2 ^ 16 + b2.toNat * 2 ^ 8 + b3.toNat := by
  simp only [wordOfBytes, BitVec.toNat_append]
  rw [← Nat.shiftLeft_add_eq_or_of_lt (by omega), ← Nat.shiftLeft_add_eq_or_of_lt (by omega),
    ← Nat.shiftLeft_add_eq_or_of_lt (by omega)]
  simp only [Nat.shiftLeft_eq]
  omega

theorem byteOfWord_toNat (v : Word) (k : Nat) :
    (byteOfWord v k).toNat = v.toNat / 2 ^ (8 * (3 - k)) % 256 := by
  simp [byteOfWord, BitVec.extractLsb'_toNat, Nat.shiftRight_eq_div_pow]

@[simp] theorem bytesOfWord_length (v : Word) : (bytesOfWord v).length = 4 := rfl

theorem Memory.wf_writeWord (m : List Host.Cell) (a : Nat) (v : Word) (h : Memory.wf m) :
    Memory.wf (Memory.writeWord m a v) := Memory.wf_writeBytes _ _ _ h

theorem Memory.read_writeWord_outside (m : List Host.Cell) (a k : Nat) (v : Word) (h : k < a ∨ a + 4 ≤ k) :
    Memory.read (Memory.writeWord m a v) k = Memory.read m k :=
  Memory.read_writeBytes_outside _ _ _ _ h

theorem Memory.read_writeWord_inside (m : List Host.Cell) (a j : Nat) (v : Word) (hm : Memory.wf m) (h : j < 4) :
    Memory.read (Memory.writeWord m a v) (a + j) = byteOfWord v j := by
  rw [Memory.writeWord, Memory.read_writeBytes_inside (bytesOfWord v) m a j hm h]
  match j, h with
  | 0, _ | 1, _ | 2, _ | 3, _ => rfl

theorem Memory.readWord_writeWord_self (m : List Host.Cell) (a : Nat) (v : Word) (hm : Memory.wf m) :
    Memory.readWord (Memory.writeWord m a v) a = v := by
  have h0 := Memory.read_writeWord_inside m a 0 v hm (by omega)
  rw [Nat.add_zero] at h0
  rw [Memory.readWord, h0, Memory.read_writeWord_inside m a 1 v hm (by omega),
    Memory.read_writeWord_inside m a 2 v hm (by omega), Memory.read_writeWord_inside m a 3 v hm (by omega),
    wordOfBytes_byteOfWord]

end Sys2Proof.Machine
end

