-- ==== Sys2Proof/Laws/State.lean ====
section
/-! SUPPORT. One lemma per field per update of State, and what the accessors read after each update. -/

namespace Sys2Proof.Machine

/-! ### setPc -/

@[simp] theorem State.setPc_x (v : Word) (s : State) : (s.setPc v).x = s.x := rfl
@[simp] theorem State.setPc_pc (v : Word) (s : State) : (s.setPc v).pc = v := rfl
@[simp] theorem State.setPc_hi (v : Word) (s : State) : (s.setPc v).hi = s.hi := rfl
@[simp] theorem State.setPc_lo (v : Word) (s : State) : (s.setPc v).lo = s.lo := rfl
@[simp] theorem State.setPc_mem (v : Word) (s : State) : (s.setPc v).mem = s.mem := rfl
@[simp] theorem State.setPc_memSize (v : Word) (s : State) : (s.setPc v).memSize = s.memSize := rfl
@[simp] theorem State.setPc_mstep (v : Word) (s : State) : (s.setPc v).mstep = s.mstep := rfl
@[simp] theorem State.setPc_ir (v : Word) (s : State) : (s.setPc v).ir = s.ir := rfl
@[simp] theorem State.setPc_kind (v : Word) (s : State) : (s.setPc v).kind = s.kind := rfl
@[simp] theorem State.setPc_alu (v : Word) (s : State) : (s.setPc v).alu = s.alu := rfl
@[simp] theorem State.setPc_draws (v : Word) (s : State) : (s.setPc v).draws = s.draws := rfl
@[simp] theorem State.setPc_readReg (v : Word) (s : State) (r : Reg) : (s.setPc v).readReg r = s.readReg r := rfl
@[simp] theorem State.setPc_readByte (v : Word) (s : State) (a : Nat) : (s.setPc v).readByte a = s.readByte a := rfl
@[simp] theorem State.setPc_inBounds (v : Word) (s : State) (a : Word) (k : Nat) : (s.setPc v).inBounds a k = s.inBounds a k := rfl
@[simp] theorem State.setPc_fetchRead (v : Word) (s : State) (a : Word) : (s.setPc v).fetchRead a = s.fetchRead a := rfl
@[simp] theorem State.setPc_memRead (v : Word) (s : State) (a : Word) : (s.setPc v).memRead a = s.memRead a := rfl
@[simp] theorem State.setPc_effectiveAddress (v : Word) (s : State) (r : Reg) (o : Imm16) :
    (s.setPc v).effectiveAddress r o = s.effectiveAddress r o := rfl

/-! ### setHiLo -/

@[simp] theorem State.setHiLo_x (h l : Word) (s : State) : (s.setHiLo h l).x = s.x := rfl
@[simp] theorem State.setHiLo_pc (h l : Word) (s : State) : (s.setHiLo h l).pc = s.pc := rfl
@[simp] theorem State.setHiLo_hi (h l : Word) (s : State) : (s.setHiLo h l).hi = h := rfl
@[simp] theorem State.setHiLo_lo (h l : Word) (s : State) : (s.setHiLo h l).lo = l := rfl
@[simp] theorem State.setHiLo_mem (h l : Word) (s : State) : (s.setHiLo h l).mem = s.mem := rfl
@[simp] theorem State.setHiLo_memSize (h l : Word) (s : State) : (s.setHiLo h l).memSize = s.memSize := rfl
@[simp] theorem State.setHiLo_mstep (h l : Word) (s : State) : (s.setHiLo h l).mstep = s.mstep := rfl
@[simp] theorem State.setHiLo_ir (h l : Word) (s : State) : (s.setHiLo h l).ir = s.ir := rfl
@[simp] theorem State.setHiLo_kind (h l : Word) (s : State) : (s.setHiLo h l).kind = s.kind := rfl
@[simp] theorem State.setHiLo_alu (h l : Word) (s : State) : (s.setHiLo h l).alu = s.alu := rfl
@[simp] theorem State.setHiLo_draws (h l : Word) (s : State) : (s.setHiLo h l).draws = s.draws := rfl
@[simp] theorem State.setHiLo_readReg (h l : Word) (s : State) (r : Reg) : (s.setHiLo h l).readReg r = s.readReg r := rfl
@[simp] theorem State.setHiLo_readByte (h l : Word) (s : State) (a : Nat) : (s.setHiLo h l).readByte a = s.readByte a := rfl
@[simp] theorem State.setHiLo_inBounds (h l : Word) (s : State) (a : Word) (k : Nat) : (s.setHiLo h l).inBounds a k = s.inBounds a k := rfl
@[simp] theorem State.setHiLo_fetchRead (h l : Word) (s : State) (a : Word) : (s.setHiLo h l).fetchRead a = s.fetchRead a := rfl
@[simp] theorem State.setHiLo_memRead (h l : Word) (s : State) (a : Word) : (s.setHiLo h l).memRead a = s.memRead a := rfl
@[simp] theorem State.setHiLo_effectiveAddress (h l : Word) (s : State) (r : Reg) (o : Imm16) :
    (s.setHiLo h l).effectiveAddress r o = s.effectiveAddress r o := rfl

/-! ### setX -/

@[simp] theorem State.setX_x (v : Vector Word 32) (s : State) : (s.setX v).x = v := rfl
@[simp] theorem State.setX_pc (v : Vector Word 32) (s : State) : (s.setX v).pc = s.pc := rfl
@[simp] theorem State.setX_hi (v : Vector Word 32) (s : State) : (s.setX v).hi = s.hi := rfl
@[simp] theorem State.setX_lo (v : Vector Word 32) (s : State) : (s.setX v).lo = s.lo := rfl
@[simp] theorem State.setX_mem (v : Vector Word 32) (s : State) : (s.setX v).mem = s.mem := rfl
@[simp] theorem State.setX_memSize (v : Vector Word 32) (s : State) : (s.setX v).memSize = s.memSize := rfl
@[simp] theorem State.setX_mstep (v : Vector Word 32) (s : State) : (s.setX v).mstep = s.mstep := rfl
@[simp] theorem State.setX_ir (v : Vector Word 32) (s : State) : (s.setX v).ir = s.ir := rfl
@[simp] theorem State.setX_kind (v : Vector Word 32) (s : State) : (s.setX v).kind = s.kind := rfl
@[simp] theorem State.setX_alu (v : Vector Word 32) (s : State) : (s.setX v).alu = s.alu := rfl
@[simp] theorem State.setX_draws (v : Vector Word 32) (s : State) : (s.setX v).draws = s.draws := rfl
@[simp] theorem State.setX_readByte (v : Vector Word 32) (s : State) (a : Nat) : (s.setX v).readByte a = s.readByte a := rfl
@[simp] theorem State.setX_inBounds (v : Vector Word 32) (s : State) (a : Word) (k : Nat) : (s.setX v).inBounds a k = s.inBounds a k := rfl
@[simp] theorem State.setX_fetchRead (v : Vector Word 32) (s : State) (a : Word) : (s.setX v).fetchRead a = s.fetchRead a := rfl
@[simp] theorem State.setX_memRead (v : Vector Word 32) (s : State) (a : Word) : (s.setX v).memRead a = s.memRead a := rfl

/-! ### setMem -/

@[simp] theorem State.setMem_x (m : List Host.Cell) (s : State) : (s.setMem m).x = s.x := rfl
@[simp] theorem State.setMem_pc (m : List Host.Cell) (s : State) : (s.setMem m).pc = s.pc := rfl
@[simp] theorem State.setMem_hi (m : List Host.Cell) (s : State) : (s.setMem m).hi = s.hi := rfl
@[simp] theorem State.setMem_lo (m : List Host.Cell) (s : State) : (s.setMem m).lo = s.lo := rfl
@[simp] theorem State.setMem_mem (m : List Host.Cell) (s : State) : (s.setMem m).mem = m := rfl
@[simp] theorem State.setMem_memSize (m : List Host.Cell) (s : State) : (s.setMem m).memSize = s.memSize := rfl
@[simp] theorem State.setMem_mstep (m : List Host.Cell) (s : State) : (s.setMem m).mstep = s.mstep := rfl
@[simp] theorem State.setMem_ir (m : List Host.Cell) (s : State) : (s.setMem m).ir = s.ir := rfl
@[simp] theorem State.setMem_kind (m : List Host.Cell) (s : State) : (s.setMem m).kind = s.kind := rfl
@[simp] theorem State.setMem_alu (m : List Host.Cell) (s : State) : (s.setMem m).alu = s.alu := rfl
@[simp] theorem State.setMem_draws (m : List Host.Cell) (s : State) : (s.setMem m).draws = s.draws := rfl
@[simp] theorem State.setMem_readReg (m : List Host.Cell) (s : State) (r : Reg) : (s.setMem m).readReg r = s.readReg r := rfl
@[simp] theorem State.setMem_inBounds (m : List Host.Cell) (s : State) (a : Word) (k : Nat) : (s.setMem m).inBounds a k = s.inBounds a k := rfl
@[simp] theorem State.setMem_effectiveAddress (m : List Host.Cell) (s : State) (r : Reg) (o : Imm16) :
    (s.setMem m).effectiveAddress r o = s.effectiveAddress r o := rfl

/-! ### setMstep -/

@[simp] theorem State.setMstep_x (n : Nat) (s : State) : (s.setMstep n).x = s.x := rfl
@[simp] theorem State.setMstep_pc (n : Nat) (s : State) : (s.setMstep n).pc = s.pc := rfl
@[simp] theorem State.setMstep_hi (n : Nat) (s : State) : (s.setMstep n).hi = s.hi := rfl
@[simp] theorem State.setMstep_lo (n : Nat) (s : State) : (s.setMstep n).lo = s.lo := rfl
@[simp] theorem State.setMstep_mem (n : Nat) (s : State) : (s.setMstep n).mem = s.mem := rfl
@[simp] theorem State.setMstep_memSize (n : Nat) (s : State) : (s.setMstep n).memSize = s.memSize := rfl
@[simp] theorem State.setMstep_mstep (n : Nat) (s : State) : (s.setMstep n).mstep = n := rfl
@[simp] theorem State.setMstep_ir (n : Nat) (s : State) : (s.setMstep n).ir = s.ir := rfl
@[simp] theorem State.setMstep_kind (n : Nat) (s : State) : (s.setMstep n).kind = s.kind := rfl
@[simp] theorem State.setMstep_alu (n : Nat) (s : State) : (s.setMstep n).alu = s.alu := rfl
@[simp] theorem State.setMstep_draws (n : Nat) (s : State) : (s.setMstep n).draws = s.draws := rfl
@[simp] theorem State.setMstep_readReg (n : Nat) (s : State) (r : Reg) : (s.setMstep n).readReg r = s.readReg r := rfl
@[simp] theorem State.setMstep_readByte (n : Nat) (s : State) (a : Nat) : (s.setMstep n).readByte a = s.readByte a := rfl
@[simp] theorem State.setMstep_inBounds (n : Nat) (s : State) (a : Word) (k : Nat) : (s.setMstep n).inBounds a k = s.inBounds a k := rfl
@[simp] theorem State.setMstep_fetchRead (n : Nat) (s : State) (a : Word) : (s.setMstep n).fetchRead a = s.fetchRead a := rfl
@[simp] theorem State.setMstep_memRead (n : Nat) (s : State) (a : Word) : (s.setMstep n).memRead a = s.memRead a := rfl
@[simp] theorem State.setMstep_effectiveAddress (n : Nat) (s : State) (r : Reg) (o : Imm16) :
    (s.setMstep n).effectiveAddress r o = s.effectiveAddress r o := rfl

/-! ### setFetched -/

@[simp] theorem State.setFetched_x (w : Word) (i : Instr) (s : State) : (s.setFetched w i).x = s.x := rfl
@[simp] theorem State.setFetched_pc (w : Word) (i : Instr) (s : State) : (s.setFetched w i).pc = s.pc := rfl
@[simp] theorem State.setFetched_hi (w : Word) (i : Instr) (s : State) : (s.setFetched w i).hi = s.hi := rfl
@[simp] theorem State.setFetched_lo (w : Word) (i : Instr) (s : State) : (s.setFetched w i).lo = s.lo := rfl
@[simp] theorem State.setFetched_mem (w : Word) (i : Instr) (s : State) : (s.setFetched w i).mem = s.mem := rfl
@[simp] theorem State.setFetched_memSize (w : Word) (i : Instr) (s : State) : (s.setFetched w i).memSize = s.memSize := rfl
@[simp] theorem State.setFetched_mstep (w : Word) (i : Instr) (s : State) : (s.setFetched w i).mstep = s.mstep := rfl
@[simp] theorem State.setFetched_ir (w : Word) (i : Instr) (s : State) : (s.setFetched w i).ir = w := rfl
@[simp] theorem State.setFetched_kind (w : Word) (i : Instr) (s : State) : (s.setFetched w i).kind = i := rfl
@[simp] theorem State.setFetched_alu (w : Word) (i : Instr) (s : State) : (s.setFetched w i).alu = s.alu := rfl
@[simp] theorem State.setFetched_draws (w : Word) (i : Instr) (s : State) : (s.setFetched w i).draws = s.draws := rfl
@[simp] theorem State.setFetched_readReg (w : Word) (i : Instr) (s : State) (r : Reg) : (s.setFetched w i).readReg r = s.readReg r := rfl
@[simp] theorem State.setFetched_readByte (w : Word) (i : Instr) (s : State) (a : Nat) : (s.setFetched w i).readByte a = s.readByte a := rfl
@[simp] theorem State.setFetched_inBounds (w : Word) (i : Instr) (s : State) (a : Word) (k : Nat) : (s.setFetched w i).inBounds a k = s.inBounds a k := rfl
@[simp] theorem State.setFetched_fetchRead (w : Word) (i : Instr) (s : State) (a : Word) : (s.setFetched w i).fetchRead a = s.fetchRead a := rfl
@[simp] theorem State.setFetched_memRead (w : Word) (i : Instr) (s : State) (a : Word) : (s.setFetched w i).memRead a = s.memRead a := rfl
@[simp] theorem State.setFetched_effectiveAddress (w : Word) (i : Instr) (s : State) (r : Reg) (o : Imm16) :
    (s.setFetched w i).effectiveAddress r o = s.effectiveAddress r o := rfl

/-! ### setAlu -/

@[simp] theorem State.setAlu_x (l : AluLatches) (s : State) : (s.setAlu l).x = s.x := rfl
@[simp] theorem State.setAlu_pc (l : AluLatches) (s : State) : (s.setAlu l).pc = s.pc := rfl
@[simp] theorem State.setAlu_hi (l : AluLatches) (s : State) : (s.setAlu l).hi = s.hi := rfl
@[simp] theorem State.setAlu_lo (l : AluLatches) (s : State) : (s.setAlu l).lo = s.lo := rfl
@[simp] theorem State.setAlu_mem (l : AluLatches) (s : State) : (s.setAlu l).mem = s.mem := rfl
@[simp] theorem State.setAlu_memSize (l : AluLatches) (s : State) : (s.setAlu l).memSize = s.memSize := rfl
@[simp] theorem State.setAlu_mstep (l : AluLatches) (s : State) : (s.setAlu l).mstep = s.mstep := rfl
@[simp] theorem State.setAlu_ir (l : AluLatches) (s : State) : (s.setAlu l).ir = s.ir := rfl
@[simp] theorem State.setAlu_kind (l : AluLatches) (s : State) : (s.setAlu l).kind = s.kind := rfl
@[simp] theorem State.setAlu_alu (l : AluLatches) (s : State) : (s.setAlu l).alu = l := rfl
@[simp] theorem State.setAlu_draws (l : AluLatches) (s : State) : (s.setAlu l).draws = s.draws := rfl
@[simp] theorem State.setAlu_readReg (l : AluLatches) (s : State) (r : Reg) : (s.setAlu l).readReg r = s.readReg r := rfl
@[simp] theorem State.setAlu_readByte (l : AluLatches) (s : State) (a : Nat) : (s.setAlu l).readByte a = s.readByte a := rfl
@[simp] theorem State.setAlu_inBounds (l : AluLatches) (s : State) (a : Word) (k : Nat) : (s.setAlu l).inBounds a k = s.inBounds a k := rfl
@[simp] theorem State.setAlu_fetchRead (l : AluLatches) (s : State) (a : Word) : (s.setAlu l).fetchRead a = s.fetchRead a := rfl
@[simp] theorem State.setAlu_memRead (l : AluLatches) (s : State) (a : Word) : (s.setAlu l).memRead a = s.memRead a := rfl
@[simp] theorem State.setAlu_effectiveAddress (l : AluLatches) (s : State) (r : Reg) (o : Imm16) :
    (s.setAlu l).effectiveAddress r o = s.effectiveAddress r o := rfl

/-! ### idle -/

@[simp] theorem State.idle_x (s : State) : (s.idle).x = s.x := rfl
@[simp] theorem State.idle_pc (s : State) : (s.idle).pc = s.pc := rfl
@[simp] theorem State.idle_hi (s : State) : (s.idle).hi = s.hi := rfl
@[simp] theorem State.idle_lo (s : State) : (s.idle).lo = s.lo := rfl
@[simp] theorem State.idle_mem (s : State) : (s.idle).mem = s.mem := rfl
@[simp] theorem State.idle_memSize (s : State) : (s.idle).memSize = s.memSize := rfl
@[simp] theorem State.idle_mstep (s : State) : (s.idle).mstep = 0 := rfl
@[simp] theorem State.idle_ir (s : State) : (s.idle).ir = Config.freeIr s.draws := rfl
@[simp] theorem State.idle_kind (s : State) : (s.idle).kind = Config.freeKind s.draws := rfl
@[simp] theorem State.idle_alu (s : State) : (s.idle).alu = freeAluLatches s.draws := rfl
@[simp] theorem State.idle_draws (s : State) : (s.idle).draws = s.draws + 1 := rfl
@[simp] theorem State.idle_readReg (s : State) (r : Reg) : (s.idle).readReg r = s.readReg r := rfl
@[simp] theorem State.idle_readByte (s : State) (a : Nat) : (s.idle).readByte a = s.readByte a := rfl
@[simp] theorem State.idle_inBounds (s : State) (a : Word) (k : Nat) : (s.idle).inBounds a k = s.inBounds a k := rfl
@[simp] theorem State.idle_fetchRead (s : State) (a : Word) : (s.idle).fetchRead a = s.fetchRead a := rfl
@[simp] theorem State.idle_memRead (s : State) (a : Word) : (s.idle).memRead a = s.memRead a := rfl
@[simp] theorem State.idle_effectiveAddress (s : State) (r : Reg) (o : Imm16) :
    (s.idle).effectiveAddress r o = s.effectiveAddress r o := rfl

/-! ### nextSeq -/

@[simp] theorem State.nextSeq_x (s : State) : (s.nextSeq).x = s.x := rfl
@[simp] theorem State.nextSeq_pc (s : State) : (s.nextSeq).pc = s.pc + 4#32 := rfl
@[simp] theorem State.nextSeq_hi (s : State) : (s.nextSeq).hi = s.hi := rfl
@[simp] theorem State.nextSeq_lo (s : State) : (s.nextSeq).lo = s.lo := rfl
@[simp] theorem State.nextSeq_mem (s : State) : (s.nextSeq).mem = s.mem := rfl
@[simp] theorem State.nextSeq_memSize (s : State) : (s.nextSeq).memSize = s.memSize := rfl
@[simp] theorem State.nextSeq_mstep (s : State) : (s.nextSeq).mstep = s.mstep := rfl
@[simp] theorem State.nextSeq_ir (s : State) : (s.nextSeq).ir = s.ir := rfl
@[simp] theorem State.nextSeq_kind (s : State) : (s.nextSeq).kind = s.kind := rfl
@[simp] theorem State.nextSeq_alu (s : State) : (s.nextSeq).alu = s.alu := rfl
@[simp] theorem State.nextSeq_draws (s : State) : (s.nextSeq).draws = s.draws := rfl
@[simp] theorem State.nextSeq_readReg (s : State) (r : Reg) : (s.nextSeq).readReg r = s.readReg r := rfl
@[simp] theorem State.nextSeq_readByte (s : State) (a : Nat) : (s.nextSeq).readByte a = s.readByte a := rfl
@[simp] theorem State.nextSeq_inBounds (s : State) (a : Word) (k : Nat) : (s.nextSeq).inBounds a k = s.inBounds a k := rfl
@[simp] theorem State.nextSeq_fetchRead (s : State) (a : Word) : (s.nextSeq).fetchRead a = s.fetchRead a := rfl
@[simp] theorem State.nextSeq_memRead (s : State) (a : Word) : (s.nextSeq).memRead a = s.memRead a := rfl
@[simp] theorem State.nextSeq_effectiveAddress (s : State) (r : Reg) (o : Imm16) :
    (s.nextSeq).effectiveAddress r o = s.effectiveAddress r o := rfl

end Sys2Proof.Machine
end

