-- ==== Sys2Proof/Laws/Ops.lean ====
section
/-! SUPPORT. What each shared operation over registers and memory can do, said once. -/

namespace Sys2Proof.Machine

/-! ### General registers -/

/-- A register write, under either setting: either it is discarded or it stores into `x[i]`. -/
theorem State.writeRegWith_cases (hw : Bool) (i : Reg) (v : Word) (s : State) :
    (hw = true ∧ i = 0 ∧ s.writeRegWith hw i v = s) ∨
      (¬ (hw = true ∧ i = 0) ∧ s.writeRegWith hw i v = s.setX (s.x.set i v)) := by
  by_cases h : hw = true ∧ i = 0
  · exact .inl ⟨h.1, h.2, by simp [State.writeRegWith, h]⟩
  · exact .inr ⟨h, by simp [State.writeRegWith, h]⟩

@[simp] theorem State.writeReg_pc (i : Reg) (v : Word) (s : State) : (s.writeReg i v).pc = s.pc := by
  rcases State.writeRegWith_cases Params.r0Hardwired i v s with ⟨_, _, h⟩ | ⟨_, h⟩ <;> simp [State.writeReg, h]

@[simp] theorem State.writeReg_hi (i : Reg) (v : Word) (s : State) : (s.writeReg i v).hi = s.hi := by
  rcases State.writeRegWith_cases Params.r0Hardwired i v s with ⟨_, _, h⟩ | ⟨_, h⟩ <;> simp [State.writeReg, h]

@[simp] theorem State.writeReg_lo (i : Reg) (v : Word) (s : State) : (s.writeReg i v).lo = s.lo := by
  rcases State.writeRegWith_cases Params.r0Hardwired i v s with ⟨_, _, h⟩ | ⟨_, h⟩ <;> simp [State.writeReg, h]

@[simp] theorem State.writeReg_mem (i : Reg) (v : Word) (s : State) : (s.writeReg i v).mem = s.mem := by
  rcases State.writeRegWith_cases Params.r0Hardwired i v s with ⟨_, _, h⟩ | ⟨_, h⟩ <;> simp [State.writeReg, h]

@[simp] theorem State.writeReg_memSize (i : Reg) (v : Word) (s : State) :
    (s.writeReg i v).memSize = s.memSize := by
  rcases State.writeRegWith_cases Params.r0Hardwired i v s with ⟨_, _, h⟩ | ⟨_, h⟩ <;> simp [State.writeReg, h]

@[simp] theorem State.writeReg_mstep (i : Reg) (v : Word) (s : State) :
    (s.writeReg i v).mstep = s.mstep := by
  rcases State.writeRegWith_cases Params.r0Hardwired i v s with ⟨_, _, h⟩ | ⟨_, h⟩ <;> simp [State.writeReg, h]

@[simp] theorem State.writeReg_ir (i : Reg) (v : Word) (s : State) : (s.writeReg i v).ir = s.ir := by
  rcases State.writeRegWith_cases Params.r0Hardwired i v s with ⟨_, _, h⟩ | ⟨_, h⟩ <;> simp [State.writeReg, h]

@[simp] theorem State.writeReg_kind (i : Reg) (v : Word) (s : State) : (s.writeReg i v).kind = s.kind := by
  rcases State.writeRegWith_cases Params.r0Hardwired i v s with ⟨_, _, h⟩ | ⟨_, h⟩ <;> simp [State.writeReg, h]

@[simp] theorem State.writeReg_alu (i : Reg) (v : Word) (s : State) : (s.writeReg i v).alu = s.alu := by
  rcases State.writeRegWith_cases Params.r0Hardwired i v s with ⟨_, _, h⟩ | ⟨_, h⟩ <;> simp [State.writeReg, h]

@[simp] theorem State.writeReg_draws (i : Reg) (v : Word) (s : State) :
    (s.writeReg i v).draws = s.draws := by
  rcases State.writeRegWith_cases Params.r0Hardwired i v s with ⟨_, _, h⟩ | ⟨_, h⟩ <;> simp [State.writeReg, h]

@[simp] theorem State.writeReg_readByte (i : Reg) (v : Word) (s : State) (a : Nat) :
    (s.writeReg i v).readByte a = s.readByte a := by simp [State.readByte]

/-- A register reads what was last written to it, and every other register reads as before: register 0
is not special while it is writable. -/
theorem State.readReg_writeReg (i j : Reg) (v : Word) (s : State) :
    (s.writeReg i v).readReg j = if j = i then v else s.readReg j := by
  have hp : Params.r0Hardwired = false := rfl
  by_cases h : j = i
  · subst h; simp [State.readReg, State.writeReg, State.readRegWith, State.writeRegWith, hp]
  · have : ¬ (i.val = j.val) := fun e => h (Fin.ext e.symm)
    simp [State.readReg, State.writeReg, State.readRegWith, State.writeRegWith, hp, h, this]

@[simp] theorem State.readReg_writeReg_self (i : Reg) (v : Word) (s : State) :
    (s.writeReg i v).readReg i = v := by simp [State.readReg_writeReg]

theorem State.readReg_writeReg_ne {i j : Reg} (h : j ≠ i) (v : Word) (s : State) :
    (s.writeReg i v).readReg j = s.readReg j := by simp [State.readReg_writeReg, h]

/-! ### Memory accesses -/

theorem State.inBounds_iff (s : State) (addr : Word) (n : Nat) :
    s.inBounds addr n = true ↔ uint addr + n ≤ s.memSize := by simp [State.inBounds]

/-- A read either gives the big-endian word in bounds, or names the access out of bounds. -/
theorem State.readAccess_cases (s : State) (kind : AccessKind) (addr : Word) :
    (uint addr + 4 ≤ s.memSize ∧ s.readAccess kind addr = .ok (Memory.readWord s.mem (uint addr))) ∨
      (¬ uint addr + 4 ≤ s.memSize ∧ s.readAccess kind addr = .error (.memoryOutOfBounds kind addr)) := by
  by_cases h : uint addr + 4 ≤ s.memSize
  · exact .inl ⟨h, by simp only [State.readAccess, (State.inBounds_iff s addr 4).mpr h, if_true]⟩
  · refine .inr ⟨h, ?_⟩
    have : s.inBounds addr 4 ≠ true := fun hb => h ((State.inBounds_iff s addr 4).mp hb)
    simp only [State.readAccess, this]; rfl

/-- A store either writes the four bytes in bounds, or names the access out of bounds. -/
theorem State.memWrite_cases (s : State) (addr v : Word) :
    (uint addr + 4 ≤ s.memSize ∧ s.memWrite addr v = .ok (s.setMem (Memory.writeWord s.mem (uint addr) v))) ∨
      (¬ uint addr + 4 ≤ s.memSize ∧ s.memWrite addr v = .error (.memoryOutOfBounds .store addr)) := by
  by_cases h : uint addr + 4 ≤ s.memSize
  · exact .inl ⟨h, by simp only [State.memWrite, (State.inBounds_iff s addr 4).mpr h, if_true]⟩
  · refine .inr ⟨h, ?_⟩
    have : s.inBounds addr 4 ≠ true := fun hb => h ((State.inBounds_iff s addr 4).mp hb)
    simp only [State.memWrite, this]; rfl

/-- A store's bytes, and every other byte, in a canonical memory. -/
theorem State.readByte_setMem_writeWord (s : State) (a k : Nat) (v : Word) (h : k < a ∨ a + 4 ≤ k) :
    (s.setMem (Memory.writeWord s.mem a v)).readByte k = s.readByte k :=
  Memory.read_writeWord_outside s.mem a k v h

end Sys2Proof.Machine
end

