-- ==== Sys2Proof/Laws/Exec.lean ====
section
/-! SUPPORT. What an instruction's effect can do, said once: the shape of `exec i s`, and that it does not
look at the hidden state. -/

namespace Sys2Proof.Machine

/-- The next `pc`s an effect can form: sequential, branch target, jump target. -/
def nextPcOf (i : Instr) (s : State) (p : Word) : Prop :=
  match i with
  | .beq _ _ v | .bne _ _ v | .blez _ v | .bgtz _ v => p = s.pc + 4#32 ∨ p = aluBranchTarget s.pc v
  | .j t | .jal t => p = aluJumpTarget s.pc t
  | .terminator => p = s.pc
  | .add _ _ _ | .sub _ _ _ | .mul _ _ | .and _ _ _ | .or _ _ _ | .xor _ _ _ | .not _ _ | .slt _ _ _
  | .addi _ _ _ | .slti _ _ _ | .andi _ _ _ | .ori _ _ _ | .lw _ _ _ | .sw _ _ _ => p = s.pc + 4#32

theorem State.nextSeq_eq (s : State) : s.nextSeq = s.setPc (s.pc + 4#32) := rfl

theorem State.setPc_self (s : State) : s.setPc s.pc = s := rfl

theorem commitReg_eq (d : Reg) (v : Word) (s : State) :
    commitReg d v s = .next ((s.writeReg d v).setPc (s.pc + 4#32)) := by
  simp [commitReg, State.nextSeq_eq]

theorem branch_eq (c : Bool) (v : Imm16) (s : State) :
    branch c v s = .next (s.setPc (if c then aluBranchTarget s.pc v else s.pc + 4#32)) := by
  cases c <;> rfl

/-- The inversion of `exec`: a register write, the `hi`/`lo` pair, a store, a `pc` write alone, or the
out-of-bounds error of `lw` or `sw`; always with a `pc` the instruction can form. -/
theorem exec_cases (i : Instr) (s : State) :
    (∃ d v p, destination i = some d ∧ nextPcOf i s p ∧ exec i s = .next ((s.writeReg d v).setPc p)) ∨
    (∃ rs rt, i = .mul rs rt ∧
      exec i s = .next ((s.setHiLo (aluMulHi (s.readReg rs) (s.readReg rt))
        (aluMulLo (s.readReg rs) (s.readReg rt))).setPc (s.pc + 4#32))) ∨
    (∃ rs rt v, i = .sw rs rt v ∧ uint (s.effectiveAddress rs v) + 4 ≤ s.memSize ∧
      exec i s = .next ((s.setMem (Memory.writeWord s.mem (uint (s.effectiveAddress rs v))
        (s.readReg rt))).setPc (s.pc + 4#32))) ∨
    (destination i = none ∧ (∀ rs rt, i ≠ .mul rs rt) ∧ (∀ rs rt v, i ≠ .sw rs rt v) ∧
      ∃ p, nextPcOf i s p ∧ exec i s = .next (s.setPc p)) ∨
    (∃ rs rt v, (i = .lw rs rt v ∧ ¬ uint (s.effectiveAddress rs v) + 4 ≤ s.memSize ∧
        exec i s = .fault (.memoryOutOfBounds .load (s.effectiveAddress rs v))) ∨
      (i = .sw rs rt v ∧ ¬ uint (s.effectiveAddress rs v) + 4 ≤ s.memSize ∧
        exec i s = .fault (.memoryOutOfBounds .store (s.effectiveAddress rs v)))) := by
  cases i with
  | add rs rt rd => exact .inl ⟨_, _, _, rfl, rfl, commitReg_eq _ _ _⟩
  | sub rs rt rd => exact .inl ⟨_, _, _, rfl, rfl, commitReg_eq _ _ _⟩
  | and rs rt rd => exact .inl ⟨_, _, _, rfl, rfl, commitReg_eq _ _ _⟩
  | or rs rt rd => exact .inl ⟨_, _, _, rfl, rfl, commitReg_eq _ _ _⟩
  | xor rs rt rd => exact .inl ⟨_, _, _, rfl, rfl, commitReg_eq _ _ _⟩
  | not rs rd => exact .inl ⟨_, _, _, rfl, rfl, commitReg_eq _ _ _⟩
  | slt rs rt rd => exact .inl ⟨_, _, _, rfl, rfl, commitReg_eq _ _ _⟩
  | addi rs rt v => exact .inl ⟨_, _, _, rfl, rfl, commitReg_eq _ _ _⟩
  | slti rs rt v => exact .inl ⟨_, _, _, rfl, rfl, commitReg_eq _ _ _⟩
  | andi rs rt v => exact .inl ⟨_, _, _, rfl, rfl, commitReg_eq _ _ _⟩
  | ori rs rt v => exact .inl ⟨_, _, _, rfl, rfl, commitReg_eq _ _ _⟩
  | jal t => exact .inl ⟨_, _, _, rfl, rfl, rfl⟩
  | mul rs rt => exact .inr (.inl ⟨rs, rt, rfl, rfl⟩)
  | beq rs rt v =>
    refine .inr (.inr (.inr (.inl ⟨rfl, by simp, by simp, _, ?_, branch_eq _ _ _⟩)))
    simp only [nextPcOf]; split <;> simp
  | bne rs rt v =>
    refine .inr (.inr (.inr (.inl ⟨rfl, by simp, by simp, _, ?_, branch_eq _ _ _⟩)))
    simp only [nextPcOf]; split <;> simp
  | blez rs v =>
    refine .inr (.inr (.inr (.inl ⟨rfl, by simp, by simp, _, ?_, branch_eq _ _ _⟩)))
    simp only [nextPcOf]; split <;> simp
  | bgtz rs v =>
    refine .inr (.inr (.inr (.inl ⟨rfl, by simp, by simp, _, ?_, branch_eq _ _ _⟩)))
    simp only [nextPcOf]; split <;> simp
  | j t => exact .inr (.inr (.inr (.inl ⟨rfl, by simp, by simp, _, rfl, rfl⟩)))
  | terminator => exact .inr (.inr (.inr (.inl ⟨rfl, by simp, by simp, _, rfl, rfl⟩)))
  | lw rs rt v =>
    rcases State.readAccess_cases s .load (s.effectiveAddress rs v) with ⟨_, hr⟩ | ⟨hb, hr⟩
    · refine .inl ⟨rt, Memory.readWord s.mem (uint (s.effectiveAddress rs v)), _, rfl, rfl, ?_⟩
      simp only [exec, execLw, State.memRead, hr]; exact commitReg_eq _ _ _
    · refine .inr (.inr (.inr (.inr ⟨rs, rt, v, .inl ⟨rfl, hb, ?_⟩⟩)))
      simp only [exec, execLw, State.memRead, hr, raise]
  | sw rs rt v =>
    rcases State.memWrite_cases s (s.effectiveAddress rs v) (s.readReg rt) with ⟨hb, hw⟩ | ⟨hb, hw⟩
    · refine .inr (.inr (.inl ⟨rs, rt, v, rfl, hb, ?_⟩))
      simp only [exec, execSw, hw]; rfl
    · refine .inr (.inr (.inr (.inr ⟨rs, rt, v, .inr ⟨rfl, hb, ?_⟩⟩)))
      simp only [exec, execSw, hw, raise]

/-! ### The hidden state -/

@[simp] theorem State.withHiddenOf_readReg (s h : State) (r : Reg) :
    (s.withHiddenOf h).readReg r = s.readReg r := rfl
@[simp] theorem State.withHiddenOf_pc (s h : State) : (s.withHiddenOf h).pc = s.pc := rfl
@[simp] theorem State.withHiddenOf_mem (s h : State) : (s.withHiddenOf h).mem = s.mem := rfl
@[simp] theorem State.withHiddenOf_memSize (s h : State) : (s.withHiddenOf h).memSize = s.memSize := rfl
@[simp] theorem State.withHiddenOf_effectiveAddress (s h : State) (r : Reg) (o : Imm16) :
    (s.withHiddenOf h).effectiveAddress r o = s.effectiveAddress r o := rfl
@[simp] theorem State.withHiddenOf_readAccess (s h : State) (k : AccessKind) (a : Word) :
    (s.withHiddenOf h).readAccess k a = s.readAccess k a := rfl
theorem State.setPc_withHiddenOf (s h : State) (p : Word) :
    (s.withHiddenOf h).setPc p = (s.setPc p).withHiddenOf h := rfl
theorem State.setHiLo_withHiddenOf (s h : State) (a b : Word) :
    (s.withHiddenOf h).setHiLo a b = (s.setHiLo a b).withHiddenOf h := rfl
theorem State.setMem_withHiddenOf (s h : State) (m : List Host.Cell) :
    (s.withHiddenOf h).setMem m = (s.setMem m).withHiddenOf h := rfl
theorem State.writeReg_withHiddenOf (s h : State) (i : Reg) (v : Word) :
    (s.withHiddenOf h).writeReg i v = (s.writeReg i v).withHiddenOf h := by
  unfold State.writeReg State.writeRegWith; split <;> rfl

/-- A state with its own hidden state, and one whose hidden state is replaced twice. -/
theorem State.withHiddenOf_self (s : State) : s.withHiddenOf s = s := rfl
theorem State.withHiddenOf_trans (s h k : State) : (s.withHiddenOf h).withHiddenOf k = s.withHiddenOf k := rfl

/-- Going idle forgets the hidden state but for the draw counter. -/
theorem State.idle_withHiddenOf (s h : State) (hd : h.draws = s.draws) : (s.withHiddenOf h).idle = s.idle := by
  simp [State.idle, State.withHiddenOf, hd]

theorem commitReg_withHiddenOf (d : Reg) (v : Word) (s h : State) :
    commitReg d v (s.withHiddenOf h) = mapNext (fun t => t.withHiddenOf h) (commitReg d v s) := by
  simp [commitReg, mapNext, State.writeReg_withHiddenOf, State.nextSeq_eq, State.setPc_withHiddenOf]

theorem branch_withHiddenOf (c : Bool) (v : Imm16) (s h : State) :
    branch c v (s.withHiddenOf h) = mapNext (fun t => t.withHiddenOf h) (branch c v s) := by
  cases c <;> rfl

end Sys2Proof.Machine
end

