-- ==== Sys2Proof/Laws/Loader.lean ====
section
/-! SUPPORT. Placing lines in order: its equations, and that it keeps the canonical form. -/

namespace Sys2Proof.Machine

@[simp] theorem placeLines_nil (m : List Host.Cell) : placeLines m [] = m := rfl

@[simp] theorem placeLines_cons (m : List Host.Cell) (l : Word × List Byte) (ls : List (Word × List Byte)) :
    placeLines m (l :: ls) = placeLines (Memory.writeBytes m (uint l.1) l.2) ls := rfl

theorem wf_placeLines (m : List Host.Cell) (ls : List (Word × List Byte)) (h : Memory.wf m) :
    Memory.wf (placeLines m ls) := by
  induction ls generalizing m with
  | nil => exact h
  | cons l ls ih => exact ih _ (Memory.wf_writeBytes _ _ _ h)

end Sys2Proof.Machine
end

