-- ==== Sys2Proof/Laws/Microstep.lean ====
section
/-! SUPPORT. What one microstep can do, said once, and what a whole instruction call comes to. -/

namespace Sys2Proof.Machine

/-- An effect looks at no hidden state and leaves it alone. -/
theorem exec_withHiddenOf (i : Instr) (s h : State) :
    exec i (s.withHiddenOf h) = mapNext (fun t => t.withHiddenOf h) (exec i s) := by
  cases i with
  | add rs rt rd => exact commitReg_withHiddenOf _ _ s h
  | sub rs rt rd => exact commitReg_withHiddenOf _ _ s h
  | mul rs rt => rfl
  | and rs rt rd => exact commitReg_withHiddenOf _ _ s h
  | or rs rt rd => exact commitReg_withHiddenOf _ _ s h
  | xor rs rt rd => exact commitReg_withHiddenOf _ _ s h
  | not rs rd => exact commitReg_withHiddenOf _ _ s h
  | slt rs rt rd => exact commitReg_withHiddenOf _ _ s h
  | bgtz rs v => exact branch_withHiddenOf _ _ s h
  | j t => rfl
  | jal t =>
    simp [exec, execJal, mapNext, State.writeReg_withHiddenOf, State.setPc_withHiddenOf]
  | beq rs rt v => exact branch_withHiddenOf _ _ s h
  | bne rs rt v => exact branch_withHiddenOf _ _ s h
  | blez rs v => exact branch_withHiddenOf _ _ s h
  | addi rs rt v => exact commitReg_withHiddenOf _ _ s h
  | slti rs rt v => exact commitReg_withHiddenOf _ _ s h
  | andi rs rt v => exact commitReg_withHiddenOf _ _ s h
  | ori rs rt v => exact commitReg_withHiddenOf _ _ s h
  | lw rs rt v =>
    rcases State.readAccess_cases s .load (s.effectiveAddress rs v) with ⟨_, hr⟩ | ⟨_, hr⟩
    · simp [exec, execLw, State.memRead, hr, commitReg_withHiddenOf]
    · simp [exec, execLw, State.memRead, hr, raise, mapNext]
  | sw rs rt v =>
    have hsame : (s.withHiddenOf h).memWrite (s.effectiveAddress rs v) (s.readReg rt) =
        match s.memWrite (s.effectiveAddress rs v) (s.readReg rt) with
        | .ok t => .ok (t.withHiddenOf h)
        | .error f => .error f := by
      unfold State.memWrite State.inBounds; simp only [State.withHiddenOf_memSize, State.withHiddenOf_mem]
      by_cases hb : uint (s.effectiveAddress rs v) + 4 ≤ s.memSize
      · simp only [hb, decide_true, if_true]; rfl
      · simp only [hb, decide_false]; rfl
    rcases State.memWrite_cases s (s.effectiveAddress rs v) (s.readReg rt) with ⟨_, hw⟩ | ⟨_, hw⟩
    · simp [exec, execSw, hsame, hw, mapNext, State.nextSeq_eq, State.setPc_withHiddenOf]
    · simp [exec, execSw, hsame, hw, mapNext, raise]
  | terminator => rfl

/-- Where an effect completes, the hidden state is as before. -/
theorem exec_next_hidden {i : Instr} {s t : State} (h : exec i s = .next t) : t.withHiddenOf s = t := by
  have := exec_withHiddenOf i s s
  rw [State.withHiddenOf_self, h] at this
  simpa [mapNext] using this.symm

theorem exec_next_draws {i : Instr} {s t : State} (h : exec i s = .next t) : t.draws = s.draws := by
  rw [← exec_next_hidden h]; rfl

/-- No effect refuses. -/
theorem exec_ne_refused (i : Instr) (s : State) (r : Refusal) : exec i s ≠ .refused r := by
  rcases exec_cases i s with ⟨_, _, _, _, _, h⟩ | ⟨_, _, _, h⟩ | ⟨_, _, _, _, _, h⟩ | ⟨_, _, _, _, _, h⟩ |
    ⟨_, _, _, ⟨_, _, h⟩ | ⟨_, _, h⟩⟩ <;> simp [h]

/-! ### The terminal microstep -/

/-- The terminal microstep does not depend on the hidden state, but for the draw counter. -/
theorem terminalMicrostep_withHiddenOf (i : Instr) (s h : State) (hd : h.draws = s.draws) :
    terminalMicrostep i (s.withHiddenOf h) = terminalMicrostep i s := by
  simp only [terminalMicrostep, exec_withHiddenOf]
  cases he : exec i s with
  | next t => simp [mapNext, State.idle_withHiddenOf t h (hd.trans (exec_next_draws he).symm)]
  | fault f => simp [mapNext, State.idle_withHiddenOf s h hd]
  | refused r => simp [mapNext, State.idle_withHiddenOf s h hd]

/-- The terminal microstep commits the effect, or returns its error with no write of it. -/
theorem terminalMicrostep_cases (i : Instr) (s : State) :
    (∃ t, exec i s = .next t ∧ terminalMicrostep i s = (.retired, t.idle)) ∨
      (∃ f, exec i s = .fault f ∧ terminalMicrostep i s = (.error f, s.idle)) := by
  cases he : exec i s with
  | next t => exact .inl ⟨t, rfl, by simp [terminalMicrostep, he]⟩
  | fault f => exact .inr ⟨f, rfl, by simp [terminalMicrostep, he]⟩
  | refused r => exact absurd he (exec_ne_refused i s r)

/-! ### A non-terminal microstep -/

/-- A non-terminal microstep only counts and moves the latches. -/
theorem intermediateMicrostep_eq (i : Instr) (s : State) :
    ∃ h : State, h.mstep = s.mstep + 1 ∧ h.ir = s.ir ∧ h.kind = s.kind ∧ h.draws = s.draws ∧
      intermediateMicrostep i s = (.continued, s.withHiddenOf h) :=
  ⟨(s.setAlu (aluPhase i s.mstep s)).setMstep (s.mstep + 1), rfl, rfl, rfl, rfl, rfl⟩

/-- The inversion of a call with no instruction in flight. -/
theorem firstMicrostep_cases (s : State) :
    (¬ uint s.pc + 4 ≤ s.memSize ∧ s.fetchRead s.pc = .error (.memoryOutOfBounds .fetch s.pc) ∧
      firstMicrostep s = (.error (.memoryOutOfBounds .fetch s.pc), s)) ∨
    (uint s.pc + 4 ≤ s.memSize ∧ s.fetchRead s.pc = .ok 0#32 ∧ firstMicrostep s = (.exhausted s.pc, s)) ∨
    (∃ w e, s.fetchRead s.pc = .ok w ∧ decode w = .error e ∧
      firstMicrostep s = (.error (.unknownOpcode w), s)) ∨
    (∃ w i, s.fetchRead s.pc = .ok w ∧ decode w = .ok i ∧ i ≠ .terminator ∧
      firstMicrostep s = microstepOf i (s.setFetched w i)) := by
  rcases State.readAccess_cases s .fetch s.pc with ⟨hb, hr⟩ | ⟨hb, hr⟩
  · cases hd : decode (Memory.readWord s.mem (uint s.pc)) with
    | error e =>
      refine .inr (.inr (.inl ⟨_, e, hr, hd, ?_⟩))
      simp only [firstMicrostep, State.fetchRead, hr, hd]
    | ok i =>
      by_cases hi : i = .terminator
      · subst hi
        have hw : Memory.readWord s.mem (uint s.pc) = 0#32 := by
          by_contra hne
          simp only [decode, hne, if_false] at hd
          split at hd
          · simp only [decodeRType] at hd; split at hd <;> simp at hd
          · simp only [decodeIType] at hd; split at hd <;> simp at hd
        rw [hw] at hr
        refine .inr (.inl ⟨hb, hr, ?_⟩)
        have hd0 : decode 0#32 = .ok .terminator := rfl
        simp only [firstMicrostep, State.fetchRead, hr, hd0]; rfl
      · refine .inr (.inr (.inr ⟨_, i, hr, hd, hi, ?_⟩))
        simp only [firstMicrostep, State.fetchRead, hr, hd]
  · exact .inl ⟨hb, hr, by simp only [firstMicrostep, State.fetchRead, hr]⟩

/-! ### Whole instruction calls -/

/-- Every instruction takes at least one microstep and at most seven. -/
theorem microsteps_bounds (i : Instr) : 1 ≤ Params.microsteps i ∧ Params.microsteps i ≤ 7 := by
  cases i <;> simp [Params.microsteps]

/-- With an instruction in flight, enough calls come to its terminal microstep. -/
theorem runMicrosteps_inFlight (n : Nat) (s : State) (h0 : s.mstep ≠ 0) (hn : 1 ≤ n)
    (hN : Params.microsteps s.kind ≤ s.mstep + n) : runMicrosteps n s = terminalMicrostep s.kind s := by
  induction n generalizing s with
  | zero => omega
  | succ n ih =>
    have hrun : runMicrostep s = microstepOf s.kind s := by simp [runMicrostep, h0]
    by_cases hlt : s.mstep + 1 < Params.microsteps s.kind
    · obtain ⟨h, h1, h2, h3, h4, he⟩ := intermediateMicrostep_eq s.kind s
      rw [runMicrosteps, hrun]
      simp only [microstepOf, hlt, if_true, he]
      rw [ih (s.withHiddenOf h) (by show h.mstep ≠ 0; omega) (by omega)
        (by show Params.microsteps h.kind ≤ h.mstep + n; rw [h1, h3]; omega)]
      show terminalMicrostep h.kind _ = _
      rw [h3, terminalMicrostep_withHiddenOf _ _ _ h4]
    · rw [runMicrosteps, hrun]
      simp only [microstepOf, hlt, if_false]
      rcases terminalMicrostep_cases s.kind s with ⟨t, _, h⟩ | ⟨f, _, h⟩ <;> simp [h]

/-- A call with an instruction in flight completes it. -/
theorem runInstruction_inFlight (s : State) (h0 : s.mstep ≠ 0) :
    runInstruction s = terminalMicrostep s.kind s :=
  runMicrosteps_inFlight 7 s h0 (by omega) (by have := (microsteps_bounds s.kind).2; omega)

/-- With none in flight, a call runs the decoded instruction whole. -/
theorem runInstruction_decoded {s : State} {w : Word} {i : Instr} (h0 : s.mstep = 0)
    (hf : s.fetchRead s.pc = .ok w) (hd : decode w = .ok i) (hi : i ≠ .terminator) :
    runInstruction s = terminalMicrostep i s := by
  have hfirst : firstMicrostep s = microstepOf i (s.setFetched w i) := by
    simp only [firstMicrostep, hf, hd]
  have hset : s.setFetched w i = s.withHiddenOf (s.setFetched w i) := rfl
  have hterm : terminalMicrostep i (s.setFetched w i) = terminalMicrostep i s := by
    rw [hset]; exact terminalMicrostep_withHiddenOf i s _ rfl
  have hrun : runMicrostep s = microstepOf i (s.setFetched w i) := by simp [runMicrostep, h0, hfirst]
  show runMicrosteps (6 + 1) s = _
  rw [runMicrosteps, hrun]
  by_cases hlt : (s.setFetched w i).mstep + 1 < Params.microsteps i
  · obtain ⟨h, h1, h2, h3, h4, he⟩ := intermediateMicrostep_eq i (s.setFetched w i)
    simp only [microstepOf, hlt, if_true, he]
    have hb := (microsteps_bounds i).2
    have hk : h.kind = i := h3
    have hm : h.mstep = s.mstep + 1 := h1
    have hdr : h.draws = s.draws := h4
    have hstate : (s.setFetched w i).withHiddenOf h = s.withHiddenOf h := rfl
    rw [hstate, runMicrosteps_inFlight 6 (s.withHiddenOf h) (by show h.mstep ≠ 0; omega) (by omega)
      (by show Params.microsteps h.kind ≤ h.mstep + 6; rw [hk]; omega)]
    show terminalMicrostep h.kind _ = _
    rw [hk, terminalMicrostep_withHiddenOf _ _ _ hdr]
  · simp only [microstepOf, hlt, if_false, hterm]
    rcases terminalMicrostep_cases i s with ⟨t, _, h⟩ | ⟨f, _, h⟩ <;> simp [h]

end Sys2Proof.Machine
end

