-- ==== Sys2Proof/Laws/PerInstr.lean ====
section
/-! SUPPORT. Per-instruction families. TableRow: the encoded word of an instruction lies in the opcode
table's row of its mnemonic. -/

namespace Sys2Proof.Laws.TableRow

/-- The row of `i`'s mnemonic is in the opcode table and covers `i`'s word. -/
def Statement (i : Instr) : Prop := ∃ r ∈ opcodeTable, r.mnemonic = i.mnemonic ∧ r.covers (encode i) = true

theorem add (rs rt rd : Reg) : Statement (.add rs rt rd) := by
  refine ⟨⟨"add", 0x00000020#32, 0xFC00003F#32⟩, by simp [opcodeTable], rfl, ?_⟩
  refine (covers_funct _ _ 0x00000020#32 0x20#6 rfl).mpr ⟨?_, ?_⟩ <;> simp [encode]

theorem sub (rs rt rd : Reg) : Statement (.sub rs rt rd) := by
  refine ⟨⟨"sub", 0x00000022#32, 0xFC00003F#32⟩, by simp [opcodeTable], rfl, ?_⟩
  refine (covers_funct _ _ 0x00000022#32 0x22#6 rfl).mpr ⟨?_, ?_⟩ <;> simp [encode]

theorem mul (rs rt : Reg) : Statement (.mul rs rt) := by
  refine ⟨⟨"mul", 0x00000018#32, 0xFC00003F#32⟩, by simp [opcodeTable], rfl, ?_⟩
  refine (covers_funct _ _ 0x00000018#32 0x18#6 rfl).mpr ⟨?_, ?_⟩ <;> simp [encode]

theorem and (rs rt rd : Reg) : Statement (.and rs rt rd) := by
  refine ⟨⟨"and", 0x00000024#32, 0xFC00003F#32⟩, by simp [opcodeTable], rfl, ?_⟩
  refine (covers_funct _ _ 0x00000024#32 0x24#6 rfl).mpr ⟨?_, ?_⟩ <;> simp [encode]

theorem or (rs rt rd : Reg) : Statement (.or rs rt rd) := by
  refine ⟨⟨"or", 0x00000025#32, 0xFC00003F#32⟩, by simp [opcodeTable], rfl, ?_⟩
  refine (covers_funct _ _ 0x00000025#32 0x25#6 rfl).mpr ⟨?_, ?_⟩ <;> simp [encode]

theorem xor (rs rt rd : Reg) : Statement (.xor rs rt rd) := by
  refine ⟨⟨"xor", 0x00000026#32, 0xFC00003F#32⟩, by simp [opcodeTable], rfl, ?_⟩
  refine (covers_funct _ _ 0x00000026#32 0x26#6 rfl).mpr ⟨?_, ?_⟩ <;> simp [encode]

theorem not (rs rd : Reg) : Statement (.not rs rd) := by
  refine ⟨⟨"not", 0x00000027#32, 0xFC00003F#32⟩, by simp [opcodeTable], rfl, ?_⟩
  refine (covers_funct _ _ 0x00000027#32 0x27#6 rfl).mpr ⟨?_, ?_⟩ <;> simp [encode]

theorem slt (rs rt rd : Reg) : Statement (.slt rs rt rd) := by
  refine ⟨⟨"slt", 0x0000002A#32, 0xFC00003F#32⟩, by simp [opcodeTable], rfl, ?_⟩
  refine (covers_funct _ _ 0x0000002A#32 0x2A#6 rfl).mpr ⟨?_, ?_⟩ <;> simp [encode]

theorem bgtz (rs : Reg) (v : Imm16) : Statement (.bgtz rs v) := by
  refine ⟨⟨"bgtz", 0x04000000#32, 0xFC000000#32⟩, by simp [opcodeTable], rfl, ?_⟩
  exact (covers_opcode _ _ 0x04000000#32 0x01#6 rfl).mpr (by simp [encode])

theorem j (v : Imm26) : Statement (.j v) := by
  refine ⟨⟨"j", 0x08000000#32, 0xFC000000#32⟩, by simp [opcodeTable], rfl, ?_⟩
  exact (covers_opcode _ _ 0x08000000#32 0x02#6 rfl).mpr (by simp [encode])

theorem jal (v : Imm26) : Statement (.jal v) := by
  refine ⟨⟨"jal", 0x0C000000#32, 0xFC000000#32⟩, by simp [opcodeTable], rfl, ?_⟩
  exact (covers_opcode _ _ 0x0C000000#32 0x03#6 rfl).mpr (by simp [encode])

theorem beq (rs rt : Reg) (v : Imm16) : Statement (.beq rs rt v) := by
  refine ⟨⟨"beq", 0x10000000#32, 0xFC000000#32⟩, by simp [opcodeTable], rfl, ?_⟩
  exact (covers_opcode _ _ 0x10000000#32 0x04#6 rfl).mpr (by simp [encode])

theorem bne (rs rt : Reg) (v : Imm16) : Statement (.bne rs rt v) := by
  refine ⟨⟨"bne", 0x14000000#32, 0xFC000000#32⟩, by simp [opcodeTable], rfl, ?_⟩
  exact (covers_opcode _ _ 0x14000000#32 0x05#6 rfl).mpr (by simp [encode])

theorem blez (rs : Reg) (v : Imm16) : Statement (.blez rs v) := by
  refine ⟨⟨"blez", 0x18000000#32, 0xFC000000#32⟩, by simp [opcodeTable], rfl, ?_⟩
  exact (covers_opcode _ _ 0x18000000#32 0x06#6 rfl).mpr (by simp [encode])

theorem addi (rs rt : Reg) (v : Imm16) : Statement (.addi rs rt v) := by
  refine ⟨⟨"addi", 0x20000000#32, 0xFC000000#32⟩, by simp [opcodeTable], rfl, ?_⟩
  exact (covers_opcode _ _ 0x20000000#32 0x08#6 rfl).mpr (by simp [encode])

theorem slti (rs rt : Reg) (v : Imm16) : Statement (.slti rs rt v) := by
  refine ⟨⟨"slti", 0x28000000#32, 0xFC000000#32⟩, by simp [opcodeTable], rfl, ?_⟩
  exact (covers_opcode _ _ 0x28000000#32 0x0A#6 rfl).mpr (by simp [encode])

theorem andi (rs rt : Reg) (v : Imm16) : Statement (.andi rs rt v) := by
  refine ⟨⟨"andi", 0x30000000#32, 0xFC000000#32⟩, by simp [opcodeTable], rfl, ?_⟩
  exact (covers_opcode _ _ 0x30000000#32 0x0C#6 rfl).mpr (by simp [encode])

theorem ori (rs rt : Reg) (v : Imm16) : Statement (.ori rs rt v) := by
  refine ⟨⟨"ori", 0x34000000#32, 0xFC000000#32⟩, by simp [opcodeTable], rfl, ?_⟩
  exact (covers_opcode _ _ 0x34000000#32 0x0D#6 rfl).mpr (by simp [encode])

theorem lw (rs rt : Reg) (v : Imm16) : Statement (.lw rs rt v) := by
  refine ⟨⟨"lw", 0x8C000000#32, 0xFC000000#32⟩, by simp [opcodeTable], rfl, ?_⟩
  exact (covers_opcode _ _ 0x8C000000#32 0x23#6 rfl).mpr (by simp [encode])

theorem sw (rs rt : Reg) (v : Imm16) : Statement (.sw rs rt v) := by
  refine ⟨⟨"sw", 0xAC000000#32, 0xFC000000#32⟩, by simp [opcodeTable], rfl, ?_⟩
  exact (covers_opcode _ _ 0xAC000000#32 0x2B#6 rfl).mpr (by simp [encode])

theorem terminator : Statement .terminator := by
  refine ⟨⟨"(terminator)", 0x00000000#32, 0xFFFFFFFF#32⟩, by simp [opcodeTable], rfl, ?_⟩
  exact (covers_terminator _ _).mpr rfl

end Sys2Proof.Laws.TableRow
end

