-- ==== Sys2Proof/Tests/Slice0.lean ====
section
/-! SUPPORT. Tests of the model and witnesses for the obligations' hypotheses. Words and expected values
are those of 95_test_vectors.md, or worked out by hand from the rule a comment names. -/

set_option maxRecDepth 8000

namespace Sys2Proof.Tests
open Sys2Proof.Machine

/-! ### A small machine -/

/-- `MEM_SIZE = 64` (the vectors' convention), with registers and memory bytes set. -/
def machine (pc : Word) (regs : List (Reg × Word)) (bytes : List (Nat × List Byte)) : State :=
  regs.foldl (fun s p => s.writeReg p.1 p.2)
    (((State.construct 64).setPc pc).setMem (bytes.foldl (fun m p => Memory.writeBytes m p.1 p.2) []))

/-- A machine with one word at `pc`. -/
def machineAt (pc w : Word) (regs : List (Reg × Word)) : State := machine pc regs [(pc.toNat, bytesOfWord w)]

/-- What an outcome's next state shows. -/
def shows {α : Type} (g : State → α) : Host.Outcome State Fault Refusal → Option α
  | .next t => some (g t)
  | .fault _ => none
  | .refused _ => none

/-- An outcome's fault. -/
def faultOf : Host.Outcome State Fault Refusal → Option Fault
  | .next _ => none
  | .fault f => some f
  | .refused _ => none

/-- `pc` and one register. -/
def pcAnd (r : Reg) (t : State) : Word × Word := (t.pc, t.readReg r)

/-- `pc`, `hi` and `lo`. -/
def pcHiLo (t : State) : Word × Word × Word := (t.pc, t.hi, t.lo)

/-- `pc` and the four bytes at an index. -/
def pcAndBytes (a : Nat) (t : State) : Word × List Byte := (t.pc, t.segment a 4)

/-! ### WellFormed refuses what does not fit -/

theorem test_wellFormed_reg_refused : regOfNat? 32 = none := by decide
theorem test_wellFormed_reg_last : regOfNat? 31 = some 31 := by decide
theorem test_wellFormed_imm16_refused : imm16OfNat? 65536 = none := by decide
theorem test_wellFormed_imm26_refused : imm26OfNat? (2 ^ 26) = none := by decide
theorem test_wellFormed_field5_refused : fieldFits 5 32 = false := by decide
theorem test_wellFormed_field16_refused : fieldFits 16 65536 = false := by decide
theorem test_wellFormed_field26_refused : fieldFits 26 67108864 = false := by decide
theorem test_wellFormed_fields_last :
    (fieldFits 5 31 && fieldFits 16 65535 && fieldFits 26 67108863) = true := by decide

/-! ### Decoding: one word per constructor, as the spec writes it (95_test_vectors.md L1, L2) -/

theorem test_decode_add : decode 0x01095020#32 = .ok (.add 8 9 10) := by decide
theorem test_decode_sub : decode 0x01495022#32 = .ok (.sub 10 9 10) := by decide
theorem test_decode_mul : decode 0x01090018#32 = .ok (.mul 8 9) := by decide
theorem test_decode_and : decode 0x01095024#32 = .ok (.and 8 9 10) := by decide
theorem test_decode_or : decode 0x01095025#32 = .ok (.or 8 9 10) := by decide
theorem test_decode_xor : decode 0x01095026#32 = .ok (.xor 8 9 10) := by decide
theorem test_decode_not : decode 0x01005027#32 = .ok (.not 8 10) := by decide
theorem test_decode_slt : decode 0x0109502A#32 = .ok (.slt 8 9 10) := by decide
theorem test_decode_bgtz : decode 0x05000002#32 = .ok (.bgtz 8 2#16) := by decide
theorem test_decode_j : decode 0x0BFFFFFF#32 = .ok (.j 0x3FFFFFF#26) := by decide
theorem test_decode_jal : decode 0x0C000004#32 = .ok (.jal 4#26) := by decide
theorem test_decode_beq : decode 0x11090003#32 = .ok (.beq 8 9 3#16) := by decide
theorem test_decode_bne : decode 0x1500FFFE#32 = .ok (.bne 8 0 0xFFFE#16) := by decide
theorem test_decode_blez : decode 0x19050002#32 = .ok (.blez 8 2#16) := by decide
theorem test_decode_addi : decode 0x2109FFFF#32 = .ok (.addi 8 9 0xFFFF#16) := by decide
theorem test_decode_slti : decode 0x29098000#32 = .ok (.slti 8 9 0x8000#16) := by decide
theorem test_decode_andi : decode 0x3109FF00#32 = .ok (.andi 8 9 0xFF00#16) := by decide
theorem test_decode_ori : decode 0x34088001#32 = .ok (.ori 0 8 0x8001#16) := by decide
theorem test_decode_lw : decode 0x8FAAFFFC#32 = .ok (.lw 29 10 0xFFFC#16) := by decide
theorem test_decode_sw : decode 0xAFA8FFFE#32 = .ok (.sw 29 8 0xFFFE#16) := by decide
theorem test_decode_terminator : decode 0x00000000#32 = .ok .terminator := by decide
/-- A word written bit by bit from R82: opcode 0, rs 8, rt 9, rd 10, shamt 31, funct 0x20. -/
theorem test_decode_bits :
    decode (0b000000#6 ++ 0b01000#5 ++ 0b01001#5 ++ 0b01010#5 ++ 0b11111#5 ++ 0b100000#6) =
      .ok (.add 8 9 10) := by decide
/-- The vectors' UNKNOWN words. -/
theorem test_decode_unknown :
    [0x000007C0#32, 0x00000008#32, 0x0000000C#32, 0x00004010#32, 0x1C000000#32, 0xFC000000#32].all
      (fun w => decide (decode w = .error (.unknownOpcode w))) = true := by decide
theorem test_decode_tooFew : decodeBytes [0x20#8, 0x08#8, 0x00#8] = .error (.tooFewBytes 3) := by decide
/-- The first byte of an instruction holds its opcode (R54, R56). -/
theorem test_decodeBytes_order :
    decodeBytes [0x20#8, 0x08#8, 0x00#8, 0x05#8, 0xAA#8] = .ok (.addi 0 8 5#16, [0xAA#8]) := by decide
theorem test_decodeTableWord : decodeTableWord 32 0x8C000000 = some (.lw 0 0 0#16) := by decide
/-- 95_test_vectors.md, bit fields. -/
theorem test_grab :
    (grabRight 0xFFFFFFFF#32 6, grabRight 0x8FAAFFFC#32 16, grabLeft 0x8FAAFFFC#32 6, grabLeft 0x80000000#32 6,
      grabLeft 0xFC000000#32 6, grabRight (grabLeft 0x8FAAFFFC#32 11) 5) =
    (0x3F#32, 0xFFFC#32, 0x23#32, 0x20#32, 0x3F#32, 29#32) := by decide
/-- R97's row for `sw` and the syntax of E5. -/
theorem test_assemble_sw :
    (assemble ⟨"sw", [.reg 8, .mem 0#16 29]⟩).map encode = some 0xAFA80000#32 := by decide
theorem test_assemble_label : labelOffset? 16#32 8#32 = some 0xFFFE#16 := by decide

/-! ### Register-register instructions: one step from the word (E1, E2, L2) -/

theorem test_add_wraps :
    shows (pcAnd 10) (step (machineAt 0#32 0x01095020#32 [(8, 0xFFFFFFFF#32), (9, 1#32)])) =
      some (4#32, 0#32) := by decide
/-- The source register is read before it is written. -/
theorem test_add_same_register :
    shows (pcAnd 8) (step (machineAt 0#32 0x01084020#32 [(8, 5#32)])) = some (4#32, 10#32) := by decide
theorem test_sub_order :
    shows (pcAnd 10) (step (machineAt 0#32 0x01095022#32 [(8, 3#32), (9, 4#32)])) =
      some (4#32, 0xFFFFFFFF#32) := by decide
theorem test_mul_negative :
    shows pcHiLo (step (machineAt 0#32 0x01090018#32 [(8, 0xFFFFFFFF#32), (9, 1#32)])) =
      some (4#32, 0xFFFFFFFF#32, 0xFFFFFFFF#32) := by decide
theorem test_mul_minimum :
    shows pcHiLo (step (machineAt 0#32 0x01090018#32 [(8, 0x80000000#32), (9, 0x7FFFFFFF#32)])) =
      some (4#32, 0xC0000000#32, 0x80000000#32) := by decide
theorem test_and :
    shows (pcAnd 10) (step (machineAt 0#32 0x01095024#32 [(8, 0xF0F0F0F0#32), (9, 0xFF00FF00#32)])) =
      some (4#32, 0xF000F000#32) := by decide
theorem test_or :
    shows (pcAnd 10) (step (machineAt 0#32 0x01095025#32 [(8, 0xF0F0F0F0#32), (9, 0xFF00FF00#32)])) =
      some (4#32, 0xFFF0FFF0#32) := by decide
theorem test_xor :
    shows (pcAnd 10) (step (machineAt 0#32 0x01095026#32 [(8, 0xF0F0F0F0#32), (9, 0xFF00FF00#32)])) =
      some (4#32, 0x0FF00FF0#32) := by decide
/-- `rt` = 9 is ignored (R147). -/
theorem test_not_reads_rs :
    shows (pcAnd 10) (step (machineAt 0#32 0x01095027#32 [(8, 0x0000FFFF#32), (9, 0x12345678#32)])) =
      some (4#32, 0xFFFF0000#32) := by decide
theorem test_slt_signed :
    shows (pcAnd 10) (step (machineAt 0#32 0x0109502A#32 [(8, 0#32), (9, 0xFFFFFFFF#32)])) =
      some (4#32, 0#32) := by decide
theorem test_slt_minimum :
    shows (pcAnd 10) (step (machineAt 0#32 0x0109502A#32 [(8, 0x80000000#32), (9, 0x7FFFFFFF#32)])) =
      some (4#32, 1#32) := by decide
/-- Register 0 is writable (R22). -/
theorem test_register_zero_written :
    shows (pcAnd 0) (step (machineAt 0#32 0x01090020#32 [(8, 3#32), (9, 4#32)])) = some (4#32, 7#32) := by decide
/-- The other setting of `R0_HARDWIRED` (D1). -/
theorem test_register_zero_hardwired :
    ((machine 0#32 [] []).writeRegWith true 0 7#32).readRegWith true 0 = 0#32 := by decide

/-! ### Register-immediate instructions (E3, L2) -/

theorem test_addi_sign_extends :
    shows (pcAnd 8) (step (machineAt 0#32 0x2108FFFF#32 [(8, 5#32)])) = some (4#32, 4#32) := by decide
theorem test_addi_wraps :
    shows (pcAnd 9) (step (machineAt 0#32 0x21097FFF#32 [(8, 0x7FFFFFFF#32)])) =
      some (4#32, 0x80007FFE#32) := by decide
theorem test_slti_negative :
    shows (pcAnd 9) (step (machineAt 0#32 0x2909FFFF#32 [(8, 0xFFFFFFF9#32)])) = some (4#32, 1#32) := by decide
theorem test_slti_equal :
    shows (pcAnd 9) (step (machineAt 0#32 0x29090005#32 [(8, 5#32)])) = some (4#32, 0#32) := by decide
theorem test_andi_zero_extends :
    shows (pcAnd 9) (step (machineAt 0#32 0x31098000#32 [(8, 0xFFFFFFFF#32)])) =
      some (4#32, 0x00008000#32) := by decide
theorem test_ori_zero_extends :
    shows (pcAnd 9) (step (machineAt 0#32 0x35098001#32 [(8, 0x12340000#32)])) =
      some (4#32, 0x12348001#32) := by decide

/-! ### Loads and stores (L2) -/

/-- The vectors' start state: `M[56..59] = FF FF FF F9`, the word at 0. -/
def memoryMachine (w r8 : Word) : State :=
  machine 0#32 [(8, r8)] [(0, bytesOfWord w), (56, [0xFF#8, 0xFF#8, 0xFF#8, 0xF9#8])]

theorem test_lw_misaligned :
    shows (pcAnd 10) (step (memoryMachine 0x8FAAFFFD#32 0#32)) = some (4#32, 0xFFFFF900#32) := by decide
theorem test_lw_one_past_end :
    faultOf (step (memoryMachine 0x8FAA0001#32 0#32)) = some (.memoryOutOfBounds .load 61#32) := by decide
theorem test_sw_misaligned :
    shows (pcAndBytes 58) (step (memoryMachine 0xAFA8FFFE#32 0x11223344#32)) =
      some (4#32, [0x11#8, 0x22#8, 0x33#8, 0x44#8]) := by decide
theorem test_sw_one_past_end :
    faultOf (step (memoryMachine 0xAFA80001#32 0x11223344#32)) = some (.memoryOutOfBounds .store 61#32) := by
  decide
theorem test_lw_negative_address :
    faultOf (exec (.lw 0 8 0xFFFC#16) (memoryMachine 0#32 0#32)) =
      some (.memoryOutOfBounds .load 0xFFFFFFFC#32) := by decide
/-- Writing 0 over a byte keeps the canonical form (log 23). -/
theorem test_memory_write_zero : Memory.write [(3, 1#8), (7, 2#8)] 3 0#8 = [(7, 2#8)] := by decide

/-! ### Control transfer (E7, L2) -/

theorem test_beq_taken :
    shows State.pc (step (machineAt 16#32 0x11090003#32 [(8, 7#32), (9, 7#32)])) = some 28#32 := by decide
theorem test_beq_not_taken :
    shows State.pc (step (machineAt 16#32 0x11090003#32 [(8, 7#32), (9, 8#32)])) = some 20#32 := by decide
theorem test_bne_backward :
    shows State.pc (step (machineAt 16#32 0x1500FFFE#32 [(8, 2#32)])) = some 8#32 := by decide
theorem test_bne_not_taken :
    shows State.pc (step (machineAt 16#32 0x1500FFFE#32 [(8, 0#32)])) = some 20#32 := by decide
theorem test_blez_minimum :
    shows State.pc (step (machineAt 8#32 0x19000002#32 [(8, 0x80000000#32)])) = some 16#32 := by decide
theorem test_blez_one :
    shows State.pc (step (machineAt 8#32 0x19000002#32 [(8, 1#32)])) = some 12#32 := by decide
theorem test_bgtz_positive :
    shows State.pc (step (machineAt 8#32 0x05000002#32 [(8, 5#32)])) = some 16#32 := by decide
theorem test_bgtz_minimum :
    shows State.pc (step (machineAt 8#32 0x05000002#32 [(8, 0x80000000#32)])) = some 12#32 := by decide
theorem test_j :
    shows State.pc (step (machineAt 8#32 0x08000007#32 [])) = some 28#32 := by decide
/-- The region bits of the jump's own address are kept. -/
theorem test_j_region :
    shows State.pc (exec (.j 1#26) (machine 0x10000004#32 [] [])) = some 0x10000004#32 := by decide
theorem test_jal :
    shows (pcAnd 31) (step (machineAt 0#32 0x0C000004#32 [])) = some (16#32, 4#32) := by decide
theorem test_jal_region_end :
    shows (pcAnd 31) (exec (.jal 0#26) (machine 0x0FFFFFFC#32 [] [])) = some (0#32, 0x10000000#32) := by decide

/-! ### Microsteps, results, runs (L2, L3) -/

/-- Result codes of `n` successive `runMicrostep` calls (R111). -/
def resultCodes : Nat → State → List (Option Nat)
  | 0, _ => []
  | n + 1, s => (runMicrostep s).1.code :: resultCodes n (runMicrostep s).2

theorem test_microsteps_mul :
    resultCodes 7 (machineAt 0#32 0x01090018#32 []) =
      [some 0, some 0, some 0, some 0, some 0, some 0, some 1] := by decide
theorem test_microsteps_jal : resultCodes 2 (machineAt 0#32 0x0C000004#32 []) = [some 0, some 1] := by decide
theorem test_microsteps_load_fault :
    resultCodes 3 (memoryMachine 0x8FAA0001#32 0#32) = [some 0, some 0, some 3] := by decide
theorem test_microsteps_exhausted : resultCodes 2 (machine 0#32 [] []) = [some 2, some 2] := by decide
theorem test_microsteps_unknown : resultCodes 2 (machineAt 0#32 0xFC000000#32 []) = [some 4, some 4] := by decide
theorem test_fetch_past_end :
    (runMicrostep (machine 62#32 [] [])).1 = .error (.memoryOutOfBounds .fetch 62#32) := by decide
/-- The ALU has the result of `add` before the commit, and `x[10]` has not (R116, R120). -/
theorem test_microsteps_latches :
    (((afterMicrosteps 4 (machineAt 0#32 0x01095020#32 [(8, 3#32), (9, 4#32)])).alu.res,
      (afterMicrosteps 4 (machineAt 0#32 0x01095020#32 [(8, 3#32), (9, 4#32)])).readReg 10)) =
      (7#32, 0#32) := by decide
/-- Three calls, then `setPC`, then `runInstruction`: the instruction runs once (R126). -/
theorem test_setPC_restarts :
    (runInstruction (setPC 0#32 (afterMicrosteps 3
      (machineAt 0#32 0x01094020#32 [(8, 1#32), (9, 2#32)])))).2.readReg 8 = 3#32 := by decide
/-- Program P1. -/
theorem test_program_first :
    (fun r => (decide (r.1 = .ended (.exhausted 4#32)), pcAnd 8 r.2))
      (runToCompletion 2 (machineAt 0#32 0x20080005#32 [])) = (true, 4#32, 5#32) := by decide
/-- A free draw is taken once per instruction, whatever it gives (log 11). -/
theorem test_draws : shows State.draws (step (machineAt 0#32 0x08000007#32 [])) = some 1 := by decide
/-- The host's hook runs the placed word first after reset. -/
theorem test_withFetchWord :
    shows (pcAnd 8) (step (State.reset.withFetchWord 32 0x20080005)) = some (4#32, 5#32) := by decide
/-- With nothing loaded the machine rests at the terminator (log 17). -/
theorem test_reset_rests : shows State.pc (step State.reset) = some 0#32 := by decide

/-! ### Construction, loader, codec (L2, E4) -/

theorem test_construct_refused : (construct 3, construct 2147483648) = (none, none) := by decide
theorem test_construct_sp : (construct 64).map (fun s => s.readReg 29) = some 60#32 := by decide
/-- `MEM_SIZE = 64`, a fresh CORE: result, and the first five bytes. -/
def loadShows (text : String) : LoadResult × List Byte :=
  ((loadProgram text.toList (State.construct 64)).1, (loadProgram text.toList (State.construct 64)).2.segment 0 5)

theorem test_load_line :
    loadShows "0x0:00100000 00001000 00000000 00000101" =
      (.loaded 1, [0x20#8, 0x08#8, 0x00#8, 0x05#8, 0x00#8]) := by decide
theorem test_load_blank_line :
    loadShows "0x0:00000001\n\n0x4:00000010" = (.loaded 2, [0x01#8, 0#8, 0#8, 0#8, 0x02#8]) := by decide
theorem test_load_malformed :
    loadShows "0x0:00000001\n0x4:zz" = (.malformedProgramText 2, [0x01#8, 0#8, 0#8, 0#8, 0#8]) := by decide
theorem test_load_malformed_forms :
    ["0x0:0010000", "0x:00000000", "0x123456789:00000000", "0x8 :00000000", "0x4:"].all
      (fun t => decide ((loadShows t).1 = .malformedProgramText 1)) = true := by decide
theorem test_load_out_of_bounds :
    (loadShows "0x3C:00000001 00000010 00000011 00000100 00000101").1 = .memoryOutOfBounds 64 1 := by decide
theorem test_load_first_address :
    (loadShows "0xFFFFFFFF:00000000").1 = .memoryOutOfBounds 0xFFFFFFFF 1 := by decide

/-- E4's last row. -/
def segmentMachine : State :=
  machine 0#32 [] [(0, [0x11#8, 0x22#8, 0x33#8, 0x00#8, 0x55#8, 0x66#8, 0x77#8, 0x88#8]),
    (56, [0xAA#8, 0xBB#8, 0xCC#8, 0xDD#8])]

theorem test_segments : (segmentMachine.textLen, segmentMachine.stackLen) = (8, 8) := by decide
/-- The second row of E4: 156 bytes. -/
def savedImage : List Byte := saveStateWith [] (machineAt 0#32 0x20080005#32 [])
theorem test_save_image :
    (savedImage.length, savedImage.drop 140) =
      (156, [0#8, 0#8, 0#8, 0x40#8, 0#8, 0#8, 0#8, 4#8, 0x20#8, 0x08#8, 0#8, 5#8, 0#8, 0#8, 0#8, 0#8]) := by decide
theorem test_load_image :
    (fun r => (decide (r.1 = .ok), r.2.memSize, r.2.readReg 29, r.2.segment 0 4, r.2.mstep))
      (loadStateWith [] savedImage ((State.construct 16).setMstep 3)) =
      (true, 64, 60#32, [0x20#8, 0x08#8, 0#8, 5#8], 0) := by decide
theorem test_load_image_short :
    imageProblem [] (savedImage.take 151) = some .truncated := by decide
theorem test_load_image_long :
    imageProblem [] (savedImage ++ [0#8]) = some .lengthMismatch := by decide
theorem test_load_image_tag : imageProblem [1#8] (2#8 :: savedImage) = some .badTag := by decide
theorem test_load_image_memLen :
    imageProblem [] (savedImage.set 143 3#8 |>.set 142 0#8) = some .badMemLen := by decide
/-- `MEMLEN = 8`, `TEXTLEN = 4`, `STACKLEN = 8`, 164 bytes. -/
theorem test_load_image_segments :
    imageProblem [] (List.replicate 143 0#8 ++ [8#8, 0#8, 0#8, 0#8, 4#8] ++ List.replicate 7 0#8 ++ [8#8] ++
      List.replicate 8 0#8) = some .segmentsExceedMemory := by decide

/-! ### Witnesses: for each obligation with hypotheses, a concrete case that meets them, clause by clause -/

/-- An outcome that shows something is a next state. -/
theorem next_of_shows {o : Host.Outcome State Fault Refusal} (h : shows (fun _ => true) o = some true) :
    ∃ t, o = .next t := by
  cases o with
  | next t => exact ⟨t, rfl⟩
  | fault f => simp [shows] at h
  | refused r => simp [shows] at h

/-- `add $t2, $t0, $t1` at 0. -/
def addMachine : State := machineAt 0#32 0x01095020#32 [(8, 3#32), (9, 4#32)]

theorem addMachine_memoryOk : addMachine.MemoryOk := by unfold State.MemoryOk; decide
theorem memoryMachine_memoryOk : (memoryMachine 0xAFA8FFFC#32 7#32).MemoryOk := by
  unfold State.MemoryOk; decide

/-- A word with ignored bits set, and one that agrees with it outside them. -/
theorem witness_EncodeOfDecodeClearsOnlyIgnoredBits :
    decode 0x010957E0#32 = .ok (.add 8 9 10) ∧ (0x01095020#32 : Word) ≠ 0x010957E0#32 ∧
      (0x01095020#32 : Word) &&& ~~~ignoredBits (.add 8 9 10) =
        0x010957E0#32 &&& ~~~ignoredBits (.add 8 9 10) := by decide

/-- The first and the last row cover words, and the zero word only the last. -/
theorem witness_DecodeFollowsTheOpcodeTable :
    opcodeTable[0].covers 0x010957E0#32 = true ∧ opcodeTable[20].covers 0#32 = true ∧
      opcodeTable.find? (fun r => r.covers 0#32) = some ⟨"(terminator)", 0#32, 0xFFFFFFFF#32⟩ := by decide

theorem witness_UnknownWordsAreTheUnlistedOnes :
    (machineAt 0#32 0x1C000000#32 []).mstep = 0 ∧
      (machineAt 0#32 0x1C000000#32 []).fetchRead (machineAt 0#32 0x1C000000#32 []).pc = .ok 0x1C000000#32 ∧
      decode 0x1C000000#32 = .error (.unknownOpcode 0x1C000000#32) := by decide

/-- The ends of both ranges, by hand. -/
theorem witness_FieldsAreTheNamedBits :
    (uint (grabRight 0xFFFFFFFF#32 1), uint (grabRight 0xFFFFFFFF#32 31)) = (1, 2147483647) ∧
      (uint (grabLeft 0x7FFFFFFF#32 1), uint (grabLeft 0x7FFFFFFF#32 32)) = (0, 2147483647) := by decide

/-- A form, a label at the far end of the backward range, one out of range, and a jump's label. -/
theorem witness_AssemblerFormsAndLabels :
    disassemble (.lw 29 10 4#16) = some ⟨"lw", [.reg 10, .mem 4#16 29]⟩ ∧
      labelOffset? 0x40000#32 0x20000#32 = some 0x8000#16 ∧ labelOffset? 0x40000#32 0x1FFFC#32 = none ∧
      uint 28#32 % 4 = 0 ∧ uint 28#32 / 2 ^ 28 = uint 8#32 / 2 ^ 28 := by decide

/-- The last address in bounds and the first out of bounds, and `MEM_SIZE` in range. -/
theorem witness_ReadsAreBoundsCheckedAndBigEndian :
    uint 60#32 + 4 ≤ addMachine.memSize ∧ ¬ uint 61#32 + 4 ≤ addMachine.memSize ∧
      addMachine.memSize ≤ 2 ^ 31 - 1 := by decide

theorem witness_LoadAfterStore :
    (memoryMachine 0xAFA8FFFC#32 7#32).MemoryOk ∧
      (∃ t, exec (.sw 29 8 0xFFFC#16) (memoryMachine 0xAFA8FFFC#32 7#32) = .next t) ∧
      uint ((memoryMachine 0xAFA8FFFC#32 7#32).effectiveAddress 29 0xFFFC#16) + 1 + 4 ≤ 64 ∧
      uint ((memoryMachine 0xAFA8FFFC#32 7#32).effectiveAddress 29 0xFFFC#16) + 3 + 4 ≤ 64 :=
  ⟨memoryMachine_memoryOk, next_of_shows (by decide), by decide, by decide⟩

/-- `EA` = 60 is in bounds and `EA` = 61 is not. -/
theorem witness_LwLoadsOrFaults :
    uint (addMachine.effectiveAddress 29 0#16) + 4 ≤ addMachine.memSize ∧
      ¬ uint (addMachine.effectiveAddress 29 1#16) + 4 ≤ addMachine.memSize := by decide

theorem witness_SwStoresOrFaults :
    Memory.wf addMachine.mem ∧ uint (addMachine.effectiveAddress 29 0#16) + 4 ≤ addMachine.memSize ∧
      ¬ uint (addMachine.effectiveAddress 29 1#16) + 4 ≤ addMachine.memSize := by decide

/-- A value of each sign class: 0 and the minimum for `blez`, 1 for `bgtz`. -/
theorem witness_BlezBgtzBranchOnSign :
    sint ((machine 0#32 [] []).readReg 8) ≤ 0 ∧ sint ((machine 0#32 [(8, 0x80000000#32)] []).readReg 8) ≤ 0 ∧
      0 < sint ((machine 0#32 [(8, 1#32)] []).readReg 8) := by decide

theorem witness_TerminatorChangesNothing :
    (machine 0#32 [] []).mstep = 0 ∧ (machine 0#32 [] []).fetchRead (machine 0#32 [] []).pc = .ok 0#32 := by
  decide

/-- An instruction of each kind of write goes on, and each write shows. -/
theorem witness_InstructionsWriteOnlyTheirOwnState :
    (∃ t, exec (.add 8 9 10) addMachine = .next t ∧ t.readReg 10 ≠ addMachine.readReg 10) ∧
      (∃ t, exec (.mul 8 9) addMachine = .next t ∧ t.lo ≠ addMachine.lo) ∧
      ∃ t, exec (.sw 0 8 0#16) addMachine = .next t ∧ t.readByte 3 ≠ addMachine.readByte 3 :=
  ⟨⟨_, rfl, by decide⟩, ⟨_, rfl, by decide⟩, ⟨_, rfl, by decide⟩⟩

/-- Both instructions fault somewhere. -/
theorem witness_OnlyLoadsAndStoresFault :
    exec (.lw 29 10 1#16) addMachine = .fault (.memoryOutOfBounds .load 61#32) ∧
      exec (.sw 29 10 1#16) addMachine = .fault (.memoryOutOfBounds .store 61#32) := ⟨rfl, rfl⟩

/-- A jump from a `pc` that is no multiple of 4, and a branch that keeps it so. -/
theorem witness_TargetsKeepAlignment :
    (∃ t, exec (.j 3#26) (machine 2#32 [] []) = .next t ∧ t.pc = 12#32) ∧
      ∃ t, exec (.beq 0 0 1#16) (machine 2#32 [] []) = .next t ∧ t.pc = 6#32 := ⟨⟨_, rfl, rfl⟩, ⟨_, rfl, rfl⟩⟩

/-- An instruction at `pc`, and the terminator at `pc`. -/
theorem witness_StepRunsTheDecodedInstruction :
    (addMachine.mstep = 0 ∧ addMachine.fetchRead addMachine.pc = .ok 0x01095020#32 ∧
      decode 0x01095020#32 = .ok (.add 8 9 10) ∧ Instr.add 8 9 10 ≠ .terminator) ∧
    (machine 0#32 [] []).fetchRead 0#32 = .ok 0#32 ∧ decode 0#32 = .ok .terminator := by decide

/-- The last `pc` in bounds and the first out of bounds. -/
theorem witness_FetchOutOfBoundsChangesNothing :
    (machine 60#32 [] []).mstep = 0 ∧ (machine 60#32 [] []).fetchRead (machine 60#32 [] []).pc = .ok 0#32 ∧
      (machine 61#32 [] []).mstep = 0 ∧
      (machine 61#32 [] []).fetchRead (machine 61#32 [] []).pc = .error (.memoryOutOfBounds .fetch 61#32) := by
  decide

/-- `pc` just out of bounds, and an unknown word at the last `pc` in bounds. -/
theorem witness_StepStopsOnFetchAndDecodeErrors :
    ¬ uint (machine 61#32 [] []).pc + 4 ≤ (machine 61#32 [] []).memSize ∧
      uint (machineAt 60#32 0xFC000000#32 []).pc + 4 ≤ (machineAt 60#32 0xFC000000#32 []).memSize ∧
      (machineAt 60#32 0xFC000000#32 []).fetchRead 60#32 = .ok 0xFC000000#32 ∧
      decode 0xFC000000#32 = .error (.unknownOpcode 0xFC000000#32) := by decide

theorem witness_UnknownOpcodeChangesNothing :
    (machineAt 0#32 0xFC000000#32 []).mstep = 0 ∧
      (machineAt 0#32 0xFC000000#32 []).fetchRead (machineAt 0#32 0xFC000000#32 []).pc = .ok 0xFC000000#32 ∧
      decode 0xFC000000#32 = .error (.unknownOpcode 0xFC000000#32) := by decide

/-- The first and the last intermediate microstep of `add`. -/
theorem witness_IntermediateMicrostepOnlyCounts :
    (1 ≤ (afterMicrosteps 1 addMachine).mstep ∧
      (afterMicrosteps 1 addMachine).mstep < Params.microsteps (afterMicrosteps 1 addMachine).kind - 1) ∧
    (afterMicrosteps 4 addMachine).mstep = 4 ∧
      (afterMicrosteps 4 addMachine).mstep < Params.microsteps (afterMicrosteps 4 addMachine).kind - 1 := by decide

/-- The terminal microstep of `add`, which commits, and of an `lw` that faults. -/
theorem witness_TerminalMicrostepCommits :
    (1 ≤ (afterMicrosteps 5 addMachine).mstep ∧
      (afterMicrosteps 5 addMachine).mstep = Params.microsteps (afterMicrosteps 5 addMachine).kind - 1 ∧
      shows (fun _ => true) (exec (afterMicrosteps 5 addMachine).kind (afterMicrosteps 5 addMachine)) = some true) ∧
    (afterMicrosteps 2 (memoryMachine 0x8FAA0001#32 0#32)).mstep =
        Params.microsteps (afterMicrosteps 2 (memoryMachine 0x8FAA0001#32 0#32)).kind - 1 ∧
      faultOf (exec (afterMicrosteps 2 (memoryMachine 0x8FAA0001#32 0#32)).kind
        (afterMicrosteps 2 (memoryMachine 0x8FAA0001#32 0#32))) = some (.memoryOutOfBounds .load 61#32) := by
  decide

theorem witness_InstructionTakesItsMicrosteps :
    addMachine.mstep = 0 ∧ addMachine.fetchRead addMachine.pc = .ok 0x01095020#32 ∧
      decode 0x01095020#32 = .ok (.add 8 9 10) ∧ Instr.add 8 9 10 ≠ .terminator ∧
      0 + 1 < Params.microsteps (.add 8 9 10) ∧ 4 + 1 < Params.microsteps (.add 8 9 10) := by decide

/-- A call that continues, one that retires and one that errs. -/
theorem witness_OnlyRetirementChangesArchitecture :
    (runMicrostep addMachine).1 = .continued ∧ (runMicrostep (afterMicrosteps 5 addMachine)).1 = .retired ∧
      (runMicrostep (machineAt 0#32 0xFC000000#32 [])).1 = .error (.unknownOpcode 0xFC000000#32) := by decide

/-- Stopped at rest, and stopped by the fault of an instruction in flight. -/
theorem witness_StoppingResultsRepeat :
    ((machine 0#32 [] []).InFlightOk ∧ (runInstruction (machine 0#32 [] [])).1 = .exhausted 0#32) ∧
    (afterMicrosteps 1 (memoryMachine 0x8FAA0001#32 0#32)).InFlightOk ∧
      (runInstruction (afterMicrosteps 1 (memoryMachine 0x8FAA0001#32 0#32))).1 =
        .error (.memoryOutOfBounds .load 61#32) := by
  unfold State.InFlightOk; decide

theorem witness_RunInstructionEndsWithinSevenCalls : 1 ≤ (afterMicrosteps 3 addMachine).mstep := by decide

theorem witness_ExhaustedRunEndsAtRest :
    (runToCompletion 2 addMachine).1 = .ended (.exhausted 4#32) := by decide

/-- Two states at rest whose latches differ. -/
theorem witness_IdleLatchesAreUnobservable :
    addMachine.mstep = 0 ∧ (addMachine.setFetched 5#32 (.j 1#26)).mstep = 0 ∧
      (addMachine.setFetched 5#32 (.j 1#26)).ir ≠ addMachine.ir := by decide

/-- The invariant holds with an instruction in flight, its operands sent. -/
theorem witness_MicrostepKeepsTheInvariant :
    (afterMicrosteps 2 addMachine).Inv ∧ (afterMicrosteps 2 addMachine).mstep = 2 := by
  refine ⟨⟨by unfold State.MemoryOk; decide, by unfold State.InFlightOk; decide, .inr ?_⟩, by decide⟩
  exact ⟨fun _ => by decide, fun _ => by decide, fun h => absurd h (by decide)⟩

theorem witness_StepKeepsTheInvariant : addMachine.Inv ∧ ∃ t, step addMachine = .next t :=
  ⟨⟨addMachine_memoryOk, .inl rfl, .inl rfl⟩, next_of_shows (by decide)⟩

/-- Both ends of the range of `MEM_SIZE`. -/
theorem witness_ConstructionMeetsTheInvariant :
    (construct 4).isSome = true ∧ (construct 2147483647).isSome = true := by decide

theorem witness_StepKeepsPcAligned : addMachine.PcAligned ∧ ∃ t, step addMachine = .next t :=
  ⟨by unfold State.PcAligned; decide, next_of_shows (by decide)⟩

/-- Both ends, inside and outside, with `$sp` at each. -/
theorem witness_ConstructionState :
    (construct 4).map (fun s => s.readReg 29) = some 0#32 ∧
      (construct 2147483647).map (fun s => s.readReg 29) = some 0x7FFFFFFB#32 ∧
      construct 3 = none ∧ construct 2147483648 = none := by decide

theorem witness_AddThenSubRestores : (10 : Reg) ≠ 9 := by decide

theorem witness_AddiThenNegatedAddiRestores : (0x8001#16 : Imm16) ≠ 0x8000#16 := by decide

/-- A store over the next instruction's word. -/
theorem witness_StoreIsSeenByTheNextFetch :
    addMachine.MemoryOk ∧ (∃ t, exec (.sw 0 8 4#16) addMachine = .next t) ∧
      addMachine.effectiveAddress 0 4#16 = addMachine.pc + 4#32 :=
  ⟨addMachine_memoryOk, next_of_shows (by decide), by decide⟩

/-- A text with each result, on a canonical memory. -/
theorem witness_ProgramLoadTouchesOnlyMemory :
    addMachine.MemoryOk ∧ (loadProgram "0x8:11111111".toList addMachine).1 = .loaded 1 ∧
      (loadProgram "0x8 11111111".toList addMachine).1 = .malformedProgramText 1 :=
  ⟨addMachine_memoryOk, by decide, by decide⟩

/-- The last bytes that fit and one byte too many, and a line of the spec written out. -/
theorem witness_LoaderPlacesAWrittenLine :
    ([1#8, 2#8, 3#8, 4#8] : List Byte) ≠ [] ∧ uint 60#32 + 4 ≤ addMachine.memSize ∧
      ¬ uint 60#32 + 5 ≤ addMachine.memSize ∧
      programLine 0x3C#32 [1#8, 2#8] = "0x0000003c: 00000001 00000010".toList := by decide

theorem witness_LoaderStopsAtAMalformedLine :
    (loadLines 1 0 ["0x0:00000001".toList] addMachine).1 = .loaded 1 ∧ blankLine "0x4:zz".toList = false ∧
      parseLine "0x4:zz".toList = none := by decide

/-- Bytes in both segments, the last of each non-zero. -/
theorem witness_SegmentsHoldEveryNonZeroByte :
    segmentMachine.MemoryOk ∧ segmentMachine.readByte 7 ≠ 0#8 ∧ segmentMachine.readByte 56 ≠ 0#8 ∧
      0 < segmentMachine.textLen ∧ 0 < segmentMachine.stackLen := by
  unfold State.MemoryOk; decide

theorem witness_SaveThenLoadRestoresTheState : segmentMachine.MemoryOk ∧ segmentMachine.mem ≠ [] := by
  unfold State.MemoryOk; decide

/-- An image of `MEMLEN`, `TEXTLEN` and one given segment area, every register 0 (T = 0; R235's offsets). -/
def zeroImage (memLen textLen : Word) (rest : List Byte) : List Byte :=
  List.replicate 140 0#8 ++ bytesOfWord memLen ++ bytesOfWord textLen ++ rest

/-- Each check at its boundary: the reason of the first that fails (R238), and images that pass, one with
`TEXTLEN` above `MEMLEN / 2` and both segments filling memory. -/
theorem witness_LoadStateIsAllOrNothing :
    ([zeroImage 8#32 6#32 [], (zeroImage 8#32 0#32 []).take 147, zeroImage 3#32 6#32 [],
        zeroImage 0x80000000#32 6#32 [], zeroImage 8#32 6#32 (List.replicate 9 0#8),
        zeroImage 8#32 6#32 (List.replicate 9 0#8 ++ List.replicate 4 3#8),
        zeroImage 8#32 6#32 (List.replicate 9 0#8 ++ [2#8, 7#8])].map (fun b => (loadStateWith [] b addMachine).1)) =
      [.malformedState .truncated, .malformedState .truncated, .malformedState .badMemLen,
        .malformedState .badMemLen, .malformedState .truncated, .malformedState .segmentsExceedMemory,
        .malformedState .lengthMismatch] ∧
    (loadStateWith [1#8] (2#8 :: zeroImage 8#32 0#32 [0#8, 0#8, 0#8, 0#8]) addMachine).1 =
      .malformedState .badTag ∧
    (fun r => (decide (r.1 = .ok), r.2.segment 0 8))
      (loadStateWith [] (zeroImage 8#32 6#32 [1#8, 2#8, 3#8, 4#8, 5#8, 6#8, 0#8, 0#8, 0#8, 2#8, 7#8, 8#8]) addMachine) =
      (true, [1#8, 2#8, 3#8, 4#8, 5#8, 6#8, 7#8, 8#8]) := by decide

/-- Lines that fit, the second over the first, the last at the end of memory; a byte no line names; one the
second line names last; and a line that does not fit by one byte. -/
theorem witness_LoaderPlacesWrittenLines :
    (∀ l ∈ ([(0#32, [1#8, 2#8]), (1#32, [3#8]), (60#32, [4#8, 5#8, 6#8, 7#8])] : List (Word × List Byte)),
      l.2 ≠ [] ∧ uint l.1 + l.2.length ≤ addMachine.memSize) ∧
    ([4#8, 5#8, 6#8, 7#8, 8#8] : List Byte) ≠ [] ∧ ¬ uint 60#32 + 5 ≤ addMachine.memSize ∧
    Memory.wf addMachine.mem ∧ ([3#8] : List Byte)[0]? = some 3#8 ∧
    (fun r => (decide (r.1 = .memoryOutOfBounds 64 3), r.2.segment 0 4))
      (loadProgram (programText [(0#32, [1#8, 2#8]), (1#32, [3#8]), (60#32, [4#8, 5#8, 6#8, 7#8, 8#8])]) addMachine) =
      (true, [1#8, 3#8, 0x50#8, 0x20#8]) := by decide

end Sys2Proof.Tests
end

section
/-! PROOFS. The field primitives and the decoder's fields as bit ranges (spec/00_scope.md R9, R10;
spec/30_encoding.md R81). -/

namespace Sys2Proof

/-- A bit range of a word in the division form of the field laws. -/
theorem extractLsb'_toNat_eq_div_mod (w : Word) (start len : Nat) :
    (w.extractLsb' start len).toNat = w.toNat / 2 ^ start % 2 ^ len := by
  rw [BitVec.extractLsb'_toNat, Nat.shiftRight_eq_div_pow]

theorem opcodeField_eq_extractLsb' (w : Word) : opcodeField w = w.extractLsb' 26 6 := by
  apply BitVec.eq_of_toNat_eq
  have hfits : w.toNat / 2 ^ 26 < 2 ^ 6 := by have := w.isLt; omega
  rw [opcodeField_toNat, extractLsb'_toNat_eq_div_mod, Nat.mod_eq_of_lt hfits]

theorem rsField_val_eq_extractLsb' (w : Word) : (rsField w).val = (w.extractLsb' 21 5).toNat :=
  (rsField_val w).trans (extractLsb'_toNat_eq_div_mod w 21 5).symm

theorem rtField_val_eq_extractLsb' (w : Word) : (rtField w).val = (w.extractLsb' 16 5).toNat :=
  (rtField_val w).trans (extractLsb'_toNat_eq_div_mod w 16 5).symm

theorem rdField_val_eq_extractLsb' (w : Word) : (rdField w).val = (w.extractLsb' 11 5).toNat :=
  (rdField_val w).trans (extractLsb'_toNat_eq_div_mod w 11 5).symm

theorem functField_eq_extractLsb' (w : Word) : functField w = w.extractLsb' 0 6 := by
  apply BitVec.eq_of_toNat_eq
  rw [functField_toNat, extractLsb'_toNat_eq_div_mod, Nat.pow_zero, Nat.div_one]

theorem imm16Field_eq_extractLsb' (w : Word) : imm16Field w = w.extractLsb' 0 16 := by
  apply BitVec.eq_of_toNat_eq
  rw [imm16Field_toNat, extractLsb'_toNat_eq_div_mod, Nat.pow_zero, Nat.div_one]

theorem imm26Field_eq_extractLsb' (w : Word) : imm26Field w = w.extractLsb' 0 26 := by
  apply BitVec.eq_of_toNat_eq
  rw [imm26Field_toNat, extractLsb'_toNat_eq_div_mod, Nat.pow_zero, Nat.div_one]

/-- Settles O6: the primitives by their number laws, each field by comparing its number with that of the
named bit range. -/
theorem fieldsAreTheNamedBits : Obligations.FieldsAreTheNamedBits := by
  refine ⟨fun data n _ hn => ?_, fun data n _ _ => ?_, fun w => ?_⟩
  · exact grabRight_toNat data n (by omega)
  · exact grabLeft_toNat data n
  · exact ⟨opcodeField_eq_extractLsb' w, rsField_val_eq_extractLsb' w, rtField_val_eq_extractLsb' w,
      rdField_val_eq_extractLsb' w, functField_eq_extractLsb' w, imm16Field_eq_extractLsb' w,
      imm26Field_eq_extractLsb' w⟩

end Sys2Proof
end

section
/-! PROOFS. What a completed effect changes and leaves alone (spec/10_state.md R25, R28; spec/20_memory.md
R61), and that no effect reads `hi` or `lo` (spec/10_state.md R28). -/

namespace Sys2Proof.Machine

/-! ### The inversion of a completed effect -/

/-- `exec_cases` for an effect that completes: the error cases are gone and the next state is named. -/
theorem exec_next_cases {i : Instr} {s t : State} (h : exec i s = .next t) :
    (∃ d v p, destination i = some d ∧ nextPcOf i s p ∧ t = (s.writeReg d v).setPc p) ∨
    (∃ rs rt, i = .mul rs rt ∧
      t = (s.setHiLo (aluMulHi (s.readReg rs) (s.readReg rt))
        (aluMulLo (s.readReg rs) (s.readReg rt))).setPc (s.pc + 4#32)) ∨
    (∃ rs rt v, i = .sw rs rt v ∧ uint (s.effectiveAddress rs v) + 4 ≤ s.memSize ∧
      t = (s.setMem (Memory.writeWord s.mem (uint (s.effectiveAddress rs v))
        (s.readReg rt))).setPc (s.pc + 4#32)) ∨
    ((∀ rs rt v, i ≠ .sw rs rt v) ∧ ∃ p, nextPcOf i s p ∧ t = s.setPc p) := by
  rcases exec_cases i s with ⟨d, v, p, hd, hp, he⟩ | ⟨rs, rt, hi, he⟩ | ⟨rs, rt, v, hi, hb, he⟩ |
    ⟨_, _, hsw, p, hp, he⟩ | ⟨rs, rt, v, ⟨_, _, he⟩ | ⟨_, _, he⟩⟩
  · rw [he] at h; cases h; exact .inl ⟨d, v, p, hd, hp, rfl⟩
  · rw [he] at h; cases h; exact .inr (.inl ⟨rs, rt, hi, rfl⟩)
  · rw [he] at h; cases h; exact .inr (.inr (.inl ⟨rs, rt, v, hi, hb, rfl⟩))
  · rw [he] at h; cases h; exact .inr (.inr (.inr ⟨hsw, p, hp, rfl⟩))
  · rw [he] at h; cases h
  · rw [he] at h; cases h

/-! ### Frames -/

theorem destination_of_exec_readReg_ne {i : Instr} {s t : State} (h : exec i s = .next t) {r : Reg}
    (hr : t.readReg r ≠ s.readReg r) : destination i = some r := by
  rcases exec_next_cases h with ⟨d, v, p, hd, _, rfl⟩ | ⟨_, _, _, rfl⟩ | ⟨_, _, _, _, _, rfl⟩ |
    ⟨_, _, _, rfl⟩
  · have hrd : r = d := by
      by_contra hne
      exact hr (State.readReg_writeReg_ne hne v s)
    rw [hd, hrd]
  · exact absurd rfl hr
  · exact absurd rfl hr
  · exact absurd rfl hr

theorem eq_mul_of_exec_hiLo_ne {i : Instr} {s t : State} (h : exec i s = .next t)
    (hne : t.hi ≠ s.hi ∨ t.lo ≠ s.lo) : ∃ rs rt, i = .mul rs rt := by
  rcases exec_next_cases h with ⟨_, _, _, _, _, rfl⟩ | ⟨rs, rt, hi, _⟩ | ⟨_, _, _, _, _, rfl⟩ |
    ⟨_, _, _, rfl⟩
  · simp at hne
  · exact ⟨rs, rt, hi⟩
  · simp at hne
  · simp at hne

theorem eq_sw_of_exec_readByte_ne {i : Instr} {s t : State} (h : exec i s = .next t) {a : Nat}
    (ha : t.readByte a ≠ s.readByte a) : ∃ rs rt v, i = .sw rs rt v := by
  rcases exec_next_cases h with ⟨_, _, _, _, _, rfl⟩ | ⟨_, _, _, rfl⟩ | ⟨rs, rt, v, hi, _⟩ |
    ⟨_, _, _, rfl⟩
  · simp at ha
  · simp at ha
  · exact ⟨rs, rt, v, hi⟩
  · simp at ha

theorem exec_next_memSize {i : Instr} {s t : State} (h : exec i s = .next t) : t.memSize = s.memSize := by
  rcases exec_next_cases h with ⟨_, _, _, _, _, rfl⟩ | ⟨_, _, _, rfl⟩ | ⟨_, _, _, _, _, rfl⟩ |
    ⟨_, _, _, rfl⟩
  · simp
  · rfl
  · rfl
  · rfl

/-- A store leaves every byte outside its four alone, in any memory, canonical or not. -/
theorem execSw_sameMemoryBut {rs rt : Reg} {v : Imm16} {s t : State} (h : exec (.sw rs rt v) s = .next t) :
    SameMemoryBut (uint (s.effectiveAddress rs v)) 4 s t := by
  rcases exec_next_cases h with ⟨_, _, _, hd, _⟩ | ⟨_, _, hi, _⟩ | ⟨_, _, _, hi, _, rfl⟩ | ⟨hsw, _⟩
  · cases hd
  · cases hi
  · cases hi
    exact ⟨fun b hb => State.readByte_setMem_writeWord s _ b _ hb, rfl⟩
  · exact absurd rfl (hsw rs rt v)

theorem exec_next_sameHidden {i : Instr} {s t : State} (h : exec i s = .next t) : SameHidden s t := by
  rw [← exec_next_hidden h]
  exact ⟨rfl, rfl, rfl, rfl, rfl⟩

/-- Settles O28: each clause is a frame lemma, all of them from the inversion of a completed effect. -/
theorem instructionsWriteOnlyTheirOwnState : Obligations.InstructionsWriteOnlyTheirOwnState := by
  intro i s t h
  refine ⟨fun r hr => destination_of_exec_readReg_ne h hr, eq_mul_of_exec_hiLo_ne h,
    fun ⟨_, ha⟩ => eq_sw_of_exec_readByte_ne h ha, ?_, exec_next_memSize h, exec_next_sameHidden h⟩
  rintro rs rt v rfl
  exact execSw_sameMemoryBut h

/-! ### `hi` and `lo` are not read -/

theorem State.writeReg_setHiLo (d : Reg) (v h l : Word) (s : State) :
    (s.setHiLo h l).writeReg d v = (s.writeReg d v).setHiLo h l := by
  unfold State.writeReg State.writeRegWith; split <;> rfl

theorem commitReg_setHiLo (d : Reg) (v h l : Word) (s : State) :
    commitReg d v (s.setHiLo h l) = mapNext (fun t => t.setHiLo h l) (commitReg d v s) := by
  rw [commitReg, State.writeReg_setHiLo]; rfl

theorem branch_setHiLo (c : Bool) (v : Imm16) (h l : Word) (s : State) :
    branch c v (s.setHiLo h l) = mapNext (fun t => t.setHiLo h l) (branch c v s) := by
  cases c <;> rfl

theorem execJal_setHiLo (target : Imm26) (h l : Word) (s : State) :
    execJal target (s.setHiLo h l) = mapNext (fun t => t.setHiLo h l) (execJal target s) := by
  simp only [execJal, State.setHiLo_pc, State.writeReg_setHiLo]; rfl

theorem execLw_setHiLo (rs rt : Reg) (v : Imm16) (h l : Word) (s : State) :
    execLw rs rt v (s.setHiLo h l) = mapNext (fun t => t.setHiLo h l) (execLw rs rt v s) := by
  simp only [execLw, State.setHiLo_memRead, State.setHiLo_effectiveAddress]
  cases s.memRead (s.effectiveAddress rs v) with
  | ok w => exact commitReg_setHiLo rt w h l s
  | error f => rfl

theorem execSw_setHiLo (rs rt : Reg) (v : Imm16) (h l : Word) (s : State) :
    execSw rs rt v (s.setHiLo h l) = mapNext (fun t => t.setHiLo h l) (execSw rs rt v s) := by
  simp only [execSw, State.memWrite, State.setHiLo_effectiveAddress, State.setHiLo_inBounds,
    State.setHiLo_readReg, State.setHiLo_mem]
  by_cases hb : s.inBounds (s.effectiveAddress rs v) 4 = true
  · simp only [hb, if_true]; rfl
  · simp only [hb]; rfl

/-- Settles O29: an instruction other than `mul` is a register write, a branch, a jump, a load, a store or
nothing, and each of these shapes carries `hi` and `lo` along. -/
theorem noInstructionReadsHiLo : Obligations.NoInstructionReadsHiLo := by
  intro i s h l
  cases i with
  | mul rs rt => rfl
  | add rs rt rd => exact commitReg_setHiLo rd _ h l s
  | sub rs rt rd => exact commitReg_setHiLo rd _ h l s
  | and rs rt rd => exact commitReg_setHiLo rd _ h l s
  | or rs rt rd => exact commitReg_setHiLo rd _ h l s
  | xor rs rt rd => exact commitReg_setHiLo rd _ h l s
  | not rs rd => exact commitReg_setHiLo rd _ h l s
  | slt rs rt rd => exact commitReg_setHiLo rd _ h l s
  | addi rs rt v => exact commitReg_setHiLo rt _ h l s
  | slti rs rt v => exact commitReg_setHiLo rt _ h l s
  | andi rs rt v => exact commitReg_setHiLo rt _ h l s
  | ori rs rt v => exact commitReg_setHiLo rt _ h l s
  | beq rs rt v => exact branch_setHiLo _ v h l s
  | bne rs rt v => exact branch_setHiLo _ v h l s
  | blez rs v => exact branch_setHiLo _ v h l s
  | bgtz rs v => exact branch_setHiLo _ v h l s
  | j target => rfl
  | jal target => exact execJal_setHiLo target h l s
  | lw rs rt v => exact execLw_setHiLo rs rt v h l s
  | sw rs rt v => exact execSw_setHiLo rs rt v h l s
  | terminator => rfl

end Sys2Proof.Machine
end

section
/-! PROOFS. What a whole instruction call comes to (spec/40_execution_cycle.md R112 to R117, R122), that idle
latches reach nothing a host can see (spec/10_state.md R32, R33), and that `pc` stays aligned (R27). -/

namespace Sys2Proof.Machine

/-! ### A call with no instruction in flight -/

/-- What a call with no instruction in flight meets at `pc`: an instruction to run, or the result the call
stops with (R112 to R114). -/
def State.nextInstr (s : State) : Except StepResult Instr :=
  match s.fetchRead s.pc with
  | .error f => .error (.error f)
  | .ok w =>
    match decode w with
    | .error _ => .error (.error (.unknownOpcode w))
    | .ok .terminator => .error (.exhausted s.pc)
    | .ok i => .ok i

/-- A first microstep that stops ends the whole call. -/
theorem runInstruction_of_first_stops {s : State} {r : StepResult} (h0 : s.mstep = 0)
    (hfirst : firstMicrostep s = (r, s)) (hr : r ≠ .continued) : runInstruction s = (r, s) := by
  have hrun : runMicrostep s = (r, s) := by simp [runMicrostep, h0, hfirst]
  show runMicrosteps (6 + 1) s = _
  rw [runMicrosteps, hrun]
  cases r with
  | continued => exact absurd rfl hr
  | retired => rfl
  | exhausted p => rfl
  | error f => rfl
  | refused q => rfl

/-- The call that follows what was met: stop with the state unchanged, or the instruction's terminal
microstep. -/
def callOn (met : Except StepResult Instr) (s : State) : StepResult × State :=
  match met with
  | .error r => (r, s)
  | .ok i => terminalMicrostep i s

/-- A call with no instruction in flight is decided by what it meets at `pc`. -/
theorem runInstruction_of_idle {s : State} (h0 : s.mstep = 0) : runInstruction s = callOn s.nextInstr s := by
  rcases firstMicrostep_cases s with ⟨_, hf, h⟩ | ⟨_, hf, h⟩ | ⟨w, e, hf, hd, h⟩ | ⟨w, i, hf, hd, hi, _⟩
  · simp only [State.nextInstr, hf]
    exact runInstruction_of_first_stops h0 h (by simp)
  · have hd : decode 0#32 = .ok .terminator := rfl
    simp only [State.nextInstr, hf, hd]
    exact runInstruction_of_first_stops h0 h (by simp)
  · simp only [State.nextInstr, hf, hd]
    exact runInstruction_of_first_stops h0 h (by simp)
  · simp only [State.nextInstr, hf, hd]
    exact runInstruction_decoded h0 hf hd hi

/-! ### The latches between instructions -/

/-- What a call meets at `pc` is read from the architectural state alone. -/
theorem State.nextInstr_withHiddenOf (s h : State) : (s.withHiddenOf h).nextInstr = s.nextInstr := rfl

theorem sameArch_withHiddenOf (s h : State) : SameArch s (s.withHiddenOf h) :=
  ⟨rfl, rfl, rfl, rfl, rfl, rfl⟩

theorem sameArch_idle_withHiddenOf (s h : State) : SameArch s.idle (s.withHiddenOf h).idle :=
  ⟨rfl, rfl, rfl, rfl, rfl, rfl⟩

/-- The terminal microstep gives the same result and the same architectural state whatever the hidden state,
draw counter included. -/
theorem terminalMicrostep_withHiddenOf_sameArch (i : Instr) (s h : State) :
    (terminalMicrostep i (s.withHiddenOf h)).1 = (terminalMicrostep i s).1 ∧
      SameArch (terminalMicrostep i s).2 (terminalMicrostep i (s.withHiddenOf h)).2 := by
  simp only [terminalMicrostep, exec_withHiddenOf]
  cases exec i s with
  | next t => exact ⟨rfl, sameArch_idle_withHiddenOf t h⟩
  | fault f => exact ⟨rfl, sameArch_idle_withHiddenOf s h⟩
  | refused r => exact ⟨rfl, sameArch_idle_withHiddenOf s h⟩

/-- Settles O43: both calls meet the same at `pc`, and then either stop alike with their states unchanged or
run the same terminal microstep. -/
theorem idleLatchesAreUnobservable : Obligations.IdleLatchesAreUnobservable := by
  intro s h hs hh
  have hidle : (s.withHiddenOf h).mstep = 0 := hh
  rw [runInstruction_of_idle hs, runInstruction_of_idle hidle, State.nextInstr_withHiddenOf]
  cases s.nextInstr with
  | error r => exact ⟨rfl, sameArch_withHiddenOf s h⟩
  | ok i => exact terminalMicrostep_withHiddenOf_sameArch i s h

/-! ### The inversion of a step -/

/-- A call stops with the state unchanged and no instruction in flight, or is one terminal microstep. -/
theorem runInstruction_cases (s : State) :
    (s.mstep = 0 ∧ ∃ r, runInstruction s = (r, s)) ∨ ∃ i, runInstruction s = terminalMicrostep i s := by
  by_cases h0 : s.mstep = 0
  · rw [runInstruction_of_idle h0]
    cases s.nextInstr with
    | error r => exact .inl ⟨h0, r, rfl⟩
    | ok i => exact .inr ⟨i, rfl⟩
  · exact .inr ⟨s.kind, runInstruction_inFlight s h0⟩

/-- The host's next state is the state the call leaves. -/
theorem eq_of_outcomeOf_next {r : StepResult} {s t : State} (h : outcomeOf (r, s) = .next t) : t = s := by
  cases r with
  | error f => cases h
  | refused q => cases h
  | continued => cases h; rfl
  | retired => cases h; rfl
  | exhausted p => cases h; rfl

/-- The inversion of a step that answers a next state: nothing happened, with no instruction in flight, or an
effect completed and the machine went idle. -/
theorem step_next_cases {s t : State} (h : step s = .next t) :
    (s.mstep = 0 ∧ t = s) ∨ ∃ i u, exec i s = .next u ∧ t = u.idle := by
  unfold step at h
  rcases runInstruction_cases s with ⟨h0, r, hr⟩ | ⟨i, hr⟩
  · rw [hr] at h
    exact .inl ⟨h0, eq_of_outcomeOf_next h⟩
  · rcases terminalMicrostep_cases i s with ⟨u, he, hu⟩ | ⟨f, _, hf⟩
    · rw [hr, hu] at h
      exact .inr ⟨i, u, he, eq_of_outcomeOf_next h⟩
    · rw [hr, hf] at h; cases h

/-! ### Alignment of `pc` -/

theorem nextPcOf_of_exec_next {i : Instr} {s t : State} (h : exec i s = .next t) : nextPcOf i s t.pc := by
  rcases exec_next_cases h with ⟨_, _, p, _, hp, rfl⟩ | ⟨_, _, rfl, rfl⟩ | ⟨_, _, _, rfl, _, rfl⟩ |
    ⟨_, p, hp, rfl⟩
  · exact hp
  · rfl
  · rfl
  · exact hp

theorem add_four_mod_four (p : Word) : uint (p + 4#32) % 4 = uint p % 4 := by
  simp only [uint, BitVec.toNat_add, BitVec.toNat_ofNat]; omega

/-- A word shifted left by two is a multiple of 4. -/
theorem shiftLeft_two_mod_four (w : Word) : uint (w <<< 2) % 4 = 0 := by
  simp only [uint, BitVec.toNat_shiftLeft, Nat.shiftLeft_eq]; omega

theorem aluBranchTarget_mod_four (p : Word) (v : Imm16) : uint (aluBranchTarget p v) % 4 = uint p % 4 := by
  have hoff : uint (branchOffset v) % 4 = 0 := shiftLeft_two_mod_four (simm v)
  simp only [uint] at hoff
  simp only [uint, aluBranchTarget, BitVec.toNat_add]; omega

theorem aluJumpTarget_mod_four (p : Word) (v : Imm26) : uint (aluJumpTarget p v) % 4 = 0 := by
  have hoff : uint (jumpOffset v) % 2 ^ 2 = 0 := shiftLeft_two_mod_four (v.setWidth 32)
  have hregion : uint (p &&& 0xF0000000#32) % 2 ^ 2 = 0 := by
    rw [uint, BitVec.toNat_and, Nat.and_mod_two_pow]; simp
  show (p &&& 0xF0000000#32 ||| jumpOffset v).toNat % 2 ^ 2 = 0
  rw [BitVec.toNat_or, Nat.or_mod_two_pow, hregion, hoff]
  rfl

/-- Every `pc` an effect can form from an aligned one is aligned. -/
theorem nextPcOf_aligned {i : Instr} {s : State} {p : Word} (hs : s.PcAligned) (hp : nextPcOf i s p) :
    uint p % 4 = 0 := by
  have hseq : uint (s.pc + 4#32) % 4 = 0 := (add_four_mod_four s.pc).trans hs
  have hbranch : ∀ v, (p = s.pc + 4#32 ∨ p = aluBranchTarget s.pc v) → uint p % 4 = 0 := by
    rintro v (rfl | rfl)
    · exact hseq
    · exact (aluBranchTarget_mod_four s.pc v).trans hs
  cases i with
  | beq _ _ v => exact hbranch v hp
  | bne _ _ v => exact hbranch v hp
  | blez _ v => exact hbranch v hp
  | bgtz _ v => exact hbranch v hp
  | j v => cases hp; exact aluJumpTarget_mod_four s.pc v
  | jal v => cases hp; exact aluJumpTarget_mod_four s.pc v
  | terminator => cases hp; exact hs
  | _ => cases hp; exact hseq

/-- Settles O47: a step leaves the state as it was, or ends an effect, whose `pc` is one its instruction can
form. -/
theorem stepKeepsPcAligned : Obligations.StepKeepsPcAligned := by
  intro s t hs h
  rcases step_next_cases h with ⟨_, rfl⟩ | ⟨i, u, he, rfl⟩
  · exact hs
  · have hu : uint u.pc % 4 = 0 := nextPcOf_aligned hs (nextPcOf_of_exec_next he)
    exact hu

end Sys2Proof.Machine
end

section
/-! PROOFS. The machine invariant, over single microsteps and over steps (spec/10_state.md R31 to R33;
spec/20_memory.md R50, R61). The latch clauses follow the model's phases (log 13). -/

namespace Sys2Proof.Machine

/-! ### Memory -/

/-- The memory clause speaks of `M` and `MEM_SIZE` alone. -/
theorem State.MemoryOk.congr {s t : State} (h : s.MemoryOk) (hm : t.mem = s.mem)
    (hn : t.memSize = s.memSize) : t.MemoryOk := by
  unfold State.MemoryOk at *; rwa [hm, hn]

/-- A store in bounds keeps memory canonical and inside `MEM_SIZE`. -/
theorem State.MemoryOk.setMem_writeWord {s : State} (h : s.MemoryOk) {a : Nat} (ha : a + 4 ≤ s.memSize)
    (v : Word) : (s.setMem (Memory.writeWord s.mem a v)).MemoryOk := by
  obtain ⟨hwf, hin, hrange⟩ := h
  refine ⟨Memory.wf_writeWord s.mem a v hwf, fun c hc => ?_, hrange⟩
  rcases Memory.mem_writeBytes hc with hold | ⟨_, hnew⟩
  · exact hin c hold
  · exact Nat.lt_of_lt_of_le hnew ha

theorem exec_keeps_memoryOk {i : Instr} {s t : State} (h : exec i s = .next t) (hs : s.MemoryOk) :
    t.MemoryOk := by
  rcases exec_next_cases h with ⟨_, _, _, _, _, rfl⟩ | ⟨_, _, _, rfl⟩ | ⟨_, _, _, _, hb, rfl⟩ |
    ⟨_, _, _, rfl⟩
  · exact hs.congr (by simp) (by simp)
  · exact hs.congr rfl rfl
  · exact (hs.setMem_writeWord hb _).congr rfl rfl
  · exact hs.congr rfl rfl

/-! ### The ALU latches, phase by phase

`latchesAfter` writes these clauses out per instruction; `latchesAfter_succ` ties the two by unfolding. -/

/-- What the ALU latches of `mul` hold after `n` microsteps. -/
def productSent (a b : Word) (n : Nat) (l : AluLatches) : Prop :=
  (1 ≤ n → l.a = a) ∧ (2 ≤ n → l.b = b) ∧ (4 < n → l.phi = aluMulHi a b) ∧ (5 < n → l.plo = aluMulLo a b)

/-- What the ALU latches of `not` hold after `n` microsteps. -/
def complementSent (a : Word) (n : Nat) (l : AluLatches) : Prop :=
  (1 ≤ n → l.a = a) ∧ (1 < n → l.res = ~~~a)

/-- What the ALU latches of `beq` and `bne` hold after `n` microsteps, condition `c` and target `target`. -/
def compareBranchSent (a b : Word) (c : Bool) (target : Word) (n : Nat) (l : AluLatches) : Prop :=
  (1 ≤ n → l.a = a) ∧ (2 ≤ n → l.b = b) ∧ (3 < n → l.cond = c) ∧ (4 < n → l.res = target)

/-- What the ALU latches of `blez` and `bgtz` hold after `n` microsteps. -/
def zeroBranchSent (a : Word) (c : Bool) (target : Word) (n : Nat) (l : AluLatches) : Prop :=
  (1 ≤ n → l.a = a) ∧ (2 < n → l.cond = c) ∧ (3 < n → l.res = target)

theorem twoOperandPhase_sent {op : AluOp} {a b r : Word} {n : Nat} {l : AluLatches}
    (hop : alu op a b = .result r) (h : twoOperandsSent a b r 3 n l) :
    twoOperandsSent a b r 3 (n + 1) (twoOperandPhase op a b n l) := by
  obtain ⟨ha, hb, hr⟩ := h
  match n with
  | 0 => exact ⟨fun _ => rfl, by omega, by omega⟩
  | 1 => exact ⟨fun _ => ha (by omega), fun _ => rfl, by omega⟩
  | 2 => exact ⟨fun _ => ha (by omega), fun _ => hb (by omega), by omega⟩
  | 3 =>
    have hl : twoOperandPhase op a b 3 l = { l with res := r } := by
      simp only [twoOperandPhase, ha (by omega), hb (by omega), hop, AluLatches.retrieve]
    rw [hl]
    exact ⟨fun _ => ha (by omega), fun _ => hb (by omega), fun _ => rfl⟩
  | n + 4 => exact ⟨fun _ => ha (by omega), fun _ => hb (by omega), fun _ => hr (by omega)⟩

theorem sltiPhase_sent {a b : Word} {n : Nat} {l : AluLatches}
    (h : twoOperandsSent a b (aluSlt a b) 2 n l) :
    twoOperandsSent a b (aluSlt a b) 2 (n + 1) (sltiPhase a b n l) := by
  obtain ⟨ha, hb, hr⟩ := h
  match n with
  | 0 => exact ⟨fun _ => rfl, by omega, by omega⟩
  | 1 => exact ⟨fun _ => ha (by omega), fun _ => rfl, by omega⟩
  | 2 =>
    have hl : sltiPhase a b 2 l = { l with res := aluSlt a b } := by
      simp only [sltiPhase, ha (by omega), hb (by omega), alu, AluLatches.retrieve]
    rw [hl]
    exact ⟨fun _ => ha (by omega), fun _ => hb (by omega), fun _ => rfl⟩
  | n + 3 => exact ⟨fun _ => ha (by omega), fun _ => hb (by omega), fun _ => hr (by omega)⟩

theorem mulPhase_sent {a b : Word} {n : Nat} {l : AluLatches} (h : productSent a b n l) :
    productSent a b (n + 1) (mulPhase a b n l) := by
  obtain ⟨ha, hb, hhi, hlo⟩ := h
  match n with
  | 0 => exact ⟨fun _ => rfl, by omega, by omega, by omega⟩
  | 1 => exact ⟨fun _ => ha (by omega), fun _ => rfl, by omega, by omega⟩
  | 2 | 3 => exact ⟨fun _ => ha (by omega), fun _ => hb (by omega), by omega, by omega⟩
  | 4 =>
    have hl : mulPhase a b 4 l = { l with phi := aluMulHi a b } := by
      simp only [mulPhase, ha (by omega), hb (by omega)]
    rw [hl]
    exact ⟨fun _ => ha (by omega), fun _ => hb (by omega), fun _ => rfl, by omega⟩
  | 5 =>
    have hl : mulPhase a b 5 l = { l with plo := aluMulLo a b } := by
      simp only [mulPhase, ha (by omega), hb (by omega)]
    rw [hl]
    exact ⟨fun _ => ha (by omega), fun _ => hb (by omega), fun _ => hhi (by omega), fun _ => rfl⟩
  | n + 6 =>
    exact ⟨fun _ => ha (by omega), fun _ => hb (by omega), fun _ => hhi (by omega), fun _ => hlo (by omega)⟩

theorem notPhase_sent {a : Word} {n : Nat} {l : AluLatches} (h : complementSent a n l) :
    complementSent a (n + 1) (notPhase a n l) := by
  obtain ⟨ha, hr⟩ := h
  match n with
  | 0 => exact ⟨fun _ => rfl, by omega⟩
  | 1 =>
    have hl : notPhase a 1 l = { l with res := ~~~a } := by
      simp only [notPhase, ha (by omega), alu, aluNot, AluLatches.retrieve]
    rw [hl]
    exact ⟨fun _ => ha (by omega), fun _ => rfl⟩
  | n + 2 => exact ⟨fun _ => ha (by omega), fun _ => hr (by omega)⟩

/-- `form EA` loads the sum at once, and nothing after it moves the latches. -/
theorem addressPhase_res {base off : Word} {n : Nat} {l : AluLatches} (h : 0 < n → l.res = base + off) :
    (addressPhase base off n l).res = base + off := by
  match n with
  | 0 => rfl
  | n + 1 => exact h (by omega)

theorem linkPhase_res {pc : Word} {n : Nat} {l : AluLatches} (h : 0 < n → l.res = pc + 4#32) :
    (linkPhase pc n l).res = pc + 4#32 := by
  match n with
  | 0 => rfl
  | n + 1 => exact h (by omega)

/-- The branch target the alu_unit forms from the zero-extended field (log 21). -/
theorem retrieve_btarget (pc : Word) (v : Imm16) (l : AluLatches) :
    l.retrieve (alu .btarget pc (zimm v)) = { l with res := aluBranchTarget pc v } := by
  have hv : (zimm v).setWidth 16 = v := by
    apply BitVec.eq_of_toNat_eq
    simp [zimm]
  simp only [alu, hv, AluLatches.retrieve]

theorem compareBranchPhase_sent {op : AluOp} {a b pc : Word} {c : Bool} {v : Imm16} {n : Nat} {l : AluLatches}
    (hop : alu op a b = .condition c) (h : compareBranchSent a b c (aluBranchTarget pc v) n l) :
    compareBranchSent a b c (aluBranchTarget pc v) (n + 1) (compareBranchPhase op a b pc v n l) := by
  obtain ⟨ha, hb, hc, hr⟩ := h
  match n with
  | 0 => exact ⟨fun _ => rfl, by omega, by omega, by omega⟩
  | 1 => exact ⟨fun _ => ha (by omega), fun _ => rfl, by omega, by omega⟩
  | 2 => exact ⟨fun _ => ha (by omega), fun _ => hb (by omega), by omega, by omega⟩
  | 3 =>
    have hl : compareBranchPhase op a b pc v 3 l = { l with cond := c } := by
      simp only [compareBranchPhase, ha (by omega), hb (by omega), hop, AluLatches.retrieve]
    rw [hl]
    exact ⟨fun _ => ha (by omega), fun _ => hb (by omega), fun _ => rfl, by omega⟩
  | 4 =>
    have hl : compareBranchPhase op a b pc v 4 l = { l with res := aluBranchTarget pc v } :=
      retrieve_btarget pc v l
    rw [hl]
    exact ⟨fun _ => ha (by omega), fun _ => hb (by omega), fun _ => hc (by omega), fun _ => rfl⟩
  | n + 5 =>
    exact ⟨fun _ => ha (by omega), fun _ => hb (by omega), fun _ => hc (by omega), fun _ => hr (by omega)⟩

/-- The condition on one register does not look at the `B` latch, which the phases never load. -/
theorem zeroBranchPhase_sent {op : AluOp} {a pc : Word} {c : Bool} {v : Imm16} {n : Nat} {l : AluLatches}
    (hop : ∀ b, alu op a b = .condition c) (h : zeroBranchSent a c (aluBranchTarget pc v) n l) :
    zeroBranchSent a c (aluBranchTarget pc v) (n + 1) (zeroBranchPhase op a pc v n l) := by
  obtain ⟨ha, hc, hr⟩ := h
  match n with
  | 0 => exact ⟨fun _ => rfl, by omega, by omega⟩
  | 1 => exact ⟨fun _ => ha (by omega), by omega, by omega⟩
  | 2 =>
    have hl : zeroBranchPhase op a pc v 2 l = { l with cond := c } := by
      simp only [zeroBranchPhase, ha (by omega), hop, AluLatches.retrieve]
    rw [hl]
    exact ⟨fun _ => ha (by omega), fun _ => rfl, by omega⟩
  | 3 =>
    have hl : zeroBranchPhase op a pc v 3 l = { l with res := aluBranchTarget pc v } :=
      retrieve_btarget pc v l
    rw [hl]
    exact ⟨fun _ => ha (by omega), fun _ => hc (by omega), fun _ => rfl⟩
  | n + 4 => exact ⟨fun _ => ha (by omega), fun _ => hc (by omega), fun _ => hr (by omega)⟩

/-! ### The ALU latches of an instruction -/

/-- Before the first microstep the latches may hold anything. -/
theorem latchesAfter_zero (i : Instr) (s : State) : latchesAfter i 0 s := by
  cases i <;> simp [latchesAfter, twoOperandsSent]

/-- Microstep `n` of `i` takes the latches from what they hold after `n` microsteps to what they hold after
`n + 1`. -/
theorem latchesAfter_succ {i : Instr} {n : Nat} {s : State} (h : latchesAfter i n s) :
    latchesAfter i (n + 1) (s.setAlu (aluPhase i n s)) := by
  cases i with
  | add rs rt rd => exact twoOperandPhase_sent rfl h
  | sub rs rt rd => exact twoOperandPhase_sent rfl h
  | and rs rt rd => exact twoOperandPhase_sent rfl h
  | or rs rt rd => exact twoOperandPhase_sent rfl h
  | xor rs rt rd => exact twoOperandPhase_sent rfl h
  | slt rs rt rd => exact twoOperandPhase_sent rfl h
  | addi rs rt v => exact twoOperandPhase_sent rfl h
  | andi rs rt v => exact twoOperandPhase_sent rfl h
  | ori rs rt v => exact twoOperandPhase_sent rfl h
  | slti rs rt v => exact sltiPhase_sent h
  | mul rs rt => exact mulPhase_sent h
  | not rs rd => exact notPhase_sent h
  | lw rs rt v => exact fun _ => addressPhase_res h
  | sw rs rt v => exact fun _ => addressPhase_res h
  | beq rs rt v => exact compareBranchPhase_sent rfl h
  | bne rs rt v => exact compareBranchPhase_sent rfl h
  | blez rs v => exact zeroBranchPhase_sent (fun _ => rfl) h
  | bgtz rs v => exact zeroBranchPhase_sent (fun _ => rfl) h
  | jal target => exact fun _ => linkPhase_res h
  | j target => trivial
  | terminator => trivial

/-! ### The invariant -/

/-- With no instruction in flight the invariant is its memory clause. -/
theorem inv_of_idle {s : State} (hmem : s.MemoryOk) (h0 : s.mstep = 0) : s.Inv :=
  ⟨hmem, .inl h0, .inl h0⟩

/-- A terminal microstep leaves no instruction in flight, and memory as the effect left it. -/
theorem terminalMicrostep_inv {s : State} (hmem : s.MemoryOk) (i : Instr) :
    (terminalMicrostep i s).2.Inv := by
  rcases terminalMicrostep_cases i s with ⟨t, he, ht⟩ | ⟨f, _, hf⟩
  · rw [ht]
    exact inv_of_idle ((exec_keeps_memoryOk he hmem).congr rfl rfl) rfl
  · rw [hf]
    exact inv_of_idle (hmem.congr rfl rfl) rfl

/-- A microstep of the instruction that is latched and stands at `pc`, its latches as its microsteps so far
left them. -/
theorem microstepOf_inv {s : State} (hmem : s.MemoryOk) (hfetch : s.fetchRead s.pc = .ok s.ir)
    (hdec : decode s.ir = .ok s.kind) (hkind : s.kind ≠ .terminator)
    (hlatch : latchesAfter s.kind s.mstep s) : (microstepOf s.kind s).2.Inv := by
  by_cases hlt : s.mstep + 1 < Params.microsteps s.kind
  · rw [microstepOf, if_pos hlt]
    exact ⟨hmem.congr rfl rfl, .inr ⟨hfetch, hdec, hkind, hlt⟩, .inr (latchesAfter_succ hlatch)⟩
  · rw [microstepOf, if_neg hlt]
    exact terminalMicrostep_inv hmem s.kind

/-- A call with no instruction in flight stops with the state unchanged, or runs the first microstep of the
instruction it has just latched. -/
theorem firstMicrostep_inv {s : State} (hs : s.Inv) (h0 : s.mstep = 0) : (firstMicrostep s).2.Inv := by
  obtain ⟨hmem, _, _⟩ := hs
  have hstay : s.Inv := inv_of_idle hmem h0
  rcases firstMicrostep_cases s with ⟨_, _, h⟩ | ⟨_, _, h⟩ | ⟨_, _, _, _, h⟩ | ⟨w, i, hf, hd, hi, h⟩
  · rw [h]; exact hstay
  · rw [h]; exact hstay
  · rw [h]; exact hstay
  · rw [h]
    have hlatch : latchesAfter i (s.setFetched w i).mstep (s.setFetched w i) := by
      rw [State.setFetched_mstep, h0]
      exact latchesAfter_zero i _
    exact microstepOf_inv (s := s.setFetched w i) (hmem.congr rfl rfl) hf hd hi hlatch

/-- Settles O44: a call either fetches or goes on with the instruction in flight; a microstep of an
instruction counts and moves the latches one phase on, or ends it. -/
theorem microstepKeepsTheInvariant : Obligations.MicrostepKeepsTheInvariant := by
  intro s hs
  by_cases h0 : s.mstep = 0
  · rw [runMicrostep, if_pos h0]
    exact firstMicrostep_inv hs h0
  · obtain ⟨hmem, hflight, hlatch⟩ := hs
    obtain ⟨hfetch, hdec, hkind, _⟩ := hflight.resolve_left h0
    rw [runMicrostep, if_neg h0]
    exact microstepOf_inv hmem hfetch hdec hkind (hlatch.resolve_left h0)

/-- Settles O45: a step leaves an idle state as it was, or ends an effect, which keeps the memory clause and
goes idle. -/
theorem stepKeepsTheInvariant : Obligations.StepKeepsTheInvariant := by
  intro s t hs h
  rcases step_next_cases h with ⟨h0, rfl⟩ | ⟨i, u, he, rfl⟩
  · exact ⟨hs, h0⟩
  · obtain ⟨hmem, _, _⟩ := hs
    exact ⟨inv_of_idle ((exec_keeps_memoryOk he hmem).congr rfl rfl) rfl, rfl⟩

end Sys2Proof.Machine
end

section
/-! PROOFS. The register file under both settings of R0_HARDWIRED (spec/10_state.md R22, R23), and the state
after construction (R41; spec/70_reset_and_hazards.md R230). -/

namespace Sys2Proof.Machine

/-! ### The register file -/

/-- A read after a stored write, under either setting: hardwired, register 0 still reads 0. -/
theorem State.readRegWith_setX_set (hw : Bool) (s : State) (i j : Reg) (v : Word) :
    (s.setX (s.x.set i v)).readRegWith hw j =
      if hw = true ∧ j = 0 then 0#32 else if j = i then v else s.readRegWith hw j := by
  by_cases hz : hw = true ∧ j = 0
  · simp [State.readRegWith, hz]
  · by_cases hij : j = i
    · subst hij; simp [State.readRegWith, hz]
    · have hval : ¬ i.val = j.val := fun e => hij (Fin.ext e.symm)
      simp [State.readRegWith, hz, hij, hval]

theorem State.writeRegWith_hardwired_zero (s : State) (v : Word) : s.writeRegWith true 0 v = s := rfl

/-- Settles O8: a write is either the discarded one to the hardwired register 0 or it stores into `x[i]`. -/
theorem registerReadsWhatWasWritten : Obligations.RegisterReadsWhatWasWritten := by
  refine ⟨fun hw s i j v => ?_, State.writeRegWith_hardwired_zero,
    fun s i j v => State.readReg_writeReg i j v s⟩
  rcases State.writeRegWith_cases hw i v s with ⟨hhw, hi, h⟩ | ⟨_, h⟩
  · rw [h, hhw, hi]
    by_cases hj : j = 0
    · simp [State.readRegWith, hj]
    · simp [hj]
  · rw [h]
    exact State.readRegWith_setX_set hw s i j v

/-! ### Construction -/

theorem construct_readReg (n : Nat) (r : Reg) :
    (State.construct n).readReg r = if r = Params.spIndex then BitVec.ofNat 32 (n - 4) else 0#32 := by
  show (State.setX _ State.reset).readRegWith false r = _
  by_cases hr : r = Params.spIndex
  · subst hr; simp [State.readRegWith]
  · have hval : ¬ Params.spIndex.val = r.val := fun e => hr (Fin.ext e.symm)
    simp [State.readRegWith, hr, hval]

theorem construct_memoryOk {n : Nat} (hlo : 4 ≤ n) (hhi : n ≤ 2 ^ 31 - 1) : (State.construct n).MemoryOk :=
  ⟨Memory.wf_nil, fun _ hc => absurd hc List.not_mem_nil, hlo, hhi⟩

theorem construct_inv {n : Nat} (hlo : 4 ≤ n) (hhi : n ≤ 2 ^ 31 - 1) : (State.construct n).Inv :=
  inv_of_idle (construct_memoryOk hlo hhi) rfl

theorem construct_pcAligned (n : Nat) : (State.construct n).PcAligned := rfl

theorem reset_eq_construct : State.reset = State.construct Params.memSize := rfl

/-- Settles O46: memory is empty and no instruction is in flight; `State.reset` is the construction of its own
size, which is in range. -/
theorem constructionMeetsTheInvariant : Obligations.ConstructionMeetsTheInvariant := by
  refine ⟨fun n hlo hhi => ⟨construct_inv hlo hhi, construct_pcAligned n⟩, ?_⟩
  rw [reset_eq_construct]
  exact ⟨construct_inv (by decide) (by decide), construct_pcAligned _⟩

theorem construct_eq_some {n : Nat} (h : 4 ≤ n ∧ n ≤ 2 ^ 31 - 1) : construct n = some (State.construct n) :=
  if_pos h

theorem construct_eq_none {n : Nat} (h : ¬ (4 ≤ n ∧ n ≤ 2 ^ 31 - 1)) : construct n = none :=
  if_neg h

/-- Settles O48: in range the constructed state is read field by field, out of range there is none. -/
theorem constructionState : Obligations.ConstructionState := by
  refine fun n => ⟨fun h => ⟨State.construct n, construct_eq_some h, ?_, fun r hr => ?_, rfl, rfl, rfl,
    fun _ => rfl, rfl, rfl⟩, construct_eq_none⟩
  · have hsp : (State.construct n).readReg 29 = BitVec.ofNat 32 (n - 4) := construct_readReg n Params.spIndex
    rw [hsp]
    exact Nat.mod_eq_of_lt (by omega)
  · rw [construct_readReg]
    exact if_neg hr

end Sys2Proof.Machine
end

section
/-! PROOFS. Bounds, byte order and the signed reading of an address (spec/20_memory.md R51 to R57), and that a
store is seen by what reads it (R66; spec/70_reset_and_hazards.md R243). -/

namespace Sys2Proof.Machine

/-! ### Reads -/

theorem State.readAccess_of_fits {s : State} {addr : Word} (kind : AccessKind) (h : uint addr + 4 ≤ s.memSize) :
    s.readAccess kind addr = .ok (Memory.readWord s.mem (uint addr)) := by
  rcases State.readAccess_cases s kind addr with ⟨_, hr⟩ | ⟨hb, _⟩
  · exact hr
  · exact absurd h hb

theorem State.readAccess_of_not_fits {s : State} {addr : Word} (kind : AccessKind)
    (h : ¬ uint addr + 4 ≤ s.memSize) : s.readAccess kind addr = .error (.memoryOutOfBounds kind addr) := by
  rcases State.readAccess_cases s kind addr with ⟨hb, _⟩ | ⟨_, hr⟩
  · exact absurd hb h
  · exact hr

/-- While the size is below 2^31 no address that reads negative is in bounds, so either reading of the address
gives the same verdict (R57). -/
theorem fits_iff_sint {addr : Word} {n : Nat} (hn : n ≤ 2 ^ 31 - 1) :
    uint addr + 4 ≤ n ↔ 0 ≤ sint addr ∧ sint addr + 4 ≤ (n : Int) := by
  have hu : uint addr < 2 ^ 32 := addr.isLt
  have hs : sint addr = if 2 * uint addr < 2 ^ 32 then (uint addr : Int) else uint addr - 2 ^ 32 :=
    BitVec.toInt_eq_toNat_cond addr
  split at hs <;> omega

/-- Settles O9: the two cases of a read, the word's bytes weighed, and the signed reading of the address. -/
theorem readsAreBoundsCheckedAndBigEndian : Obligations.ReadsAreBoundsCheckedAndBigEndian := fun s kind _ =>
  ⟨fun h => ⟨_, s.readAccess_of_fits kind h, wordOfBytes_toNat _ _ _ _⟩, s.readAccess_of_not_fits kind,
    fits_iff_sint⟩

/-! ### Reads after a store -/

/-- A store that completes was in bounds, and the next state is the four bytes written and `pc` moved on. -/
theorem exec_sw_next {s t : State} {rs rt : Reg} {v : Imm16} (h : exec (.sw rs rt v) s = .next t) :
    uint (s.effectiveAddress rs v) + 4 ≤ s.memSize ∧
      t = (s.setMem (Memory.writeWord s.mem (uint (s.effectiveAddress rs v)) (s.readReg rt))).setPc
        (s.pc + 4#32) := by
  rcases exec_next_cases h with ⟨_, _, _, hd, _⟩ | ⟨_, _, hi, _⟩ | ⟨_, _, _, hi, hb, ht⟩ | ⟨hsw, _⟩
  · cases hd
  · cases hi
  · cases hi; exact ⟨hb, ht⟩
  · exact absurd rfl (hsw rs rt v)

/-- Fetches and loads read the one memory, so a read of either kind gives the stored word. -/
theorem exec_sw_readAccess {s t : State} {rs rt : Reg} {v : Imm16} (hwf : Memory.wf s.mem)
    (h : exec (.sw rs rt v) s = .next t) (kind : AccessKind) :
    t.readAccess kind (s.effectiveAddress rs v) = .ok (s.readReg rt) := by
  obtain ⟨hb, rfl⟩ := exec_sw_next h
  rw [State.readAccess_of_fits kind (by simpa using hb), State.setPc_mem, State.setMem_mem,
    Memory.readWord_writeWord_self _ _ _ hwf]

/-- Settles O51: the read after the store is a fetch; the next fetch is at `pc + 4`, where the store went. -/
theorem storeIsSeenByTheNextFetch : Obligations.StoreIsSeenByTheNextFetch := by
  intro s t rs rt imm16 hs h
  obtain ⟨hwf, _⟩ := hs
  have hfetch : t.fetchRead (s.effectiveAddress rs imm16) = .ok (s.readReg rt) :=
    exec_sw_readAccess hwf h .fetch
  have hpc : t.pc = s.pc + 4#32 := by
    obtain ⟨_, rfl⟩ := exec_sw_next h
    rfl
  refine ⟨hfetch, fun hea => ?_⟩
  rwa [hpc, ← hea]

end Sys2Proof.Machine
end

section
/-! PROOFS. Decoder and encoder are inverse to each other but for the ignored bits (spec/30_encoding.md R80 to
R87, R92, R96, R97). -/

namespace Sys2Proof

/-! ### Instructions back from their words -/

theorem decode_encode (i : Instr) : decode (encode i) = .ok i := by
  cases i with
  | add rs rt rd | sub rs rt rd | and rs rt rd | or rs rt rd | xor rs rt rd | slt rs rt rd | mul rs rt
  | not rs rd =>
    rw [encode, decode_encodeR _ _ _ _ _ (by decide)]
    simp [decodeRType]
  | beq rs rt v | bne rs rt v | addi rs rt v | slti rs rt v | andi rs rt v | ori rs rt v | lw rs rt v
  | sw rs rt v | blez rs v | bgtz rs v =>
    rw [encode, decode_encodeI _ _ _ _ (by decide)]
    simp [decodeIType]
  | j v | jal v =>
    rw [encode, decode_encodeJ _ _ (by decide)]
    simp [decodeIType]
  | terminator => rfl

theorem decodeBytes_bytesOfWord_append (w : Word) (rest : List Byte) :
    decodeBytes (bytesOfWord w ++ rest) = (decode w).map (fun i => (i, rest)) := by
  simp [bytesOfWord, decodeBytes, Machine.wordOfBytes_byteOfWord]

@[simp] theorem fieldFits_reg (r : Reg) : fieldFits 5 r = true := decide_eq_true r.isLt

@[simp] theorem fieldFits_toNat {n : Nat} (v : BitVec n) : fieldFits n v.toNat = true := decide_eq_true v.isLt

/-- The field types carry the bounds. -/
theorem wellFormed_eq_true (i : Instr) : i.wellFormed = true := by
  cases i <;> simp [Instr.wellFormed]

/-- Settles O1: the word by the format's fields, the bytes by putting the word together again. -/
theorem decodeOfEncodeIsIdentity : Obligations.DecodeOfEncodeIsIdentity := by
  intro i rest
  refine ⟨wellFormed_eq_true i, decode_encode i, ?_⟩
  rw [encodeBytes, decodeBytes_bytesOfWord_append, decode_encode]
  rfl

/-! ### Fields of a word with other bits cleared -/

section
variable {m : Word} (w : Word)

theorem extractLsb'_and_not {a n : Nat} (h : a + n ≤ 32) (hm : m.extractLsb' a n = 0#n) :
    (w &&& ~~~m).extractLsb' a n = w.extractLsb' a n := by
  ext k hk
  have hlt : a + k < 32 := by omega
  have hbit : m[a + k] = false := by
    rw [← BitVec.getLsbD_eq_getElem, ← BitVec.getElem_extractLsb' hk]; simp [hm]
  simp [hlt, hbit]

theorem extractLsb'_and_not_eq_zero {a n : Nat} (hm : m.extractLsb' a n = BitVec.allOnes n) :
    (w &&& ~~~m).extractLsb' a n = 0#n := by
  ext k hk
  have hbit : m.getLsbD (a + k) = true := by
    rw [← BitVec.getElem_extractLsb' hk]; simp [hm]
  simp [hbit]

theorem opcodeField_and_not (hm : opcodeField m = 0#6) : opcodeField (w &&& ~~~m) = opcodeField w := by
  rw [opcodeField_eq_extractLsb'] at *
  rw [extractLsb'_and_not w (by decide) hm, opcodeField_eq_extractLsb']

theorem functField_and_not (hm : functField m = 0#6) : functField (w &&& ~~~m) = functField w := by
  rw [functField_eq_extractLsb'] at *
  rw [extractLsb'_and_not w (by decide) hm, functField_eq_extractLsb']

theorem imm16Field_and_not (hm : imm16Field m = 0#16) : imm16Field (w &&& ~~~m) = imm16Field w := by
  rw [imm16Field_eq_extractLsb'] at *
  rw [extractLsb'_and_not w (by decide) hm, imm16Field_eq_extractLsb']

theorem imm26Field_and_not (hm : imm26Field m = 0#26) : imm26Field (w &&& ~~~m) = imm26Field w := by
  rw [imm26Field_eq_extractLsb'] at *
  rw [extractLsb'_and_not w (by decide) hm, imm26Field_eq_extractLsb']

theorem rsField_eq_extractLsb'_toFin : rsField w = (w.extractLsb' 21 5).toFin :=
  Fin.ext (rsField_val_eq_extractLsb' w)

theorem rsField_and_not (hm : rsField m = 0) : rsField (w &&& ~~~m) = rsField w := by
  rw [rsField_eq_extractLsb'_toFin] at *
  rw [extractLsb'_and_not w (by decide) (BitVec.toFin_inj.mp hm), rsField_eq_extractLsb'_toFin]

theorem rtField_and_not (hm : rtField m = 0) : rtField (w &&& ~~~m) = rtField w :=
  congrArg BitVec.toFin (extractLsb'_and_not w (by decide) (BitVec.toFin_inj.mp hm))

theorem rdField_and_not (hm : rdField m = 0) : rdField (w &&& ~~~m) = rdField w :=
  congrArg BitVec.toFin (extractLsb'_and_not w (by decide) (BitVec.toFin_inj.mp hm))

theorem rtField_and_not_eq_zero (hm : rtField m = 31) : rtField (w &&& ~~~m) = 0 :=
  congrArg BitVec.toFin (extractLsb'_and_not_eq_zero w (BitVec.toFin_inj.mp hm))

theorem rdField_and_not_eq_zero (hm : rdField m = 31) : rdField (w &&& ~~~m) = 0 :=
  congrArg BitVec.toFin (extractLsb'_and_not_eq_zero w (BitVec.toFin_inj.mp hm))

theorem shamtField_and_not_eq_zero (hm : shamtField m = 31#5) : shamtField (w &&& ~~~m) = 0#5 :=
  extractLsb'_and_not_eq_zero w hm

end

/-! ### The ignored bits lie outside opcode, funct and `rs` -/

theorem opcodeField_ignoredBits (i : Instr) : opcodeField (ignoredBits i) = 0#6 := by
  cases i <;> simp only [ignoredBits] <;> decide

theorem functField_ignoredBits (i : Instr) : functField (ignoredBits i) = 0#6 := by
  cases i <;> simp only [ignoredBits] <;> decide

theorem rsField_ignoredBits (i : Instr) : rsField (ignoredBits i) = 0 := by
  cases i <;> simp only [ignoredBits] <;> decide

/-! ### Every word is its format's word of its fields -/

theorem encodeR_fields {w : Word} (ho : opcodeField w = 0#6) :
    encodeR (rsField w) (rtField w) (rdField w) (shamtField w) (functField w) = w := by
  have hop : w.toNat / 2 ^ 26 = 0 := by rw [← opcodeField_toNat, ho]; rfl
  apply BitVec.eq_of_toNat_eq
  rw [encodeR_toNat, rsField_val, rtField_val, rdField_val, shamtField, extractLsb'_toNat_eq_div_mod,
    functField_toNat]
  omega

theorem encodeI_fields (w : Word) : encodeI (opcodeField w) (rsField w) (rtField w) (imm16Field w) = w := by
  apply BitVec.eq_of_toNat_eq
  rw [encodeI_toNat, opcodeField_toNat, rsField_val, rtField_val, imm16Field_toNat]
  omega

theorem encodeJ_fields (w : Word) : encodeJ (opcodeField w) (imm26Field w) = w := by
  apply BitVec.eq_of_toNat_eq
  rw [encodeJ_toNat, opcodeField_toNat, imm26Field_toNat]
  omega

/-! ### Words back from their instructions -/

theorem encode_of_decodeRType {w : Word} {i : Instr} (ho : opcodeField w = 0#6) (h : decodeRType w = .ok i) :
    encode i = w &&& ~~~ignoredBits i := by
  have hop : opcodeField (w &&& ~~~ignoredBits i) = 0#6 := by
    rw [opcodeField_and_not w (opcodeField_ignoredBits i), ho]
  rw [← encodeR_fields hop, rsField_and_not w (rsField_ignoredBits i),
    functField_and_not w (functField_ignoredBits i)]
  unfold decodeRType at h
  split at h
  case h_9 => cases h
  case h_3 hf =>
    cases h
    rw [encode, ignoredBits, hf, rtField_and_not w rfl, rdField_and_not_eq_zero w rfl,
      shamtField_and_not_eq_zero w rfl]
  case h_7 hf =>
    cases h
    rw [encode, ignoredBits, hf, rtField_and_not_eq_zero w rfl, rdField_and_not w rfl,
      shamtField_and_not_eq_zero w rfl]
  all_goals
    next hf =>
      cases h
      rw [encode, ignoredBits, hf, rtField_and_not w rfl, rdField_and_not w rfl,
        shamtField_and_not_eq_zero w rfl]

theorem encode_of_decodeIType {w : Word} {i : Instr} (h : decodeIType w = .ok i) :
    encode i = w &&& ~~~ignoredBits i := by
  have hop := opcodeField_and_not w (opcodeField_ignoredBits i)
  have hrs := rsField_and_not w (rsField_ignoredBits i)
  unfold decodeIType at h
  split at h
  case h_13 => cases h
  case h_2 ho | h_3 ho =>
    cases h
    rw [← encodeJ_fields (w &&& _), hop, ho, encode, ignoredBits, imm26Field_and_not w rfl]
  case h_1 ho | h_6 ho =>
    cases h
    rw [← encodeI_fields (w &&& _), hop, ho, hrs, encode, ignoredBits, rtField_and_not_eq_zero w rfl,
      imm16Field_and_not w rfl]
  all_goals
    next ho =>
      cases h
      rw [← encodeI_fields (w &&& _), hop, ho, hrs, encode, ignoredBits, rtField_and_not w rfl,
        imm16Field_and_not w rfl]

theorem encode_of_decode {w : Word} {i : Instr} (h : decode w = .ok i) : encode i = w &&& ~~~ignoredBits i := by
  unfold decode at h
  split at h
  next h0 => cases h; subst h0; rfl
  next =>
    split at h
    next ho => exact encode_of_decodeRType ho h
    next => exact encode_of_decodeIType h

/-! ### Decoding by opcode and funct -/

theorem decode_of_opcode_zero {w : Word} (ho : opcodeField w = 0#6) (hf : functField w ≠ 0#6) :
    decode w = decodeRType w := by
  have h0 : w ≠ 0#32 := by rintro rfl; exact hf rfl
  simp [decode, h0, ho]

theorem decode_of_opcode_ne_zero {w : Word} (ho : opcodeField w ≠ 0#6) : decode w = decodeIType w := by
  have h0 : w ≠ 0#32 := by rintro rfl; exact ho rfl
  simp [decode, h0, ho]

/-- The decoder reads only fields outside the ignored bits, so a word that differs from `encode i` in ignored
bits alone decodes to `i`. -/
theorem decode_of_encode_eq {w : Word} {i : Instr} (h : encode i = w &&& ~~~ignoredBits i) :
    decode w = .ok i := by
  have hop : opcodeField w = opcodeField (encode i) := by
    rw [h, opcodeField_and_not w (opcodeField_ignoredBits i)]
  have hfn : functField w = functField (encode i) := by
    rw [h, functField_and_not w (functField_ignoredBits i)]
  have hrs : rsField w = rsField (encode i) := by rw [h, rsField_and_not w (rsField_ignoredBits i)]
  have hrt (hm : rtField (ignoredBits i) = 0) : rtField w = rtField (encode i) := by
    rw [h, rtField_and_not w hm]
  have hrd (hm : rdField (ignoredBits i) = 0) : rdField w = rdField (encode i) := by
    rw [h, rdField_and_not w hm]
  have himm (hm : imm16Field (ignoredBits i) = 0#16) : imm16Field w = imm16Field (encode i) := by
    rw [h, imm16Field_and_not w hm]
  have htarget (hm : imm26Field (ignoredBits i) = 0#26) : imm26Field w = imm26Field (encode i) := by
    rw [h, imm26Field_and_not w hm]
  cases i with
  | add rs rt rd | sub rs rt rd | and rs rt rd | or rs rt rd | xor rs rt rd | slt rs rt rd =>
    simp only [ignoredBits] at hrt hrd
    simp [decode_of_opcode_zero, decodeRType, encode, hop, hfn, hrs, hrt rfl, hrd rfl]
  | mul rs rt =>
    simp only [ignoredBits] at hrt
    simp [decode_of_opcode_zero, decodeRType, encode, hop, hfn, hrs, hrt rfl]
  | not rs rd =>
    simp only [ignoredBits] at hrd
    simp [decode_of_opcode_zero, decodeRType, encode, hop, hfn, hrs, hrd rfl]
  | beq rs rt v | bne rs rt v | addi rs rt v | slti rs rt v | andi rs rt v | ori rs rt v | lw rs rt v
  | sw rs rt v =>
    simp only [ignoredBits] at hrt himm
    simp [decode_of_opcode_ne_zero, decodeIType, encode, hop, hrs, hrt rfl, himm rfl]
  | blez rs v | bgtz rs v =>
    simp only [ignoredBits] at himm
    simp [decode_of_opcode_ne_zero, decodeIType, encode, hop, hrs, himm rfl]
  | j v | jal v =>
    simp only [ignoredBits] at htarget
    simp [decode_of_opcode_ne_zero, decodeIType, encode, hop, htarget rfl]
  | terminator =>
    simp only [ignoredBits] at htarget
    have hw : w = 0#32 := by rw [← encodeJ_fields w, hop, htarget rfl]; rfl
    rw [hw]; rfl

/-- The decoder inverts the encoder up to the ignored bits. -/
theorem decode_eq_ok_iff {w : Word} {i : Instr} : decode w = .ok i ↔ encode i = w &&& ~~~ignoredBits i :=
  ⟨encode_of_decode, decode_of_encode_eq⟩

/-- Settles O2: a word that agrees with `w` outside the ignored bits meets the same equation with `encode i`. -/
theorem encodeOfDecodeClearsOnlyIgnoredBits : Obligations.EncodeOfDecodeClearsOnlyIgnoredBits := by
  intro w i h
  have henc : encode i = w &&& ~~~ignoredBits i := decode_eq_ok_iff.mp h
  exact ⟨henc, fun v hv => decode_eq_ok_iff.mpr (henc.trans hv.symm)⟩

end Sys2Proof
end

section
/-! PROOFS. The opcode table and the words it leaves UNKNOWN (spec/30_encoding.md R85 to R87, R92 to R94;
spec/opcode_table.json). -/

namespace Sys2Proof

/-! ### The listed words -/

/-- The opcode values of R86 and R87. -/
def listedOpcodes : List Nat := [0, 1, 2, 3, 4, 5, 6, 8, 10, 12, 13, 35, 43]

/-- The funct values of R86. -/
def listedFuncts : List Nat := [0x20, 0x22, 0x18, 0x24, 0x25, 0x26, 0x27, 0x2A]

/-- R93: the words that the opcode and funct lists leave out. -/
def Unlisted (w : Word) : Prop :=
  w ≠ 0#32 ∧ ((opcodeField w).toNat ∉ listedOpcodes ∨
    ((opcodeField w).toNat = 0 ∧ (functField w).toNat ∉ listedFuncts))

theorem decodeRType_cases (w : Word) :
    (∃ i, decodeRType w = .ok i ∧ (functField w).toNat ∈ listedFuncts) ∨
      (decodeRType w = .error (.unknownOpcode w) ∧ (functField w).toNat ∉ listedFuncts) := by
  unfold decodeRType
  split
  case h_9 =>
    simp_all [listedFuncts, ← BitVec.toNat_inj]
  all_goals
    next hf => exact .inl ⟨_, rfl, by rw [hf]; decide⟩

theorem decodeIType_cases (w : Word) (ho : opcodeField w ≠ 0#6) :
    (∃ i, decodeIType w = .ok i ∧ (opcodeField w).toNat ∈ listedOpcodes) ∨
      (decodeIType w = .error (.unknownOpcode w) ∧ (opcodeField w).toNat ∉ listedOpcodes) := by
  unfold decodeIType
  split
  case h_13 =>
    simp_all [listedOpcodes, ← BitVec.toNat_inj]
  all_goals
    next hop => exact .inl ⟨_, rfl, by rw [hop]; decide⟩

/-- A word decodes, or is UNKNOWN and unlisted. -/
theorem decode_cases (w : Word) :
    (∃ i, decode w = .ok i ∧ ¬ Unlisted w) ∨ (decode w = .error (.unknownOpcode w) ∧ Unlisted w) := by
  by_cases h0 : w = 0#32
  · exact .inl ⟨.terminator, by simp [decode, h0], fun h => h.1 h0⟩
  by_cases ho : opcodeField w = 0#6
  · have hd : decode w = decodeRType w := by simp [decode, h0, ho]
    have hz : (opcodeField w).toNat = 0 := by rw [ho]; rfl
    have hlist : (opcodeField w).toNat ∈ listedOpcodes := by rw [ho]; decide
    rcases decodeRType_cases w with ⟨i, hi, hf⟩ | ⟨he, hf⟩
    · exact .inl ⟨i, hd.trans hi, fun ⟨_, h⟩ => h.elim (· hlist) (·.2 hf)⟩
    · exact .inr ⟨hd.trans he, h0, .inr ⟨hz, hf⟩⟩
  · have hd := decode_of_opcode_ne_zero ho
    have hz : (opcodeField w).toNat ≠ 0 := fun h => ho (BitVec.eq_of_toNat_eq h)
    rcases decodeIType_cases w ho with ⟨i, hi, hlist⟩ | ⟨he, hlist⟩
    · exact .inl ⟨i, hd.trans hi, fun ⟨_, h⟩ => h.elim (· hlist) (hz ·.1)⟩
    · exact .inr ⟨hd.trans he, h0, .inl hlist⟩

theorem decode_eq_unknown_iff (w : Word) : decode w = .error (.unknownOpcode w) ↔ Unlisted w := by
  rcases decode_cases w with ⟨i, hi, hl⟩ | ⟨he, hu⟩
  · simp [hi, hl]
  · simp [he, hu]

/-- Settles O4: R93's words by `decode_cases`; an UNKNOWN word stops the first microstep. -/
theorem unknownWordsAreTheUnlistedOnes : Obligations.UnknownWordsAreTheUnlistedOnes := by
  refine ⟨fun w => ⟨decode_eq_unknown_iff w, ?_⟩, by decide, by decide, ?_⟩
  · rcases decode_cases w with ⟨i, hi, _⟩ | ⟨he, _⟩
    · exact .inl ⟨i, hi⟩
    · exact .inr he
  · intro s w h0 hf hd
    simp only [Machine.runMicrostep, Machine.firstMicrostep, h0, hf, hd, if_true]

/-! ### Rows and words -/

/-- No two rows agree where both masks are set. -/
theorem opcodeTable_disjoint : ∀ r ∈ opcodeTable, ∀ q ∈ opcodeTable,
    r.pattern &&& q.mask = q.pattern &&& r.mask → r = q := by decide

theorem TableRow.covers_iff (r : TableRow) (w : Word) : r.covers w = true ↔ w &&& r.mask = r.pattern := by
  simp [TableRow.covers]

theorem covers_unique {w : Word} {r q : TableRow} (hr : r ∈ opcodeTable) (hq : q ∈ opcodeTable)
    (hrw : r.covers w = true) (hqw : q.covers w = true) : r = q := by
  apply opcodeTable_disjoint r hr q hq
  rw [← (r.covers_iff w).mp hrw, ← (q.covers_iff w).mp hqw, BitVec.and_assoc, BitVec.and_assoc,
    BitVec.and_comm r.mask]

theorem find?_covers {w : Word} {r : TableRow} (hr : r ∈ opcodeTable) (hrw : r.covers w = true) :
    opcodeTable.find? (fun q => q.covers w) = some r := by
  cases hq : opcodeTable.find? (fun q => q.covers w) with
  | none => exact absurd hrw (List.find?_eq_none.mp hq r hr)
  | some q =>
    have hqw : q.covers w = true := List.find?_some (p := fun q : TableRow => q.covers w) hq
    rw [covers_unique hr (List.mem_of_find?_eq_some hq) hrw hqw]

/-- A row fixes bits outside the ignored ones. -/
theorem mask_and_ignoredBits (i : Instr) :
    ∀ r ∈ opcodeTable, r.mnemonic = i.mnemonic → r.mask &&& ignoredBits i = 0#32 := by
  cases i <;> simp only [ignoredBits, Instr.mnemonic] <;> decide

/-- The row of every instruction's mnemonic covers its word. -/
theorem row_covers_encode (i : Instr) : Laws.TableRow.Statement i := by
  cases i with
  | add rs rt rd => exact Laws.TableRow.add rs rt rd
  | sub rs rt rd => exact Laws.TableRow.sub rs rt rd
  | mul rs rt => exact Laws.TableRow.mul rs rt
  | and rs rt rd => exact Laws.TableRow.and rs rt rd
  | or rs rt rd => exact Laws.TableRow.or rs rt rd
  | xor rs rt rd => exact Laws.TableRow.xor rs rt rd
  | not rs rd => exact Laws.TableRow.not rs rd
  | slt rs rt rd => exact Laws.TableRow.slt rs rt rd
  | bgtz rs v => exact Laws.TableRow.bgtz rs v
  | j v => exact Laws.TableRow.j v
  | jal v => exact Laws.TableRow.jal v
  | beq rs rt v => exact Laws.TableRow.beq rs rt v
  | bne rs rt v => exact Laws.TableRow.bne rs rt v
  | blez rs v => exact Laws.TableRow.blez rs v
  | addi rs rt v => exact Laws.TableRow.addi rs rt v
  | slti rs rt v => exact Laws.TableRow.slti rs rt v
  | andi rs rt v => exact Laws.TableRow.andi rs rt v
  | ori rs rt v => exact Laws.TableRow.ori rs rt v
  | lw rs rt v => exact Laws.TableRow.lw rs rt v
  | sw rs rt v => exact Laws.TableRow.sw rs rt v
  | terminator => exact Laws.TableRow.terminator

theorem and_not_and_of_and_eq_zero {w m n : Word} (h : n &&& m = 0#32) : w &&& ~~~m &&& n = w &&& n := by
  have hn : ~~~m &&& n = n := by
    ext k hk
    have hdisj : (n &&& m)[k] = false := by simp [h]
    rw [BitVec.getElem_and] at hdisj
    cases hnk : n[k] <;> simp_all
  rw [BitVec.and_assoc, hn]

/-- The row of the decoded mnemonic covers the word: the ignored bits are not in the row's mask. -/
theorem exists_row_of_decode {w : Word} {i : Instr} (h : decode w = .ok i) :
    ∃ r ∈ opcodeTable, r.mnemonic = i.mnemonic ∧ r.covers w = true := by
  obtain ⟨r, hr, hname, hcov⟩ := row_covers_encode i
  refine ⟨r, hr, hname, (r.covers_iff w).mpr ?_⟩
  rw [← (r.covers_iff _).mp hcov, encode_of_decode h,
    and_not_and_of_and_eq_zero (mask_and_ignoredBits i r hr hname)]

/-- What each row fixes: the whole zero word, or a listed opcode, and with opcode 0 a listed funct. -/
theorem opcodeTable_listed : ∀ r ∈ opcodeTable,
    (r.mask = ~~~0#32 ∧ r.pattern = 0#32) ∨
      (opcodeField (~~~r.mask) = 0#6 ∧ (opcodeField r.pattern).toNat ∈ listedOpcodes ∧
        ((opcodeField r.pattern).toNat = 0 →
          functField (~~~r.mask) = 0#6 ∧ (functField r.pattern).toNat ∈ listedFuncts)) := by
  decide

theorem not_unlisted_of_covers {w : Word} {r : TableRow} (hr : r ∈ opcodeTable) (hrw : r.covers w = true) :
    ¬ Unlisted w := by
  have hpat : w &&& ~~~~~~r.mask = r.pattern := by rw [BitVec.not_not]; exact (r.covers_iff w).mp hrw
  rintro ⟨h0, hun⟩
  rcases opcodeTable_listed r hr with ⟨hm, hp⟩ | ⟨hm, hop, hfn⟩
  · apply h0
    rw [BitVec.not_not, hm, hp, BitVec.not_zero, BitVec.and_allOnes] at hpat
    exact hpat
  · rw [← hpat, opcodeField_and_not w hm] at hop hfn
    rcases hun with hun | ⟨hz, hun⟩
    · exact hun hop
    · obtain ⟨hmf, hf⟩ := hfn hz
      rw [functField_and_not w hmf] at hf
      exact hun hf

/-- Settles O3: a word that decodes is covered by the row of its mnemonic, and rows do not overlap; a word
that does not decode is unlisted, and every row covers listed words only. -/
theorem decodeFollowsTheOpcodeTable : Obligations.DecodeFollowsTheOpcodeTable := by
  refine ⟨fun w => ?_, fun w r q => covers_unique⟩
  rcases decode_cases w with ⟨i, hi, _⟩ | ⟨he, hu⟩
  · obtain ⟨r, hr, hname, hcov⟩ := exists_row_of_decode hi
    rw [hi, find?_covers hr hcov]
    exact congrArg some hname.symm
  · have hnone : opcodeTable.find? (fun r => r.covers w) = none :=
      List.find?_eq_none.mpr fun r hr hcov => not_unlisted_of_covers hr hcov hu
    rw [he, hnone]
    rfl

/-- Settles O5: ten closed words, computed. -/
theorem specWordsDecode : Obligations.SpecWordsDecode := by
  unfold Obligations.SpecWordsDecode
  decide

end Sys2Proof
end

section
/-! PROOFS. The assembler forms, labels and register names (spec/30_encoding.md R90, R91, R97;
spec/10_state.md R24), and the zero word (spec/40_execution_cycle.md R113). -/

namespace Sys2Proof.Machine

/-! ### Assembler forms -/

theorem assemble_disassemble {i : Instr} {l : AsmLine} (h : disassemble i = some l) : assemble l = some i := by
  cases i <;> cases h <;> simp [assemble]

/-! ### Branch labels -/

/-- The field of a branch offset is found again two bits up. -/
theorem setWidth_branchOffset_ushiftRight (off : Imm16) : (branchOffset off >>> 2).setWidth 16 = off := by
  ext k hk
  have hlt : 2 + k < 32 := by omega
  have hlt' : k < 32 := by omega
  have hshift : 1 < 2 + k := by omega
  simp [branchOffset, simm, BitVec.getElem_signExtend, hlt, hlt', hshift, hk]

theorem aluBranchTarget_of_labelOffset {pc label : Word} {off : Imm16} (h : labelOffset? pc label = some off) :
    aluBranchTarget pc off = label := by
  simp only [labelOffset?] at h
  split at h
  next hoff =>
    cases h
    rw [aluBranchTarget, hoff, BitVec.add_comm, BitVec.sub_add_cancel]
  next => cases h

theorem labelOffset_aluBranchTarget (pc : Word) (off : Imm16) :
    labelOffset? pc (aluBranchTarget pc off) = some off := by
  have hsub : aluBranchTarget pc off - pc = branchOffset off := by
    rw [aluBranchTarget, BitVec.add_comm, BitVec.add_sub_cancel]
  simp [labelOffset?, hsub, setWidth_branchOffset_ushiftRight]

/-! ### Jump labels -/

theorem and_regionMask_toNat (p : Word) : (p &&& 0xF0000000#32).toNat = p.toNat / 2 ^ 28 * 2 ^ 28 := by
  have hmask : p &&& 0xF0000000#32 = (p >>> 28) <<< 28 := by
    apply BitVec.eq_of_getLsbD_eq
    intro i hi
    interval_cases i <;> simp
  have := p.isLt
  rw [hmask]
  simp only [BitVec.toNat_shiftLeft, BitVec.toNat_ushiftRight, Nat.shiftRight_eq_div_pow, Nat.shiftLeft_eq]
  omega

theorem jumpOffset_toNat (v : Imm26) : (jumpOffset v).toNat = 4 * v.toNat := by
  have := v.isLt
  simp only [jumpOffset, BitVec.toNat_shiftLeft, BitVec.toNat_setWidth, Nat.shiftLeft_eq]
  omega

/-- The region base of `p` and four times the field, as numbers. -/
theorem aluJumpTarget_toNat (p : Word) (v : Imm26) :
    (aluJumpTarget p v).toNat = p.toNat / 2 ^ 28 * 2 ^ 28 + 4 * v.toNat := by
  have hlow : 4 * v.toNat < 2 ^ 28 := by have := v.isLt; omega
  rw [aluJumpTarget, BitVec.toNat_or, and_regionMask_toNat, jumpOffset_toNat, ← Nat.shiftLeft_eq,
    Nat.shiftLeft_add_eq_or_of_lt hlow]

theorem labelTarget_toNat (label : Word) : (labelTarget label).toNat = label.toNat / 4 % 2 ^ 26 := by
  simp [labelTarget, BitVec.toNat_ushiftRight, Nat.shiftRight_eq_div_pow]

theorem aluJumpTarget_labelTarget {pc label : Word} (haligned : uint label % 4 = 0)
    (hregion : uint label / 2 ^ 28 = uint pc / 2 ^ 28) : aluJumpTarget pc (labelTarget label) = label := by
  apply BitVec.eq_of_toNat_eq
  rw [aluJumpTarget_toNat, labelTarget_toNat]
  simp only [uint] at haligned hregion
  omega

/-! ### Register names -/

theorem regOfName_regNames : ∀ r : Reg, (regNames[r.val]?).bind regOfName? = some r := by decide

/-- Settles O7: each form assembles back, an offset field and its byte offset determine each other, and a
word-aligned label is its region's base and four times its field. -/
theorem assemblerFormsAndLabels : Obligations.AssemblerFormsAndLabels :=
  ⟨fun _ _ => assemble_disassemble, fun _ _ _ => aluBranchTarget_of_labelOffset, labelOffset_aluBranchTarget,
    fun _ _ => aluJumpTarget_labelTarget, regOfName_regNames⟩

/-! ### The zero word -/

theorem firstMicrostep_of_zero_word {s : State} (hf : s.fetchRead s.pc = .ok 0#32) :
    firstMicrostep s = (.exhausted s.pc, s) := by
  have hd : decode 0#32 = .ok .terminator := rfl
  simp only [firstMicrostep, hf, hd]
  rfl

/-- Settles O27: the first microstep stops with EXHAUSTED, which ends the call, and is no error. -/
theorem terminatorChangesNothing : Obligations.TerminatorChangesNothing := by
  refine ⟨rfl, fun _ => rfl, fun s h0 hf => ?_⟩
  have hfirst : firstMicrostep s = (.exhausted s.pc, s) := firstMicrostep_of_zero_word hf
  have hcall : runInstruction s = (.exhausted s.pc, s) := runInstruction_of_first_stops h0 hfirst (by simp)
  refine ⟨?_, hcall, ?_⟩
  · rw [runMicrostep, if_pos h0, hfirst]
  · rw [step, hcall]
    rfl

end Sys2Proof.Machine
end

section
/-! PROOFS. One microstep: the errors of fetch and decode, the intermediate and the terminal microstep, and which
results leave the architectural state alone (spec/40_execution_cycle.md R110 to R119, R124; spec/60_exceptions.md
R203, R206, R207). -/

namespace Sys2Proof.Machine

/-! ### The microstep of an instruction -/

theorem microstepOf_of_lt {i : Instr} {s : State} (h : s.mstep + 1 < Params.microsteps i) :
    microstepOf i s = intermediateMicrostep i s := if_pos h

theorem microstepOf_of_last {i : Instr} {s : State} (h : ¬ s.mstep + 1 < Params.microsteps i) :
    microstepOf i s = terminalMicrostep i s := if_neg h

theorem terminalMicrostep_of_next {i : Instr} {s t : State} (h : exec i s = .next t) :
    terminalMicrostep i s = (.retired, t.idle) := by
  simp only [terminalMicrostep, h]

theorem terminalMicrostep_of_fault {i : Instr} {s : State} {f : Fault} (h : exec i s = .fault f) :
    terminalMicrostep i s = (.error f, s.idle) := by
  simp only [terminalMicrostep, h]

theorem terminalMicrostep_mstep (i : Instr) (s : State) : (terminalMicrostep i s).2.mstep = 0 := by
  rcases terminalMicrostep_cases i s with ⟨t, _, h⟩ | ⟨f, _, h⟩
  · rw [h]; rfl
  · rw [h]; rfl

theorem sameArch_refl (s : State) : SameArch s s := sameArch_withHiddenOf s s

theorem sameArch_idle (s : State) : SameArch s s.idle := sameArch_withHiddenOf s s.idle

/-! ### What a call meets at `pc` -/

theorem State.nextInstr_of_fetch_error {s : State} {f : Fault} (hf : s.fetchRead s.pc = .error f) :
    s.nextInstr = .error (.error f) := by
  simp only [State.nextInstr, hf]

theorem State.nextInstr_of_unknown {s : State} {w : Word} {e : DecodeError} (hf : s.fetchRead s.pc = .ok w)
    (hd : decode w = .error e) : s.nextInstr = .error (.error (.unknownOpcode w)) := by
  simp only [State.nextInstr, hf, hd]

theorem State.nextInstr_of_zero_word {s : State} (hf : s.fetchRead s.pc = .ok 0#32) :
    s.nextInstr = .error (.exhausted s.pc) := by
  have hd : decode 0#32 = .ok .terminator := rfl
  simp only [State.nextInstr, hf, hd]

theorem State.nextInstr_of_decoded {s : State} {w : Word} {i : Instr} (hf : s.fetchRead s.pc = .ok w)
    (hd : decode w = .ok i) (hi : i ≠ .terminator) : s.nextInstr = .ok i := by
  simp only [State.nextInstr, hf, hd]

/-- What a first microstep does follows what it meets: it stops with the state unchanged, or it runs
microstep 0 of the instruction it latches. -/
theorem firstMicrostep_follows_nextInstr (s : State) :
    (∃ r, s.nextInstr = .error r ∧ firstMicrostep s = (r, s)) ∨
      ∃ w i, s.nextInstr = .ok i ∧ firstMicrostep s = microstepOf i (s.setFetched w i) := by
  rcases firstMicrostep_cases s with ⟨_, hf, h⟩ | ⟨_, hf, h⟩ | ⟨w, e, hf, hd, h⟩ | ⟨w, i, hf, hd, hi, h⟩
  · exact .inl ⟨_, State.nextInstr_of_fetch_error hf, h⟩
  · exact .inl ⟨_, State.nextInstr_of_zero_word hf, h⟩
  · exact .inl ⟨_, State.nextInstr_of_unknown hf hd, h⟩
  · exact .inr ⟨w, i, State.nextInstr_of_decoded hf hd hi, h⟩

/-! ### One call -/

theorem runMicrostep_of_idle {s : State} (h0 : s.mstep = 0) : runMicrostep s = firstMicrostep s := if_pos h0

theorem runMicrostep_of_inFlight {s : State} (h0 : s.mstep ≠ 0) : runMicrostep s = microstepOf s.kind s :=
  if_neg h0

theorem runMicrostep_of_stops {s : State} {r : StepResult} (h0 : s.mstep = 0) (hr : s.nextInstr = .error r) :
    runMicrostep s = (r, s) := by
  rw [runMicrostep_of_idle h0]
  rcases firstMicrostep_follows_nextInstr s with ⟨q, hq, h⟩ | ⟨_, _, hi, _⟩
  · rw [hr] at hq; cases hq; exact h
  · rw [hr] at hi; cases hi

theorem runMicrostep_of_decoded {s : State} {w : Word} {i : Instr} (h0 : s.mstep = 0)
    (hf : s.fetchRead s.pc = .ok w) (hd : decode w = .ok i) (hi : i ≠ .terminator) :
    runMicrostep s = microstepOf i (s.setFetched w i) := by
  rw [runMicrostep_of_idle h0]
  simp only [firstMicrostep, hf, hd]

/-- The inversion of one call: it stops where it is, or it is a microstep of an instruction, on the same
architectural state. -/
theorem runMicrostep_cases (s : State) :
    (s.mstep = 0 ∧ ∃ r, runMicrostep s = (r, s)) ∨
      ∃ i h, runMicrostep s = microstepOf i (s.withHiddenOf h) := by
  by_cases h0 : s.mstep = 0
  · rcases firstMicrostep_follows_nextInstr s with ⟨r, hr, _⟩ | ⟨w, i, _, h⟩
    · exact .inl ⟨h0, r, runMicrostep_of_stops h0 hr⟩
    · exact .inr ⟨i, s.setFetched w i, (runMicrostep_of_idle h0).trans h⟩
  · exact .inr ⟨s.kind, s, runMicrostep_of_inFlight h0⟩

/-- What a microstep of an instruction may change, by its result. -/
theorem microstepOf_cases (i : Instr) (s : State) :
    (∃ h, microstepOf i s = (.continued, s.withHiddenOf h)) ∨
      (∃ t, exec i s = .next t ∧ microstepOf i s = (.retired, t.idle)) ∨
      ∃ f, exec i s = .fault f ∧ microstepOf i s = (.error f, s.idle) := by
  by_cases hlt : s.mstep + 1 < Params.microsteps i
  · obtain ⟨h, _, _, _, _, he⟩ := intermediateMicrostep_eq i s
    exact .inl ⟨h, (microstepOf_of_lt hlt).trans he⟩
  · rw [microstepOf_of_last hlt]
    exact .inr (terminalMicrostep_cases i s)

/-! ### The results of one call -/

/-- Settles O36: the microstep of an instruction in flight that is not its last. -/
theorem intermediateMicrostepOnlyCounts : Obligations.IntermediateMicrostepOnlyCounts := by
  intro s h1 hlt
  have hrun : runMicrostep s = intermediateMicrostep s.kind s := by
    rw [runMicrostep_of_inFlight (by omega), microstepOf_of_lt (by omega)]
  obtain ⟨h, hmstep, hir, hkind, _, he⟩ := intermediateMicrostep_eq s.kind s
  exact ⟨s.withHiddenOf h, hrun.trans he, hmstep, sameArch_withHiddenOf s h, hir, hkind⟩

/-- Settles O37: the last microstep ends the effect and goes idle. -/
theorem terminalMicrostepCommits : Obligations.TerminalMicrostepCommits := by
  intro s h1 hlast
  have hrun : runMicrostep s = terminalMicrostep s.kind s := by
    rw [runMicrostep_of_inFlight (by omega), microstepOf_of_last (by omega)]
  refine ⟨fun t he => ⟨t.idle, ?_, sameArch_idle t, rfl⟩, fun f he => ⟨s.idle, ?_, sameArch_idle s, rfl⟩⟩
  · rw [hrun, terminalMicrostep_of_next he]
  · rw [hrun, terminalMicrostep_of_fault he]

/-- Settles O39: a call that stops leaves the state, an intermediate microstep or an error leaves all but the
hidden state, and retirement and errors go idle. -/
theorem onlyRetirementChangesArchitecture : Obligations.OnlyRetirementChangesArchitecture := by
  intro s t r hrun
  rcases runMicrostep_cases s with ⟨h0, q, hq⟩ | ⟨i, h, hi⟩
  · rw [hq] at hrun; cases hrun
    exact ⟨fun _ => sameArch_refl s, fun _ => h0, fun _ => h0⟩
  · rw [hi] at hrun
    rcases microstepOf_cases i (s.withHiddenOf h) with ⟨k, hk⟩ | ⟨u, _, hu⟩ | ⟨f, _, hf⟩
    · rw [hk] at hrun; cases hrun
      exact ⟨fun _ => sameArch_withHiddenOf s k, by simp, by simp⟩
    · rw [hu] at hrun; cases hrun
      exact ⟨fun hne => absurd rfl hne, fun _ => rfl, fun _ => rfl⟩
    · rw [hf] at hrun; cases hrun
      exact ⟨fun _ => sameArch_withHiddenOf s (s.withHiddenOf h).idle, fun _ => rfl, fun _ => rfl⟩

/-! ### The errors of fetch and decode -/

/-- An effect's error is a load or a store out of bounds. -/
theorem exec_ne_fetch_fault (i : Instr) (s : State) (a : Word) :
    exec i s ≠ .fault (.memoryOutOfBounds .fetch a) := by
  rcases exec_cases i s with ⟨_, _, _, _, _, h⟩ | ⟨_, _, _, h⟩ | ⟨_, _, _, _, _, h⟩ | ⟨_, _, _, _, _, h⟩ |
    ⟨_, _, _, ⟨_, _, h⟩ | ⟨_, _, h⟩⟩ <;> simp [h]

/-- A microstep of an instruction returns no fetch error: the fetch is before it. -/
theorem microstepOf_ne_fetch_error (i : Instr) (s : State) (a : Word) :
    (microstepOf i s).1 ≠ .error (.memoryOutOfBounds .fetch a) := by
  rcases microstepOf_cases i s with ⟨k, hk⟩ | ⟨u, _, hu⟩ | ⟨f, he, hf⟩
  · simp [hk]
  · simp [hu]
  · rw [hf]
    rintro ⟨⟩
    exact exec_ne_fetch_fault i s a he

theorem fetchRead_eq_error {s : State} {f : Fault} (hf : s.fetchRead s.pc = .error f) :
    f = .memoryOutOfBounds .fetch s.pc := by
  rcases State.readAccess_cases s .fetch s.pc with ⟨_, hr⟩ | ⟨_, hr⟩
  · cases hf.symm.trans hr
  · cases hf.symm.trans hr; rfl

/-- Settles O33: after a fetch that succeeds, a call stops on the word or runs a microstep of its instruction,
and neither returns a fetch error. -/
theorem fetchOutOfBoundsChangesNothing : Obligations.FetchOutOfBoundsChangesNothing := by
  intro s h0
  refine ⟨fun f hf => ?_, fun w hw a => ?_⟩
  · have hoob : f = .memoryOutOfBounds .fetch s.pc := fetchRead_eq_error hf
    subst hoob
    exact ⟨rfl, runMicrostep_of_stops h0 (State.nextInstr_of_fetch_error hf)⟩
  · rw [runMicrostep_of_idle h0]
    rcases firstMicrostep_cases s with ⟨_, hf, _⟩ | ⟨_, _, h⟩ | ⟨_, _, _, _, h⟩ | ⟨w, i, _, _, _, h⟩
    · cases hw.symm.trans hf
    · simp [h]
    · simp [h]
    · rw [h]
      exact microstepOf_ne_fetch_error i _ a

/-- Settles O35: the word stops both calls where they are. -/
theorem unknownOpcodeChangesNothing : Obligations.UnknownOpcodeChangesNothing := by
  intro s w e h0 hf hd
  have hnext : s.nextInstr = .error (.error (.unknownOpcode w)) := State.nextInstr_of_unknown hf hd
  refine ⟨runMicrostep_of_stops h0 hnext, ?_⟩
  rw [runInstruction_of_idle h0, hnext]
  rfl

end Sys2Proof.Machine
end

section
/-! PROOFS. Whole instructions and runs: the step, the microsteps of an instruction one by one, and what
runInstruction and runToCompletion end with (spec/40_execution_cycle.md R112 to R123, R127; spec/60_exceptions.md
R211, R219; spec/70_reset_and_hazards.md R245). -/

namespace Sys2Proof.Machine

/-! ### The step -/

theorem outcomeOf_terminalMicrostep (i : Instr) (s : State) :
    outcomeOf (terminalMicrostep i s) = mapNext State.idle (exec i s) := by
  unfold terminalMicrostep
  cases exec i s with
  | next t => rfl
  | fault f => rfl
  | refused r => rfl

/-- Only the zero word decodes to the terminator, which ignores no bit. -/
theorem eq_zero_of_decode_terminator {w : Word} (h : decode w = .ok .terminator) : w = 0#32 := by
  have henc : 0#32 = w &&& ~~~0#32 := encode_of_decode h
  rwa [BitVec.not_zero, BitVec.and_allOnes, eq_comm] at henc

/-- Settles O32: the call is the terminal microstep of the decoded instruction; the terminator is the zero
word, where the step stays. -/
theorem stepRunsTheDecodedInstruction : Obligations.StepRunsTheDecodedInstruction := by
  intro s w i h0 hf hd
  refine ⟨fun hi => ?_, ?_, fun t => ⟨sameArch_idle t, rfl⟩⟩
  · rw [step, runInstruction_decoded h0 hf hd hi, outcomeOf_terminalMicrostep]
  · rintro rfl
    rw [eq_zero_of_decode_terminator hd] at hf
    obtain ⟨_, hexec, hzero⟩ := terminatorChangesNothing
    obtain ⟨_, _, hstep⟩ := hzero s h0 hf
    rw [hstep, hexec]

theorem step_of_error {s : State} {f : Fault} (h0 : s.mstep = 0) (h : s.nextInstr = .error (.error f)) :
    step s = .fault f := by
  rw [step, runInstruction_of_idle h0, h]
  rfl

/-- Settles O34: the fetch is in bounds or not, and in bounds it reads the four bytes' word. -/
theorem stepStopsOnFetchAndDecodeErrors : Obligations.StepStopsOnFetchAndDecodeErrors := by
  refine fun s h0 => ⟨fun hb => ?_, fun w e hb hw hd => ?_⟩
  · exact step_of_error h0 (State.nextInstr_of_fetch_error (State.readAccess_of_not_fits .fetch hb))
  · have hf : s.fetchRead s.pc = .ok w := (State.readAccess_of_fits .fetch hb).trans (congrArg _ hw)
    exact step_of_error h0 (State.nextInstr_of_unknown hf hd)

/-! ### The microsteps of an instruction, one by one -/

theorem afterMicrosteps_succ (k : Nat) (s : State) :
    afterMicrosteps (k + 1) s = (runMicrostep (afterMicrosteps k s)).2 := by
  induction k generalizing s with
  | zero => rfl
  | succ k ih => exact ih (runMicrostep s).2

/-- Call `k` of an instruction is its microstep `k`, on the architectural state of the first call, with IR and
KIND latched. -/
theorem runMicrostep_afterMicrosteps {s : State} {w : Word} {i : Instr} (h0 : s.mstep = 0)
    (hf : s.fetchRead s.pc = .ok w) (hd : decode w = .ok i) (hi : i ≠ .terminator) (k : Nat)
    (hk : k < Params.microsteps i) :
    ∃ h : State, h.mstep = k ∧ h.ir = w ∧ h.kind = i ∧ h.draws = s.draws ∧
      runMicrostep (afterMicrosteps k s) = microstepOf i (s.withHiddenOf h) := by
  induction k with
  | zero => exact ⟨s.setFetched w i, h0, rfl, rfl, rfl, runMicrostep_of_decoded h0 hf hd hi⟩
  | succ k ih =>
    obtain ⟨h, hm, hir, hkind, hdraws, hrun⟩ := ih (by omega)
    obtain ⟨h', hm', hir', hkind', hdraws', he⟩ := intermediateMicrostep_eq i (s.withHiddenOf h)
    have hlt : (s.withHiddenOf h).mstep + 1 < Params.microsteps i := by show h.mstep + 1 < _; omega
    have hstate : afterMicrosteps (k + 1) s = s.withHiddenOf h' := by
      rw [afterMicrosteps_succ, hrun, microstepOf_of_lt hlt, he, State.withHiddenOf_trans]
    have hmstep : h'.mstep = k + 1 := hm'.trans (congrArg (· + 1) hm)
    have hflight : (s.withHiddenOf h').mstep ≠ 0 := by show h'.mstep ≠ 0; omega
    refine ⟨h', hmstep, hir'.trans hir, hkind'.trans hkind, hdraws'.trans hdraws, ?_⟩
    rw [hstate, runMicrostep_of_inFlight hflight]
    exact congrArg (microstepOf · _) (hkind'.trans hkind)

/-- Settles O38: call `k` is microstep `k`; before the last it only counts, and the last is the terminal
microstep, which does not look at the latches. -/
theorem instructionTakesItsMicrosteps : Obligations.InstructionTakesItsMicrosteps := by
  refine ⟨fun _ _ _ => ⟨rfl, rfl, rfl, rfl, rfl, rfl, rfl, rfl⟩,
    fun _ _ _ => ⟨rfl, rfl, rfl, rfl, rfl, rfl, rfl, rfl, rfl, rfl⟩, fun _ => ⟨rfl, rfl⟩,
    fun s w i h0 hf hd hi => ⟨fun k hk => ?_, ?_⟩⟩
  · obtain ⟨h, hm, hir, hkind, _, hrun⟩ := runMicrostep_afterMicrosteps h0 hf hd hi k (by omega)
    obtain ⟨h', hm', hir', hkind', _, he⟩ := intermediateMicrostep_eq i (s.withHiddenOf h)
    have hlt : (s.withHiddenOf h).mstep + 1 < Params.microsteps i := by show h.mstep + 1 < _; omega
    rw [afterMicrosteps_succ, hrun, microstepOf_of_lt hlt, he]
    exact ⟨rfl, sameArch_withHiddenOf s h', hm'.trans (congrArg (· + 1) hm), hir'.trans hir,
      hkind'.trans hkind⟩
  · obtain ⟨hpos, _⟩ := microsteps_bounds i
    obtain ⟨h, hm, _, _, hdraws, hrun⟩ :=
      runMicrostep_afterMicrosteps h0 hf hd hi (Params.microsteps i - 1) (by omega)
    have hlast : ¬ (s.withHiddenOf h).mstep + 1 < Params.microsteps i := by
      show ¬ h.mstep + 1 < _; omega
    rw [hrun, microstepOf_of_last hlast, terminalMicrostep_withHiddenOf i s h hdraws]
    rfl

/-! ### The loop of runInstruction -/

theorem runMicrosteps_succ_of_continued {s : State} (n : Nat) (h : (runMicrostep s).1 = .continued) :
    runMicrosteps (n + 1) s = runMicrosteps n (runMicrostep s).2 := by
  have hpair : runMicrostep s = (.continued, (runMicrostep s).2) := Prod.ext h rfl
  rw [runMicrosteps, hpair]

theorem runMicrosteps_succ_of_stops {s : State} (n : Nat) (h : (runMicrostep s).1 ≠ .continued) :
    runMicrosteps (n + 1) s = runMicrostep s := by
  rw [runMicrosteps]
  split
  next t hs => exact absurd (congrArg Prod.fst hs) h
  next => rfl

/-- A loop that does not run out ends at its first call that does not continue. -/
theorem runMicrosteps_eq_first_stop {n : Nat} {s : State} (h : (runMicrosteps n s).1 ≠ .continued) :
    ∃ k, k < n ∧ runMicrosteps n s = runMicrostep (afterMicrosteps k s) ∧
      ∀ j < k, (runMicrostep (afterMicrosteps j s)).1 = .continued := by
  induction n generalizing s with
  | zero => exact absurd rfl h
  | succ n ih =>
    by_cases hc : (runMicrostep s).1 = .continued
    · rw [runMicrosteps_succ_of_continued n hc] at h ⊢
      obtain ⟨k, hk, hrun, hbefore⟩ := ih h
      refine ⟨k + 1, by omega, hrun, fun j hj => ?_⟩
      cases j with
      | zero => exact hc
      | succ j => exact hbefore j (by omega)
    · exact ⟨0, by omega, runMicrosteps_succ_of_stops n hc, by omega⟩

/-- A terminal microstep returns its error with the architectural state unchanged, or retires; it goes idle. -/
theorem terminalMicrostep_results (i : Instr) (s : State) :
    (∃ f t, SameArch s t ∧ t.mstep = 0 ∧ terminalMicrostep i s = (.error f, t)) ∨
      ∃ t, t.mstep = 0 ∧ terminalMicrostep i s = (.retired, t) := by
  rcases terminalMicrostep_cases i s with ⟨t, _, ht⟩ | ⟨f, _, hf⟩
  · exact .inr ⟨t.idle, rfl, ht⟩
  · exact .inl ⟨f, s.idle, sameArch_idle s, rfl, hf⟩

/-- A call ends with the resting state's EXHAUSTED, with an error that leaves the architectural state, or by
retiring; no instruction is in flight after it. -/
theorem runInstruction_results (s : State) :
    (s.Resting ∧ runInstruction s = (.exhausted s.pc, s)) ∨
      (∃ f t, SameArch s t ∧ t.mstep = 0 ∧ runInstruction s = (.error f, t)) ∨
      ∃ t, t.mstep = 0 ∧ runInstruction s = (.retired, t) := by
  by_cases h0 : s.mstep = 0
  · rcases firstMicrostep_cases s with ⟨_, _, h⟩ | ⟨_, hf, h⟩ | ⟨_, _, _, _, h⟩ | ⟨w, i, hf, hd, hi, _⟩
    · exact .inr (.inl ⟨_, s, sameArch_refl s, h0, runInstruction_of_first_stops h0 h (by simp)⟩)
    · exact .inl ⟨⟨h0, hf⟩, runInstruction_of_first_stops h0 h (by simp)⟩
    · exact .inr (.inl ⟨_, s, sameArch_refl s, h0, runInstruction_of_first_stops h0 h (by simp)⟩)
    · rw [runInstruction_decoded h0 hf hd hi]
      exact .inr (terminalMicrostep_results i s)
  · rw [runInstruction_inFlight s h0]
    exact .inr (terminalMicrostep_results s.kind s)

theorem runInstruction_ne_continued (s : State) : (runInstruction s).1 ≠ .continued := by
  rcases runInstruction_results s with ⟨_, h⟩ | ⟨f, t, _, _, h⟩ | ⟨t, _, h⟩ <;> simp [h]

/-- Settles O40: the loop never runs out, so it ends at its first stop; in flight it comes to the terminal
microstep, which goes idle. -/
theorem runInstructionEndsWithinSevenCalls : Obligations.RunInstructionEndsWithinSevenCalls := by
  refine fun s => ⟨runMicrosteps_eq_first_stop (runInstruction_ne_continued s), ?_, fun h1 => ?_⟩
  · rcases runInstruction_results s with ⟨_, h⟩ | ⟨f, t, _, _, h⟩ | ⟨t, _, h⟩
    · exact .inr (.inl ⟨s.pc, congrArg Prod.fst h⟩)
    · exact .inr (.inr ⟨f, congrArg Prod.fst h⟩)
    · exact .inl (congrArg Prod.fst h)
  · have hrun : runInstruction s = terminalMicrostep s.kind s := runInstruction_inFlight s (by omega)
    exact ⟨hrun, by rw [hrun, terminalMicrostep_mstep]⟩

/-! ### A call that does not retire -/

theorem SameArch.eq_withHiddenOf {s t : State} (h : SameArch s t) : t = s.withHiddenOf t := by
  obtain ⟨hx, hpc, hhi, hlo, hmem, hsize⟩ := h
  simp only [State.withHiddenOf, ← hx, ← hpc, ← hhi, ← hlo, ← hmem, ← hsize]

/-- With no instruction in flight, states that agree in architecture get the same result. -/
theorem callOn_nextInstr_congr {s t : State} (h : SameArch s t) :
    (callOn t.nextInstr t).1 = (callOn s.nextInstr s).1 := by
  rw [h.eq_withHiddenOf, State.nextInstr_withHiddenOf]
  cases s.nextInstr with
  | error r => rfl
  | ok i => exact (terminalMicrostep_withHiddenOf_sameArch i s t).1

/-- An instruction in flight is the one that stands at `pc`, so the call is what it would be with none in
flight. -/
theorem runInstruction_of_inFlightOk {s : State} (hs : s.InFlightOk) :
    runInstruction s = callOn s.nextInstr s := by
  by_cases h0 : s.mstep = 0
  · exact runInstruction_of_idle h0
  · obtain ⟨hf, hd, hi, _⟩ := hs.resolve_left h0
    rw [runInstruction_inFlight s h0, State.nextInstr_of_decoded hf hd hi]
    rfl

theorem runInstruction_not_retired {s t : State} {r : StepResult} (h : runInstruction s = (r, t))
    (hr : r ≠ .retired) : SameArch s t ∧ t.mstep = 0 := by
  rcases runInstruction_results s with ⟨⟨h0, _⟩, hs⟩ | ⟨f, u, harch, hu0, hu⟩ | ⟨u, _, hu⟩
  · cases h.symm.trans hs; exact ⟨sameArch_refl s, h0⟩
  · cases h.symm.trans hu; exact ⟨harch, hu0⟩
  · cases h.symm.trans hu; exact absurd rfl hr

/-- Settles O41: the next call starts idle on the same architectural state, so it meets the same at `pc`. -/
theorem stoppingResultsRepeat : Obligations.StoppingResultsRepeat := by
  intro s t r hs hrun hr
  obtain ⟨harch, h0⟩ := runInstruction_not_retired hrun hr
  refine ⟨harch, h0, ?_⟩
  calc (runInstruction t).1 = (callOn t.nextInstr t).1 := by rw [runInstruction_of_idle h0]
    _ = (callOn s.nextInstr s).1 := callOn_nextInstr_congr harch
    _ = r := by rw [← runInstruction_of_inFlightOk hs, hrun]

/-! ### A run that ends with EXHAUSTED -/

theorem resting_of_runInstruction_exhausted {s t : State} {p : Word}
    (h : runInstruction s = (.exhausted p, t)) : t.Resting ∧ p = t.pc := by
  rcases runInstruction_results s with ⟨hrest, hs⟩ | ⟨f, u, _, _, hu⟩ | ⟨u, _, hu⟩
  · cases h.symm.trans hs; exact ⟨hrest, rfl⟩
  · cases h.symm.trans hu
  · cases h.symm.trans hu

/-- A run ends with the first call that does not retire. -/
theorem runInstruction_of_runToCompletion {fuel : Nat} {s t : State} {r : StepResult}
    (h : runToCompletion fuel s = (.ended r, t)) : ∃ u, runInstruction u = (r, t) := by
  induction fuel generalizing s with
  | zero => cases h
  | succ n ih =>
    rw [runToCompletion] at h
    split at h
    next u _ => exact ih h
    next hq => cases h; exact ⟨s, hq⟩

/-- Settles O42: the run's last call answers EXHAUSTED, and a step on the zero word stays. -/
theorem exhaustedRunEndsAtRest : Obligations.ExhaustedRunEndsAtRest := by
  intro fuel s t p h
  obtain ⟨u, hu⟩ := runInstruction_of_runToCompletion h
  obtain ⟨hrest, hp⟩ := resting_of_runInstruction_exhausted hu
  obtain ⟨h0, hf⟩ := hrest
  obtain ⟨_, _, hzero⟩ := terminatorChangesNothing
  obtain ⟨_, _, hstep⟩ := hzero t h0 hf
  exact ⟨⟨h0, hf⟩, hp, hstep⟩

end Sys2Proof.Machine
end

section
/-! PROOFS. The register-register instructions: their words, results and frames, and the law over `add` and
`sub` (spec/41_alu_register.md R141 to R149; spec/30_encoding.md R92). -/

namespace Sys2Proof.Machine

/-! ### Frames of the writes -/

/-- A register write and a `pc` write change nothing but the register and `pc`. -/
theorem changesOnlyRegs_writeReg_setPc (d : Reg) (v p : Word) (s : State) :
    ChangesOnlyRegs [d] s ((s.writeReg d v).setPc p) := by
  have hregs : SameRegsBut [d] s ((s.writeReg d v).setPc p) := fun r hr =>
    State.readReg_writeReg_ne (List.ne_of_not_mem_cons hr) v s
  exact ⟨hregs, s.writeReg_hi d v, s.writeReg_lo d v, ⟨s.writeReg_readByte d v, s.writeReg_memSize d v⟩,
    s.writeReg_mstep d v, s.writeReg_ir d v, s.writeReg_kind d v, s.writeReg_alu d v, s.writeReg_draws d v⟩

/-- The effect shared by the instructions with one destination: it completes, `d` takes `v`, `pc` advances by 4
and the rest stays. -/
theorem commitReg_completes (d : Reg) (v : Word) (s : State) :
    ∃ t, commitReg d v s = .next t ∧ t.readReg d = v ∧ t.pc = s.pc + 4#32 ∧ ChangesOnlyRegs [d] s t :=
  ⟨_, commitReg_eq d v s, State.readReg_writeReg_self d v s, rfl, changesOnlyRegs_writeReg_setPc d v _ s⟩

theorem changesOnlyHiLo_setHiLo_nextSeq (h l : Word) (s : State) :
    ChangesOnlyHiLo s (s.setHiLo h l).nextSeq :=
  ⟨fun _ _ => rfl, ⟨fun _ => rfl, rfl⟩, rfl, rfl, rfl, rfl, rfl⟩

/-! ### The signed product and its halves -/

/-- Only the high half carries the sign (R143, conflict C2). -/
theorem toInt_eq_halves (q : BitVec 64) :
    (uint (q.extractLsb' 0 32) : Int) + 2 ^ 32 * sint (q.extractLsb' 32 32) = q.toInt := by
  have hq := q.isLt
  have hlo : (q.extractLsb' 0 32).toNat = q.toNat % 2 ^ 32 := by simp [BitVec.extractLsb'_toNat]
  have hhi : (q.extractLsb' 32 32).toNat = q.toNat / 2 ^ 32 := by
    rw [BitVec.extractLsb'_toNat, Nat.shiftRight_eq_div_pow]; omega
  simp only [uint, sint, BitVec.toInt_eq_toNat_cond, hlo, hhi]
  split <;> split <;> omega

/-- The product of two words is at most 2^62 in size, so its 64-bit pattern holds it exactly. -/
theorem aluProduct_toInt (a b : Word) : (aluProduct a b).toInt = sint a * sint b := by
  have hle : sint a * sint b ≤ 2 ^ 62 := BitVec.toInt_mul_toInt_le
  have hge : -2 ^ 62 ≤ sint a * sint b := BitVec.le_toInt_mul_toInt
  exact BitVec.toInt_ofInt_eq_self (by decide) (by omega) (by omega)

/-- Settles O13: the exact product is its pattern's signed value, and that is the sum of the halves. -/
theorem mulWritesTheSignedProduct : Obligations.MulWritesTheSignedProduct := by
  intro s rs rt rd shamt
  have hword : decode (encodeR rs rt rd shamt 0x18#6) = .ok (.mul rs rt) := by
    simp [decode_encodeR, decodeRType]
  exact ⟨hword, _, rfl, rfl, rfl, (toInt_eq_halves _).trans (aluProduct_toInt _ _), rfl,
    changesOnlyHiLo_setHiLo_nextSeq _ _ s⟩

/-! ### Sum and difference -/

/-- Settles O49: the sum stands in `rd`, `rt` still reads as before since it is not `rd`, and the difference
cancels it. -/
theorem addThenSubRestores : Obligations.AddThenSubRestores := by
  intro s rs rt rd hne
  obtain ⟨t, hadd, hsum, _, hframe⟩ := commitReg_completes rd (s.readReg rs + s.readReg rt) s
  obtain ⟨u, hsub, hdiff, _⟩ := commitReg_completes rd (t.readReg rd - t.readReg rt) t
  obtain ⟨hregs, _⟩ := hframe
  have hrt : t.readReg rt = s.readReg rt := hregs rt (by simpa using hne.symm)
  refine ⟨t, u, hadd, hsub, ?_⟩
  rw [hdiff, hsum, hrt, BitVec.add_sub_cancel]

/-- Settles O11: a write of one register whose value is the sum. -/
theorem addWritesTheSum : Obligations.AddWritesTheSum := by
  intro s rs rt rd shamt
  have hword : decode (encodeR rs rt rd shamt 0x20#6) = .ok (.add rs rt rd) := by
    simp [decode_encodeR, decodeRType]
  obtain ⟨t, hexec, hval, hrest⟩ := commitReg_completes rd (s.readReg rs + s.readReg rt) s
  exact ⟨hword, t, hexec, (congrArg uint hval).trans (BitVec.toNat_add _ _), hrest⟩

theorem aluSub_eq_ofInt (a b : Word) : aluSub a b = BitVec.ofInt 32 (sint a - sint b) := by
  apply BitVec.eq_of_toInt_eq
  rw [aluSub, BitVec.toInt_sub, BitVec.toInt_ofInt]

/-- Settles O12: a write of one register whose value is the difference. -/
theorem subWritesTheDifference : Obligations.SubWritesTheDifference := by
  intro s rs rt rd shamt
  have hword : decode (encodeR rs rt rd shamt 0x22#6) = .ok (.sub rs rt rd) := by
    simp [decode_encodeR, decodeRType]
  obtain ⟨t, hexec, hval, hrest⟩ := commitReg_completes rd (aluSub (s.readReg rs) (s.readReg rt)) s
  exact ⟨hword, t, hexec, hval.trans (aluSub_eq_ofInt _ _), hrest⟩

/-! ### Bitwise operations -/

/-- `commitReg_completes` for a value known bit by bit, as the bitwise instructions are specified. -/
theorem commitReg_completes_bits (d : Reg) {v : Word} {bits : Nat → Bool} (hv : ∀ k < 32, v.getLsbD k = bits k)
    (s : State) :
    ∃ t, commitReg d v s = .next t ∧ (∀ k < 32, (t.readReg d).getLsbD k = bits k) ∧
      t.pc = s.pc + 4#32 ∧ ChangesOnlyRegs [d] s t := by
  obtain ⟨t, hexec, rfl, hrest⟩ := commitReg_completes d v s
  exact ⟨t, hexec, hv, hrest⟩

/-- Settles O14: three writes of one register, each value known bit by bit. -/
theorem andOrXorWriteBitByBit : Obligations.AndOrXorWriteBitByBit := by
  intro s rs rt rd shamt
  refine ⟨?_, ?_, ?_, ?_, ?_, ?_⟩
  · simp [decode_encodeR, decodeRType]
  · simp [decode_encodeR, decodeRType]
  · simp [decode_encodeR, decodeRType]
  · exact commitReg_completes_bits rd (fun _ _ => BitVec.getLsbD_and) s
  · exact commitReg_completes_bits rd (fun _ _ => BitVec.getLsbD_or) s
  · exact commitReg_completes_bits rd (fun _ _ => BitVec.getLsbD_xor) s

/-- Settles O15: a write of one register whose value is the complement, bit by bit. -/
theorem notWritesTheComplement : Obligations.NotWritesTheComplement := by
  intro s rs rt rd shamt
  have hword : decode (encodeR rs rt rd shamt 0x27#6) = .ok (.not rs rd) := by
    simp [decode_encodeR, decodeRType]
  have hbits : ∀ k < 32, (aluNot (s.readReg rs)).getLsbD k = !(s.readReg rs).getLsbD k := fun k hk => by
    rw [aluNot, BitVec.getLsbD_not, decide_eq_true hk, Bool.true_and]
  exact ⟨hword, commitReg_completes_bits rd hbits s⟩

/-! ### Signed comparison -/

theorem aluSlt_toNat (a b : Word) : uint (aluSlt a b) = if sint a < sint b then 1 else 0 := by
  by_cases h : sint a < sint b
  · simp [aluSlt, condLt, h]
  · simp [aluSlt, condLt, h]

/-- Settles O16: a write of one register whose value is the comparison's 1 or 0. -/
theorem sltComparesSigned : Obligations.SltComparesSigned := by
  intro s rs rt rd shamt
  have hword : decode (encodeR rs rt rd shamt 0x2A#6) = .ok (.slt rs rt rd) := by
    simp [decode_encodeR, decodeRType]
  obtain ⟨t, hexec, hval, hrest⟩ := commitReg_completes rd (aluSlt (s.readReg rs) (s.readReg rt)) s
  exact ⟨hword, t, hexec, (congrArg uint hval).trans (aluSlt_toNat _ _), hrest⟩

end Sys2Proof.Machine
end

section
/-! PROOFS. The register-immediate instructions: their immediates, words, results and frames, and the law over
`addi` of an immediate and of its negation (spec/42_alu_immediate.md R160 to R164; spec/30_encoding.md R88,
R89). -/

namespace Sys2Proof.Machine

/-! ### The immediates -/

@[simp] theorem simm_toInt (v : Imm16) : sint (simm v) = v.toInt :=
  BitVec.toInt_signExtend_of_le (by decide)

/-- Fails at 0x8000, which is its own negation (R164). -/
theorem simm_neg {v : Imm16} (h : v ≠ 0x8000#16) : simm (-v) = -simm v :=
  BitVec.signExtend_neg_of_ne_intMin v h

theorem zimm_getLsbD (v : Imm16) {k : Nat} (hk : k < 32) :
    (zimm v).getLsbD k = (decide (k < 16) && v.getLsbD k) := by
  rw [zimm, BitVec.getLsbD_setWidth]
  by_cases hlow : k < 16
  · rw [decide_eq_true hk, decide_eq_true hlow]
  · rw [BitVec.getLsbD_of_ge v k (by omega), Bool.and_false, Bool.and_false]

/-! ### Sums with an immediate -/

theorem exec_addi_completes (rs rt : Reg) (v : Imm16) (s : State) :
    ∃ t, exec (.addi rs rt v) s = .next t ∧ t.readReg rt = s.readReg rs + simm v ∧ t.pc = s.pc + 4#32 ∧
      ChangesOnlyRegs [rt] s t :=
  commitReg_completes rt (s.readReg rs + simm v) s

/-- Settles O50: `k` and `-k` sign-extend to words that cancel, and so do 0x8000, 0x7FFF and 1 together. -/
theorem addiThenNegatedAddiRestores : Obligations.AddiThenNegatedAddiRestores := by
  refine ⟨fun s rs rt k hk => ?_, fun s rs rt => ?_⟩
  · obtain ⟨t, hfst, hsum, _⟩ := exec_addi_completes rs rt k s
    obtain ⟨u, hsnd, hback, _⟩ := exec_addi_completes rt rt (-k) t
    refine ⟨t, u, hfst, hsnd, ?_⟩
    rw [hback, hsum, simm_neg hk, ← BitVec.sub_eq_add_neg, BitVec.add_sub_cancel]
  · obtain ⟨t, hfst, hsum, _⟩ := exec_addi_completes rs rt 0x8000#16 s
    obtain ⟨u, hsnd, hsum', _⟩ := exec_addi_completes rt rt 0x7FFF#16 t
    obtain ⟨v, hthd, hback, _⟩ := exec_addi_completes rt rt 0x0001#16 u
    have hzero : simm 0x8000#16 + (simm 0x7FFF#16 + simm 0x0001#16) = 0#32 := by decide
    refine ⟨t, u, v, hfst, hsnd, hthd, ?_⟩
    rw [hback, hsum', hsum, BitVec.add_assoc, BitVec.add_assoc, hzero, BitVec.add_zero]

theorem add_simm_eq_ofInt (a : Word) (v : Imm16) : a + simm v = BitVec.ofInt 32 (sint a + v.toInt) := by
  apply BitVec.eq_of_toInt_eq
  rw [BitVec.toInt_add, BitVec.toInt_ofInt, ← simm_toInt]

/-- Settles O17: a write of one register whose value is the sum with the sign-extended immediate. -/
theorem addiWritesTheSum : Obligations.AddiWritesTheSum := by
  intro s rs rt imm16
  obtain ⟨t, hexec, hval, hrest⟩ := exec_addi_completes rs rt imm16 s
  exact ⟨decode_encode (.addi rs rt imm16), t, hexec, hval.trans (add_simm_eq_ofInt _ _), hrest⟩

/-! ### Signed comparison with an immediate -/

/-- Settles O18: a write of one register whose value is the comparison's 1 or 0. -/
theorem sltiComparesSigned : Obligations.SltiComparesSigned := by
  intro s rs rt imm16
  have hslt : uint (aluSlt (s.readReg rs) (simm imm16)) = if sint (s.readReg rs) < imm16.toInt then 1 else 0 := by
    rw [aluSlt_toNat, simm_toInt]
  obtain ⟨t, hexec, hval, hrest⟩ := commitReg_completes rt (aluSlt (s.readReg rs) (simm imm16)) s
  exact ⟨decode_encode (.slti rs rt imm16), t, hexec, (congrArg uint hval).trans hslt, hrest⟩

/-! ### Bitwise operations with an immediate -/

theorem aluAnd_zimm_getLsbD (a : Word) (v : Imm16) (k : Nat) (hk : k < 32) :
    (aluAnd a (zimm v)).getLsbD k = (decide (k < 16) && (a.getLsbD k && v.getLsbD k)) := by
  rw [aluAnd, BitVec.getLsbD_and, zimm_getLsbD v hk, Bool.and_left_comm]

theorem aluOr_zimm_getLsbD (a : Word) (v : Imm16) (k : Nat) (hk : k < 32) :
    (aluOr a (zimm v)).getLsbD k = (a.getLsbD k || (decide (k < 16) && v.getLsbD k)) := by
  rw [aluOr, BitVec.getLsbD_or, zimm_getLsbD v hk]

/-- Settles O19: two writes of one register, each value known bit by bit. -/
theorem andiOriZeroExtend : Obligations.AndiOriZeroExtend := by
  intro s rs rt imm16
  refine ⟨decode_encode (.andi rs rt imm16), decode_encode (.ori rs rt imm16), ?_, ?_⟩
  · exact commitReg_completes_bits rt (aluAnd_zimm_getLsbD (s.readReg rs) imm16) s
  · exact commitReg_completes_bits rt (aluOr_zimm_getLsbD (s.readReg rs) imm16) s

end Sys2Proof.Machine
end

section
/-! PROOFS. `lw` and `sw`: their words, the effective address, results, errors and frames, and the law over a
store and the loads that meet its bytes (spec/43_load_store.md R170 to R173; spec/20_memory.md R51 to R53). -/

namespace Sys2Proof.Machine

/-! ### The effective address -/

theorem State.effectiveAddress_eq_ofInt (s : State) (rs : Reg) (v : Imm16) :
    s.effectiveAddress rs v = s.readReg rs + BitVec.ofInt 32 v.toInt := rfl

/-- While the size is below 2^31, an access in bounds `k` bytes past an address does not wrap. -/
theorem uint_add_ofNat_of_fits {a : Word} {k n : Nat} (hn : n ≤ Params.memSizeMax) (h : uint a + k + 4 ≤ n) :
    uint (a + BitVec.ofNat 32 k) = uint a + k := by
  have hlt : uint a + k < 2 ^ 32 := by simp only [Params.memSizeMax] at hn; omega
  rw [uint, BitVec.toNat_add, BitVec.toNat_ofNat, Nat.add_mod_mod, Nat.mod_eq_of_lt hlt]

/-! ### Loads -/

theorem exec_lw_of_memRead_ok {s : State} {rs : Reg} {v : Imm16} {w : Word} (rt : Reg)
    (h : s.memRead (s.effectiveAddress rs v) = .ok w) : exec (.lw rs rt v) s = commitReg rt w s := by
  simp only [exec, execLw, h]

theorem exec_lw_of_memRead_error {s : State} {rs : Reg} {v : Imm16} {f : Fault} (rt : Reg)
    (h : s.memRead (s.effectiveAddress rs v) = .error f) : exec (.lw rs rt v) s = .fault f := by
  simp only [exec, execLw, h, raise]

/-- Settles O20: the read gives the word of the four bytes, which is committed, or its error is raised. -/
theorem lwLoadsOrFaults : Obligations.LwLoadsOrFaults := by
  intro s rs rt v
  refine ⟨decode_encode (.lw rs rt v), s.effectiveAddress_eq_ofInt rs v, fun hfits => ?_, fun hout => ?_⟩
  · have hexec := exec_lw_of_memRead_ok rt (s.readAccess_of_fits .load hfits)
    obtain ⟨t, hcommit, hval, hrest⟩ := commitReg_completes rt _ s
    exact ⟨t, hexec.trans hcommit, (congrArg uint hval).trans (wordOfBytes_toNat _ _ _ _), hrest⟩
  · exact exec_lw_of_memRead_error rt (s.readAccess_of_not_fits .load hout)

/-! ### Stores -/

theorem exec_sw_of_fits {s : State} {rs : Reg} {v : Imm16} (rt : Reg)
    (h : uint (s.effectiveAddress rs v) + 4 ≤ s.memSize) :
    exec (.sw rs rt v) s =
      .next (s.setMem (Memory.writeWord s.mem (uint (s.effectiveAddress rs v)) (s.readReg rt))).nextSeq := by
  rcases State.memWrite_cases s (s.effectiveAddress rs v) (s.readReg rt) with ⟨_, hw⟩ | ⟨hout, _⟩
  · simp only [exec, execSw, hw]
  · exact absurd h hout

theorem exec_sw_of_not_fits {s : State} {rs : Reg} {v : Imm16} (rt : Reg)
    (h : ¬ uint (s.effectiveAddress rs v) + 4 ≤ s.memSize) :
    exec (.sw rs rt v) s = .fault (.memoryOutOfBounds .store (s.effectiveAddress rs v)) := by
  rcases State.memWrite_cases s (s.effectiveAddress rs v) (s.readReg rt) with ⟨hfits, _⟩ | ⟨_, hw⟩
  · exact absurd hfits h
  · simp only [exec, execSw, hw, raise]

theorem exec_sw_changesOnlyMemory {s t : State} {rs rt : Reg} {v : Imm16} (h : exec (.sw rs rt v) s = .next t) :
    ChangesOnlyMemory (uint (s.effectiveAddress rs v)) 4 s t := by
  have hbytes := execSw_sameMemoryBut h
  obtain ⟨_, rfl⟩ := exec_sw_next h
  exact ⟨fun _ _ => rfl, rfl, rfl, hbytes, exec_next_sameHidden h⟩

theorem Memory.read_writeWord_toNat (m : List Host.Cell) (a : Nat) (v : Word) (hm : Memory.wf m) {j : Nat}
    (hj : j < 4) : (Memory.read (Memory.writeWord m a v) (a + j)).toNat = uint v / 2 ^ (8 * (3 - j)) % 256 := by
  rw [Memory.read_writeWord_inside m a j v hm hj, byteOfWord_toNat]

/-- Settles O21: the store of the word's four bytes and its frame, or the error. -/
theorem swStoresOrFaults : Obligations.SwStoresOrFaults := by
  intro s rs rt v hwf
  refine ⟨decode_encode (.sw rs rt v), s.effectiveAddress_eq_ofInt rs v, fun hfits => ?_, exec_sw_of_not_fits rt⟩
  have hexec := exec_sw_of_fits rt hfits
  exact ⟨_, hexec, fun _ hk => Memory.read_writeWord_toNat s.mem _ _ hwf hk, rfl, exec_sw_changesOnlyMemory hexec⟩

/-! ### Loads that meet a store's bytes -/

/-- A word read `k` bytes into a stored word has the stored word's last `4 - k` bytes on top (R173). -/
theorem Memory.readWord_writeWord_add (m : List Host.Cell) (a : Nat) (v : Word) (hm : Memory.wf m) {k : Nat}
    (hlo : 1 ≤ k) (hhi : k ≤ 3) :
    uint (Memory.readWord (Memory.writeWord m a v) (a + k)) / 2 ^ (8 * k) = uint v % 2 ^ (32 - 8 * k) := by
  have h1 : (Memory.read (Memory.writeWord m a v) (a + 1)).toNat = v.toNat / 2 ^ 16 % 256 :=
    Memory.read_writeWord_toNat m a v hm (by decide)
  have h2 : (Memory.read (Memory.writeWord m a v) (a + 2)).toNat = v.toNat / 2 ^ 8 % 256 :=
    Memory.read_writeWord_toNat m a v hm (by decide)
  have h3 : (Memory.read (Memory.writeWord m a v) (a + 3)).toNat = v.toNat / 2 ^ 0 % 256 :=
    Memory.read_writeWord_toNat m a v hm (by decide)
  simp only [uint, Memory.readWord, wordOfBytes_toNat]
  obtain rfl | rfl | rfl : k = 1 ∨ k = 2 ∨ k = 3 := by omega
  · rw [h1, h2, h3]; omega
  · rw [h2, h3]; omega
  · rw [h3]; omega

theorem exec_sw_memRead_add {s t : State} {rs rt : Reg} {v : Imm16} (hmax : s.memSize ≤ Params.memSizeMax)
    (h : exec (.sw rs rt v) s = .next t) {k : Nat} (hfits : uint (s.effectiveAddress rs v) + k + 4 ≤ s.memSize) :
    t.memRead (s.effectiveAddress rs v + BitVec.ofNat 32 k) =
      .ok (Memory.readWord (Memory.writeWord s.mem (uint (s.effectiveAddress rs v)) (s.readReg rt))
        (uint (s.effectiveAddress rs v) + k)) := by
  obtain ⟨_, rfl⟩ := exec_sw_next h
  have haddr := uint_add_ofNat_of_fits hmax hfits
  rw [State.memRead, State.readAccess_of_fits .load (by rw [haddr]; exact hfits), haddr]
  rfl

/-- Settles O10: the store leaves the base register, so the load's address is the store's, and the bytes read
there or just after are the stored word's. -/
theorem loadAfterStore : Obligations.LoadAfterStore := by
  intro s t rs rt rd v hs h
  obtain ⟨hwf, _, _, hmax⟩ := hs
  refine ⟨?_, fun k hlo hhi hfits =>
    ⟨_, exec_sw_memRead_add hmax h hfits, Memory.readWord_writeWord_add s.mem _ _ hwf hlo hhi⟩⟩
  have haddr : t.effectiveAddress rs v = s.effectiveAddress rs v := by
    obtain ⟨_, rfl⟩ := exec_sw_next h
    rfl
  have hread : t.memRead (t.effectiveAddress rs v) = .ok (s.readReg rt) := haddr ▸ exec_sw_readAccess hwf h .load
  obtain ⟨u, hcommit, hval, _⟩ := commitReg_completes rd (s.readReg rt) t
  exact ⟨u, (exec_lw_of_memRead_ok rd hread).trans hcommit, hval⟩

end Sys2Proof.Machine
end

section
/-! PROOFS. Branches and jumps: their words, targets and frames, and what they do to the alignment of `pc`
(spec/44_control_transfer.md R180 to R186, R189; spec/30_encoding.md R90 to R92). -/

namespace Sys2Proof.Machine

/-! ### Branches -/

/-- A `pc` write alone changes nothing else. -/
theorem changesOnlyRegs_setPc (p : Word) (s : State) : ChangesOnlyRegs [] s (s.setPc p) :=
  ⟨fun _ _ => rfl, rfl, rfl, ⟨fun _ => rfl, rfl⟩, rfl, rfl, rfl, rfl, rfl⟩

/-- The shift by two multiplies the signed offset by 4 (R90). -/
theorem branchOffset_eq_ofInt (v : Imm16) : branchOffset v = BitVec.ofInt 32 (4 * v.toInt) := by
  have hmul : branchOffset v = 4#32 * simm v := by
    rw [branchOffset, BitVec.shiftLeft_eq_mul_twoPow, BitVec.mul_comm]
    rfl
  rw [hmul, ← simm_toInt, BitVec.ofInt_mul, BitVec.ofInt_toInt]
  rfl

/-- The effect shared by the branches (R180): on its condition to the branch's own address plus four times the
offset, else on by 4. -/
theorem branch_completes (P : Prop) [Decidable P] (v : Imm16) (s : State) :
    ∃ t, branch (decide P) v s = .next t ∧
      t.pc = (if P then s.pc + BitVec.ofInt 32 (4 * v.toInt) else s.pc + 4#32) ∧ ChangesOnlyRegs [] s t := by
  refine ⟨_, branch_eq (decide P) v s, ?_, changesOnlyRegs_setPc _ s⟩
  simp only [State.setPc_pc, decide_eq_true_eq, aluBranchTarget, branchOffset_eq_ofInt]

/-- Settles O24: two branches on one register, whose conditions are each other's negation. -/
theorem blezBgtzBranchOnSign : Obligations.BlezBgtzBranchOnSign := by
  intro s rs rt imm16
  have hblez : decode (encodeI 0b000110#6 rs rt imm16) = .ok (.blez rs imm16) := by
    simp [decode_encodeI, decodeIType]
  have hbgtz : decode (encodeI 0b000001#6 rs rt imm16) = .ok (.bgtz rs imm16) := by
    simp [decode_encodeI, decodeIType]
  obtain ⟨t, hexec, hpc, hframe⟩ := branch_completes (sint (s.readReg rs) ≤ 0) imm16 s
  obtain ⟨u, hexec', hpc', hframe'⟩ := branch_completes (0 < sint (s.readReg rs)) imm16 s
  refine ⟨hblez, hbgtz, t, u, hexec, hexec', fun hle => ?_, fun hpos => ?_, hframe, hframe'⟩
  · exact ⟨hpc.trans (if_pos hle), hpc'.trans (if_neg (not_lt.mpr hle))⟩
  · exact ⟨hpc.trans (if_neg (not_le.mpr hpos)), hpc'.trans (if_pos hpos)⟩

/-- Settles O22: the branch whose condition is equality. -/
theorem beqBranchesOnEqual : Obligations.BeqBranchesOnEqual := fun s rs rt imm16 =>
  ⟨decode_encode (.beq rs rt imm16), branch_completes (s.readReg rs = s.readReg rt) imm16 s⟩

/-- Settles O23: the branch whose condition is inequality, so its two targets stand the other way round. -/
theorem bneBranchesOnUnequal : Obligations.BneBranchesOnUnequal := by
  intro s rs rt imm16
  obtain ⟨t, hexec, hpc, hframe⟩ := branch_completes (s.readReg rs ≠ s.readReg rt) imm16 s
  exact ⟨decode_encode (.bne rs rt imm16), t, hexec, hpc.trans (ite_not _ _ _), hframe⟩

/-! ### Jumps -/

/-- Settles O25: a write of `pc` alone, whose value is the region base plus four times the field. -/
theorem jJumpsWithinItsRegion : Obligations.JJumpsWithinItsRegion := fun s imm26 =>
  ⟨decode_encode (.j imm26), _, rfl, aluJumpTarget_toNat s.pc imm26, changesOnlyRegs_setPc _ s⟩

/-- Settles O26: the link is written from the old `pc`, and the `pc` write after it leaves it there. -/
theorem jalLinksAndJumps : Obligations.JalLinksAndJumps := fun s imm26 =>
  ⟨decode_encode (.jal imm26), _, rfl, State.readReg_writeReg_self _ _ s, aluJumpTarget_toNat s.pc imm26,
    changesOnlyRegs_writeReg_setPc _ _ _ s⟩

/-! ### Alignment -/

/-- Every `pc` an effect other than a jump's can form keeps the old one's remainder. -/
theorem nextPcOf_mod_four {i : Instr} {s : State} {p : Word} (hi : ∀ v, i ≠ .j v ∧ i ≠ .jal v)
    (hp : nextPcOf i s p) : uint p % 4 = uint s.pc % 4 := by
  have hseq : uint (s.pc + 4#32) % 4 = uint s.pc % 4 := add_four_mod_four s.pc
  have hbranch : ∀ v, (p = s.pc + 4#32 ∨ p = aluBranchTarget s.pc v) → uint p % 4 = uint s.pc % 4 := by
    rintro v (rfl | rfl)
    · exact hseq
    · exact aluBranchTarget_mod_four s.pc v
  cases i with
  | beq _ _ v | bne _ _ v | blez _ v | bgtz _ v => exact hbranch v hp
  | j v => exact absurd rfl (hi v).1
  | jal v => exact absurd rfl (hi v).2
  | terminator => cases hp; rfl
  | _ => cases hp; exact hseq

/-- Settles O31: the next `pc` is one the instruction can form, for a jump only its target. -/
theorem targetsKeepAlignment : Obligations.TargetsKeepAlignment := by
  intro i s t h
  have hp : nextPcOf i s t.pc := nextPcOf_of_exec_next h
  refine ⟨fun v hi => ?_, fun hi => nextPcOf_mod_four hi hp⟩
  have htarget : t.pc = aluJumpTarget s.pc v := by
    rcases hi with rfl | rfl
    · exact hp
    · exact hp
  rw [htarget]
  exact aluJumpTarget_mod_four s.pc v

end Sys2Proof.Machine
end

section
/-! PROOFS. Which effects raise an error, and which one (spec/60_exceptions.md R205, R208; spec/43_load_store.md
R171, R172). -/

namespace Sys2Proof.Machine

/-- `exec_cases` by outcome: the effect completes, or it is `lw` or `sw` out of bounds with its own error. -/
theorem exec_completes_or_faults (i : Instr) (s : State) :
    (∃ t, exec i s = .next t) ∨
    ∃ rs rt v, ¬ uint (s.effectiveAddress rs v) + 4 ≤ s.memSize ∧
      ((i = .lw rs rt v ∧ exec i s = .fault (.memoryOutOfBounds .load (s.effectiveAddress rs v))) ∨
        (i = .sw rs rt v ∧ exec i s = .fault (.memoryOutOfBounds .store (s.effectiveAddress rs v)))) := by
  rcases exec_cases i s with ⟨_, _, _, _, _, he⟩ | ⟨_, _, _, he⟩ | ⟨_, _, _, _, _, he⟩ | ⟨_, _, _, _, _, he⟩ |
    ⟨rs, rt, v, ⟨hi, hout, he⟩ | ⟨hi, hout, he⟩⟩
  · exact .inl ⟨_, he⟩
  · exact .inl ⟨_, he⟩
  · exact .inl ⟨_, he⟩
  · exact .inl ⟨_, he⟩
  · exact .inr ⟨rs, rt, v, hout, .inl ⟨hi, he⟩⟩
  · exact .inr ⟨rs, rt, v, hout, .inr ⟨hi, he⟩⟩

theorem exec_fault_cases {i : Instr} {s : State} {f : Fault} (h : exec i s = .fault f) :
    ∃ rs rt v, ¬ uint (s.effectiveAddress rs v) + 4 ≤ s.memSize ∧
      ((i = .lw rs rt v ∧ f = .memoryOutOfBounds .load (s.effectiveAddress rs v)) ∨
        (i = .sw rs rt v ∧ f = .memoryOutOfBounds .store (s.effectiveAddress rs v))) := by
  rcases exec_completes_or_faults i s with ⟨_, he⟩ | ⟨rs, rt, v, hout, ⟨hi, he⟩ | ⟨hi, he⟩⟩
  · cases h.symm.trans he
  · cases h.symm.trans he; exact ⟨rs, rt, v, hout, .inl ⟨hi, rfl⟩⟩
  · cases h.symm.trans he; exact ⟨rs, rt, v, hout, .inr ⟨hi, rfl⟩⟩

theorem exec_completes_of_ne_lw_sw {i : Instr} (s : State)
    (hi : ∀ rs rt v, i ≠ .lw rs rt v ∧ i ≠ .sw rs rt v) : ∃ t, exec i s = .next t := by
  rcases exec_completes_or_faults i s with hnext | ⟨rs, rt, v, _, ⟨hlw, _⟩ | ⟨hsw, _⟩⟩
  · exact hnext
  · exact absurd hlw (hi rs rt v).1
  · exact absurd hsw (hi rs rt v).2

/-- Settles O30: an effect that does not complete is `lw` or `sw` out of bounds, and none refuses. -/
theorem onlyLoadsAndStoresFault : Obligations.OnlyLoadsAndStoresFault := fun i s =>
  ⟨fun _ => exec_fault_cases, exec_completes_of_ne_lw_sw s, exec_ne_refused i s⟩

end Sys2Proof.Machine
end

section
/-! PROOFS. The two segments of a saved memory (spec/70_reset_and_hazards.md R237). -/

namespace Sys2Proof.Machine

/-! ### The maximum of a list, as the segment lengths fold it -/

/-- The fold is the maximum of 0 and the values: a bound of them all, attained or 0. -/
theorem foldl_max_spec (f : Host.Cell → Nat) (l : List Host.Cell) :
    (∀ c ∈ l, f c ≤ l.foldl (fun n c => max n (f c)) 0) ∧
      (l.foldl (fun n c => max n (f c)) 0 = 0 ∨ ∃ c ∈ l, f c = l.foldl (fun n c => max n (f c)) 0) := by
  have hmax : (0 :: l.map f).max? = some (l.foldl (fun n c => max n (f c)) 0) := by
    rw [List.max?_cons', List.foldl_map]
  obtain ⟨hmem, hle⟩ := List.max?_eq_some_iff.mp hmax
  refine ⟨fun c hc => hle _ (List.mem_cons_of_mem 0 (List.mem_map_of_mem hc)), ?_⟩
  simpa using hmem

/-! ### The segment lengths -/

/-- The segment rule's zero is what an unlisted index reads, so a non-zero byte is listed. -/
theorem State.mem_of_readByte_ne_zero {s : State} {a : Nat} (h : s.readByte a ≠ 0#8) :
    (a, s.readByte a) ∈ s.mem := Memory.mem_of_read_ne h

theorem State.lt_textLen {s : State} {a : Nat} (ha : a < s.midpoint) (h : s.readByte a ≠ 0#8) :
    a < s.textLen := by
  have hmem : (a, s.readByte a) ∈ s.mem.filter (fun c => decide (c.1 < s.midpoint ∧ c.2 ≠ 0#8)) :=
    List.mem_filter.mpr ⟨s.mem_of_readByte_ne_zero h, decide_eq_true ⟨ha, h⟩⟩
  exact (foldl_max_spec (fun c => c.1 + 1) _).1 _ hmem

theorem State.le_stackLen {s : State} {a : Nat} (hmid : s.midpoint ≤ a) (ha : a < s.memSize)
    (h : s.readByte a ≠ 0#8) : s.memSize - a ≤ s.stackLen := by
  have hmem : (a, s.readByte a) ∈
      s.mem.filter (fun c => decide (s.midpoint ≤ c.1 ∧ c.1 < s.memSize ∧ c.2 ≠ 0#8)) :=
    List.mem_filter.mpr ⟨s.mem_of_readByte_ne_zero h, decide_eq_true ⟨hmid, ha, h⟩⟩
  exact (foldl_max_spec (fun c => s.memSize - c.1) _).1 _ hmem

/-- A text segment is empty, or ends one past a non-zero byte of the lower half. -/
theorem State.textLen_cases {s : State} (hwf : Memory.wf s.mem) :
    s.textLen = 0 ∨ ∃ a < s.midpoint, s.readByte a ≠ 0#8 ∧ s.textLen = a + 1 := by
  rcases (foldl_max_spec (fun c => c.1 + 1)
    (s.mem.filter (fun c => decide (c.1 < s.midpoint ∧ c.2 ≠ 0#8)))).2 with h | ⟨c, hc, h⟩
  · exact .inl h
  · obtain ⟨hmem, hsel⟩ := List.mem_filter.mp hc
    obtain ⟨hlt, hne⟩ := of_decide_eq_true hsel
    exact .inr ⟨c.1, hlt, by rwa [State.readByte, Memory.read_of_mem hwf hmem], h.symm⟩

/-- A stack segment is empty, or begins at a non-zero byte of the upper half. -/
theorem State.stackLen_cases {s : State} (hwf : Memory.wf s.mem) :
    s.stackLen = 0 ∨
      ∃ a, s.midpoint ≤ a ∧ a < s.memSize ∧ s.readByte a ≠ 0#8 ∧ s.stackLen = s.memSize - a := by
  rcases (foldl_max_spec (fun c => s.memSize - c.1)
    (s.mem.filter (fun c => decide (s.midpoint ≤ c.1 ∧ c.1 < s.memSize ∧ c.2 ≠ 0#8)))).2 with h | ⟨c, hc, h⟩
  · exact .inl h
  · obtain ⟨hmem, hsel⟩ := List.mem_filter.mp hc
    obtain ⟨hmid, hlt, hne⟩ := of_decide_eq_true hsel
    exact .inr ⟨c.1, hmid, hlt, by rwa [State.readByte, Memory.read_of_mem hwf hmem], h.symm⟩

theorem State.textLen_le_midpoint {s : State} (hwf : Memory.wf s.mem) : s.textLen ≤ s.midpoint := by
  rcases State.textLen_cases hwf with h | ⟨a, ha, _, h⟩ <;> omega

theorem State.stackLen_le {s : State} (hwf : Memory.wf s.mem) : s.stackLen ≤ s.memSize - s.midpoint := by
  rcases State.stackLen_cases hwf with h | ⟨a, hmid, _, _, h⟩ <;> omega

/-- The two halves together: a non-zero byte of memory lies in one of the segments. -/
theorem State.mem_segments {s : State} {a : Nat} (ha : a < s.memSize) (h : s.readByte a ≠ 0#8) :
    a < s.textLen ∨ s.memSize - s.stackLen ≤ a := by
  by_cases hmid : a < s.midpoint
  · exact .inl (State.lt_textLen hmid h)
  · have hle := State.le_stackLen (Nat.le_of_not_lt hmid) ha h
    right; omega

/-- Settles O56: a segment is empty or reaches exactly to its outermost non-zero byte. -/
theorem segmentsHoldEveryNonZeroByte : Obligations.SegmentsHoldEveryNonZeroByte := by
  intro s hs
  obtain ⟨hwf, _, _, _⟩ := hs
  refine ⟨State.textLen_le_midpoint hwf, State.stackLen_le hwf, fun a => State.mem_segments, fun hpos => ?_,
    fun hpos => ?_⟩
  · rcases State.textLen_cases hwf with h0 | ⟨a, _, hne, h⟩
    · omega
    · rwa [h, Nat.add_sub_cancel]
  · rcases State.stackLen_cases hwf with h0 | ⟨a, _, hlt, hne, h⟩
    · omega
    · rwa [h, Nat.sub_sub_self hlt.le]

end Sys2Proof.Machine
end

section
/-! PROOFS. The state image: what its offsets hold, which images are accepted, and that a saved state is
restored (spec/70_reset_and_hazards.md R235, R236, R238, R239). -/

namespace Sys2Proof.Machine

/-! ### Words at an offset -/

theorem getD_append_add (pre bytes : List Byte) (k : Nat) :
    (pre ++ bytes).getD (pre.length + k) 0#8 = bytes.getD k 0#8 := by
  rw [List.getD_append_right _ _ _ _ (Nat.le_add_right _ _), Nat.add_sub_cancel_left]

theorem be32_append_add (pre bytes : List Byte) (o : Nat) :
    be32 (pre ++ bytes) (pre.length + o) = be32 bytes o := by
  simp only [be32, Nat.add_assoc, getD_append_add]

theorem be32_bytesOfWord_append (w : Word) (rest : List Byte) : be32 (bytesOfWord w ++ rest) 0 = w :=
  wordOfBytes_byteOfWord w

theorem length_flatMap_bytesOfWord (ws : List Word) : (ws.flatMap bytesOfWord).length = 4 * ws.length := by
  simp [List.length_flatMap, Nat.mul_comm]

/-- Words written one after another are found at the multiples of 4. -/
theorem be32_flatMap_bytesOfWord (ws : List Word) (rest : List Byte) {i : Nat} (hi : i < ws.length) :
    be32 (ws.flatMap bytesOfWord ++ rest) (4 * i) = ws[i] := by
  induction ws generalizing i with
  | nil => simp at hi
  | cons w ws ih =>
    rw [List.flatMap_cons, List.append_assoc]
    cases i with
    | zero => exact be32_bytesOfWord_append w _
    | succ i =>
      rw [Nat.mul_succ, Nat.add_comm, ← bytesOfWord_length w, be32_append_add]
      exact ih (Nat.lt_of_succ_lt_succ hi)

/-! ### Which images are accepted -/

/-- What the six checks of R238 ask of an image, all together. -/
structure ImageOk (tag bytes : List Byte) : Prop where
  tag_eq : bytes.take tag.length = tag
  memLen_ge : 4 ≤ imageMemLen tag.length bytes
  memLen_le : imageMemLen tag.length bytes ≤ 2 ^ 31 - 1
  segments_fit : imageTextLen tag.length bytes + imageStackLen tag.length bytes ≤ imageMemLen tag.length bytes
  length_eq : bytes.length = tag.length + 152 + imageTextLen tag.length bytes + imageStackLen tag.length bytes

theorem imageOk_of_no_problem {tag bytes : List Byte} (h : imageProblem tag bytes = none) :
    ImageOk tag bytes := by
  unfold imageProblem at h
  split_ifs at h with _ htag hlen _ hseg hall
  obtain ⟨hge, hle⟩ := not_or.mp hlen
  exact ⟨not_not.mp htag, Nat.le_of_not_lt hge, Nat.le_of_not_lt hle, Nat.le_of_not_lt hseg, not_not.mp hall⟩

theorem no_problem_of_imageOk {tag bytes : List Byte} (h : ImageOk tag bytes) :
    imageProblem tag bytes = none := by
  obtain ⟨htag, hge, hle, hseg, hall⟩ := h
  have hrange : ¬ (imageMemLen tag.length bytes < Params.memSizeMin ∨
      imageMemLen tag.length bytes > Params.memSizeMax) := by
    simp only [Params.memSizeMin, Params.memSizeMax]; omega
  rw [imageProblem, if_neg (by omega), if_neg (not_not.mpr htag), if_neg hrange, if_neg (by omega),
    if_neg (Nat.not_lt.mpr hseg), if_neg (not_not.mpr hall)]

theorem loadStateWith_of_imageOk {tag bytes : List Byte} (h : ImageOk tag bytes) (s : State) :
    loadStateWith tag bytes s = (.ok, restored tag.length bytes s) := by
  rw [loadStateWith, no_problem_of_imageOk h]

/-- The inversion of a state restore: refused with nothing changed, or accepted. -/
theorem loadStateWith_cases (tag bytes : List Byte) (s : State) :
    (∃ reason, loadStateWith tag bytes s = (.malformedState reason, s)) ∨
      (ImageOk tag bytes ∧ loadStateWith tag bytes s = (.ok, restored tag.length bytes s)) := by
  cases hp : imageProblem tag bytes with
  | some reason => exact .inl ⟨reason, by rw [loadStateWith, hp]⟩
  | none =>
    have hok := imageOk_of_no_problem hp
    exact .inr ⟨hok, loadStateWith_of_imageOk hok s⟩

/-! ### What an accepted image gives -/

/-- The bytes an image places from index 0. -/
def imageText (tagLen : Nat) (bytes : List Byte) : List Byte :=
  (bytes.drop (tagLen + 148)).take (imageTextLen tagLen bytes)

/-- The bytes an image places up to its `MEMLEN`. -/
def imageStack (tagLen : Nat) (bytes : List Byte) : List Byte :=
  (bytes.drop (tagLen + 152 + imageTextLen tagLen bytes)).take (imageStackLen tagLen bytes)

theorem imageMemory_eq (tagLen : Nat) (bytes : List Byte) :
    imageMemory tagLen bytes = Memory.writeBytes (Memory.writeBytes [] 0 (imageText tagLen bytes))
      (imageMemLen tagLen bytes - imageStackLen tagLen bytes) (imageStack tagLen bytes) := rfl

theorem wf_imageMemory (tagLen : Nat) (bytes : List Byte) : Memory.wf (imageMemory tagLen bytes) :=
  Memory.wf_writeBytes _ _ _ (Memory.wf_writeBytes _ _ _ Memory.wf_nil)

namespace ImageOk

variable {tag bytes : List Byte} (h : ImageOk tag bytes)
include h

theorem length_imageText : (imageText tag.length bytes).length = imageTextLen tag.length bytes := by
  have hlen := h.length_eq
  simp only [imageText, List.length_take, List.length_drop]; omega

theorem length_imageStack : (imageStack tag.length bytes).length = imageStackLen tag.length bytes := by
  have hlen := h.length_eq
  simp only [imageStack, List.length_take, List.length_drop]; omega

theorem read_text {a : Nat} (ha : a < imageTextLen tag.length bytes) :
    Memory.read (imageMemory tag.length bytes) a = bytes.getD (tag.length + 148 + a) 0#8 := by
  have hseg := h.segments_fit
  have hlen := h.length_eq
  have hin : a < (imageText tag.length bytes).length := by rwa [h.length_imageText]
  have htext := Memory.read_writeBytes_inside (imageText tag.length bytes) [] 0 a Memory.wf_nil hin
  rw [Nat.zero_add] at htext
  rw [imageMemory_eq, Memory.read_writeBytes_outside _ _ _ _ (.inl (by omega)), htext,
    List.getD_eq_getElem _ _ (by omega)]
  simp [imageText]

theorem read_stack {k : Nat} (hk : k < imageStackLen tag.length bytes) :
    Memory.read (imageMemory tag.length bytes)
      (imageMemLen tag.length bytes - imageStackLen tag.length bytes + k) =
      bytes.getD (tag.length + 152 + imageTextLen tag.length bytes + k) 0#8 := by
  have hlen := h.length_eq
  have hin : k < (imageStack tag.length bytes).length := by rwa [h.length_imageStack]
  rw [imageMemory_eq, Memory.read_writeBytes_inside _ _ _ _ (Memory.wf_writeBytes _ _ _ Memory.wf_nil) hin,
    List.getD_eq_getElem _ _ (by omega)]
  simp [imageStack]

theorem read_outside {a : Nat} (htext : imageTextLen tag.length bytes ≤ a)
    (hstack : a < imageMemLen tag.length bytes - imageStackLen tag.length bytes ∨
      imageMemLen tag.length bytes ≤ a) : Memory.read (imageMemory tag.length bytes) a = 0#8 := by
  have hseg := h.segments_fit
  have houtStack : a < imageMemLen tag.length bytes - imageStackLen tag.length bytes ∨
      imageMemLen tag.length bytes - imageStackLen tag.length bytes +
        (imageStack tag.length bytes).length ≤ a := by
    rw [h.length_imageStack]; omega
  have houtText : a < 0 ∨ 0 + (imageText tag.length bytes).length ≤ a := by
    rw [h.length_imageText]; omega
  rw [imageMemory_eq, Memory.read_writeBytes_outside _ _ _ _ houtStack,
    Memory.read_writeBytes_outside _ _ _ _ houtText]
  rfl

theorem restored_memoryOk (s : State) : (restored tag.length bytes s).MemoryOk := by
  refine ⟨wf_imageMemory _ _, fun c hc => ?_, h.memLen_ge, h.memLen_le⟩
  have hseg := h.segments_fit
  show c.1 < imageMemLen tag.length bytes
  rcases Memory.mem_writeBytes hc with hc | ⟨_, hlt⟩
  · rcases Memory.mem_writeBytes hc with hc | ⟨_, hlt⟩
    · cases hc
    · have hlen := h.length_imageText
      simp only [imageText] at hlen; omega
  · have hlen := h.length_imageStack
    simp only [imageStack] at hlen; omega

end ImageOk

theorem restored_readReg (tagLen : Nat) (bytes : List Byte) (s : State) (i : Reg) :
    (restored tagLen bytes s).readReg i = be32 bytes (tagLen + 4 * i.val) := by
  have hp : Params.r0Hardwired = false := rfl
  simp [State.readReg, State.readRegWith, restored, hp]

/-- The result of a restore is the reason of the first check of R238 that fails, else `OK`. -/
theorem loadStateWith_result (tag bytes : List Byte) (s : State) :
    (loadStateWith tag bytes s).1 =
      if bytes.length < tag.length + 148 then .malformedState .truncated
      else if bytes.take tag.length ≠ tag then .malformedState .badTag
      else if imageMemLen tag.length bytes < Params.memSizeMin ∨ imageMemLen tag.length bytes > Params.memSizeMax then
        .malformedState .badMemLen
      else if bytes.length < tag.length + 152 + imageTextLen tag.length bytes then .malformedState .truncated
      else if imageTextLen tag.length bytes + imageStackLen tag.length bytes > imageMemLen tag.length bytes then
        .malformedState .segmentsExceedMemory
      else if bytes.length ≠ tag.length + 152 + imageTextLen tag.length bytes + imageStackLen tag.length bytes then
        .malformedState .lengthMismatch
      else .ok := by
  unfold loadStateWith imageProblem
  split_ifs <;> rfl

/-- Settles O58: the reason by the chain of checks, the frame of a refusal by the inversion, and the fields of
an accepted image one by one. -/
theorem loadStateIsAllOrNothing : Obligations.LoadStateIsAllOrNothing := by
  refine ⟨fun bytes o => wordOfBytes_toNat _ _ _ _, ?_⟩
  rintro tag bytes s t r T memLen textLen stackLen hload rfl rfl rfl rfl
  have hr : r = (loadStateWith tag bytes s).1 := by rw [hload]
  refine ⟨hr.trans (loadStateWith_result tag bytes s), ?_⟩
  rcases loadStateWith_cases tag bytes s with ⟨reason, h⟩ | ⟨hok, h⟩
  · cases h.symm.trans hload
    exact ⟨fun _ => rfl, fun hne => by cases hne⟩
  · cases h.symm.trans hload
    exact ⟨fun hne => absurd rfl hne, fun _ => ⟨restored_readReg _ _ s, rfl, rfl, rfl, rfl, rfl,
      fun _ => hok.read_text, fun _ => hok.read_stack, fun _ => hok.read_outside, hok.restored_memoryOk s⟩⟩

/-! ### The image of a state -/

/-- The 37 words of R235 between the tag and the text segment. -/
def State.headerWords (s : State) : List Word :=
  (List.finRange 32).map s.readReg ++
    [s.pc, s.hi, s.lo, BitVec.ofNat 32 s.memSize, BitVec.ofNat 32 s.textLen]

@[simp] theorem State.length_headerWords (s : State) : s.headerWords.length = 37 := by
  simp [State.headerWords]

@[simp] theorem State.length_segment (s : State) (a n : Nat) : (s.segment a n).length = n := by
  simp [State.segment]

theorem State.getElem_segment (s : State) (a n : Nat) {k : Nat} (hk : k < (s.segment a n).length) :
    (s.segment a n)[k] = s.readByte (a + k) := by
  simp [State.segment]

/-- The image as its tag, its header words, and the two segments with the second length between them. -/
theorem saveStateWith_eq (tag : List Byte) (s : State) :
    saveStateWith tag s = tag ++ (s.headerWords.flatMap bytesOfWord ++ (s.segment 0 s.textLen ++
      (bytesOfWord (BitVec.ofNat 32 s.stackLen) ++ s.segment (s.memSize - s.stackLen) s.stackLen))) := by
  simp [saveStateWith, State.headerWords, List.flatMap_append, List.flatMap_map]

theorem length_saveStateWith (tag : List Byte) (s : State) :
    (saveStateWith tag s).length = tag.length + 152 + s.textLen + s.stackLen := by
  simp only [saveStateWith_eq, List.length_append, length_flatMap_bytesOfWord, State.length_headerWords,
    State.length_segment, bytesOfWord_length]
  omega

theorem be32_saveStateWith_header (tag : List Byte) (s : State) {i : Nat} (hi : i < 37) :
    be32 (saveStateWith tag s) (tag.length + 4 * i) = s.headerWords[i]'(by simpa using hi) := by
  rw [saveStateWith_eq, be32_append_add, be32_flatMap_bytesOfWord]

theorem be32_saveStateWith_reg (tag : List Byte) (s : State) (i : Reg) :
    be32 (saveStateWith tag s) (tag.length + 4 * i.val) = s.readReg i := by
  rw [be32_saveStateWith_header tag s (by omega)]
  simp [State.headerWords]

theorem imageMemLen_saveStateWith (tag : List Byte) {s : State} (hs : s.MemoryOk) :
    imageMemLen tag.length (saveStateWith tag s) = s.memSize := by
  obtain ⟨_, _, _, hmax⟩ := hs
  have hw : be32 (saveStateWith tag s) (tag.length + 140) = BitVec.ofNat 32 s.memSize :=
    (be32_saveStateWith_header tag s (i := 35) (by omega)).trans (by simp [State.headerWords])
  rw [imageMemLen, hw]
  exact Nat.mod_eq_of_lt (Nat.lt_of_le_of_lt hmax (by decide))

theorem imageTextLen_saveStateWith (tag : List Byte) {s : State} (hs : s.MemoryOk) :
    imageTextLen tag.length (saveStateWith tag s) = s.textLen := by
  obtain ⟨hwf, _, _, hmax⟩ := hs
  have hle : s.textLen ≤ s.memSize := (State.textLen_le_midpoint hwf).trans (Nat.div_le_self _ 2)
  have hw : be32 (saveStateWith tag s) (tag.length + 144) = BitVec.ofNat 32 s.textLen :=
    (be32_saveStateWith_header tag s (i := 36) (by omega)).trans (by simp [State.headerWords])
  rw [imageTextLen, hw]
  exact Nat.mod_eq_of_lt (Nat.lt_of_le_of_lt (hle.trans hmax) (by decide))

theorem length_header (s : State) : (s.headerWords.flatMap bytesOfWord).length = 148 := by
  rw [length_flatMap_bytesOfWord, State.length_headerWords]

theorem getD_saveStateWith_text (tag : List Byte) (s : State) {a : Nat} (ha : a < s.textLen) :
    (saveStateWith tag s).getD (tag.length + 148 + a) 0#8 = s.readByte a := by
  rw [saveStateWith_eq, Nat.add_assoc, getD_append_add, ← length_header s, getD_append_add,
    List.getD_append _ _ _ _ (by simpa using ha), List.getD_eq_getElem _ _ (by simpa using ha),
    State.getElem_segment, Nat.zero_add]

/-- Past the text segment the image is the second length and the stack segment. -/
theorem be32_saveStateWith_stackLen (tag : List Byte) (s : State) :
    be32 (saveStateWith tag s) (tag.length + 148 + s.textLen) = BitVec.ofNat 32 s.stackLen := by
  have hoff : 148 + s.textLen = (s.headerWords.flatMap bytesOfWord).length +
      ((s.segment 0 s.textLen).length + 0) := by
    rw [length_header, State.length_segment, Nat.add_zero]
  rw [saveStateWith_eq, Nat.add_assoc, be32_append_add, hoff, be32_append_add, be32_append_add,
    be32_bytesOfWord_append]

theorem imageStackLen_saveStateWith (tag : List Byte) {s : State} (hs : s.MemoryOk) :
    imageStackLen tag.length (saveStateWith tag s) = s.stackLen := by
  rw [imageStackLen, imageTextLen_saveStateWith tag hs, be32_saveStateWith_stackLen]
  obtain ⟨hwf, _, _, hmax⟩ := hs
  have hle : s.stackLen ≤ s.memSize := (State.stackLen_le hwf).trans (Nat.sub_le _ _)
  exact Nat.mod_eq_of_lt (Nat.lt_of_le_of_lt (hle.trans hmax) (by decide))

theorem getD_saveStateWith_stack (tag : List Byte) (s : State) {k : Nat} (hk : k < s.stackLen) :
    (saveStateWith tag s).getD (tag.length + 152 + s.textLen + k) 0#8 =
      s.readByte (s.memSize - s.stackLen + k) := by
  have hoff : tag.length + 152 + s.textLen + k = tag.length + ((s.headerWords.flatMap bytesOfWord).length +
      ((s.segment 0 s.textLen).length + ((bytesOfWord (BitVec.ofNat 32 s.stackLen)).length + k))) := by
    rw [length_header, State.length_segment, bytesOfWord_length]; omega
  rw [saveStateWith_eq, hoff, getD_append_add, getD_append_add, getD_append_add, getD_append_add,
    List.getD_eq_getElem _ _ (by simpa using hk), State.getElem_segment]

theorem saveStateWith_imageOk (tag : List Byte) {s : State} (hs : s.MemoryOk) :
    ImageOk tag (saveStateWith tag s) := by
  have hmem := imageMemLen_saveStateWith tag hs
  have htext := imageTextLen_saveStateWith tag hs
  have hstack := imageStackLen_saveStateWith tag hs
  obtain ⟨hwf, _, hmin, hmax⟩ := hs
  have htle : s.textLen ≤ s.memSize / 2 := State.textLen_le_midpoint hwf
  have hsle : s.stackLen ≤ s.memSize - s.memSize / 2 := State.stackLen_le hwf
  refine ⟨by rw [saveStateWith_eq]; exact List.take_left, ?_, ?_, ?_, ?_⟩
  · rw [hmem]; exact hmin
  · rw [hmem]; exact hmax
  · rw [hmem, htext, hstack]; omega
  · rw [htext, hstack]; exact length_saveStateWith tag s

/-- A byte that `MemoryOk` puts outside memory reads 0. -/
theorem State.readByte_of_memSize_le {s : State} (hs : s.MemoryOk) {a : Nat} (ha : s.memSize ≤ a) :
    s.readByte a = 0#8 := by
  by_contra hne
  obtain ⟨_, hin, _⟩ := hs
  exact Nat.not_lt.mpr ha (hin _ (State.mem_of_readByte_ne_zero hne))

/-- The segments hold every non-zero byte, so placing them in an empty memory gives the memory back. -/
theorem imageMemory_saveStateWith (tag : List Byte) {s : State} (hs : s.MemoryOk) :
    imageMemory tag.length (saveStateWith tag s) = s.mem := by
  have hok := saveStateWith_imageOk tag hs
  have hmem := imageMemLen_saveStateWith tag hs
  have htext := imageTextLen_saveStateWith tag hs
  have hstack := imageStackLen_saveStateWith tag hs
  refine Memory.ext_of_read (wf_imageMemory _ _) hs.1 fun a => ?_
  show _ = s.readByte a
  by_cases hat : a < s.textLen
  · rw [hok.read_text (by rwa [htext]), getD_saveStateWith_text tag s hat]
  by_cases has : s.memSize - s.stackLen ≤ a ∧ a < s.memSize
  · obtain ⟨hge, hlt⟩ := has
    obtain ⟨k, rfl⟩ := Nat.exists_eq_add_of_le hge
    have hk : k < s.stackLen := by omega
    have hread := hok.read_stack (k := k) (by rwa [hstack])
    rw [hmem, htext, hstack] at hread
    rw [hread, getD_saveStateWith_stack tag s hk]
  · have hzero : s.readByte a = 0#8 := by
      by_contra hne
      have hlt : a < s.memSize := Nat.lt_of_not_le fun hle => hne (State.readByte_of_memSize_le hs hle)
      rcases State.mem_segments hlt hne with h | h
      · exact hat h
      · exact has ⟨h, hlt⟩
    rw [hok.read_outside (by omega) (by rw [hmem, hstack]; omega), hzero]

theorem restored_saveStateWith_sameArch (tag : List Byte) {s : State} (hs : s.MemoryOk) (other : State) :
    SameArch s (restored tag.length (saveStateWith tag s) other) := by
  refine ⟨?_, ?_, ?_, ?_, imageMemory_saveStateWith tag hs, imageMemLen_saveStateWith tag hs⟩
  · refine Vector.ext fun i hi => ?_
    exact (restored_readReg _ _ other ⟨i, hi⟩).trans (be32_saveStateWith_reg tag s ⟨i, hi⟩)
  · exact (be32_saveStateWith_header tag s (i := 32) (by omega)).trans (by simp [State.headerWords])
  · exact (be32_saveStateWith_header tag s (i := 33) (by omega)).trans (by simp [State.headerWords])
  · exact (be32_saveStateWith_header tag s (i := 34) (by omega)).trans (by simp [State.headerWords])

/-- Settles O57: the image of a state passes the checks, and each field is read back from where it was put. -/
theorem saveThenLoadRestoresTheState : Obligations.SaveThenLoadRestoresTheState := fun tag s other hs =>
  ⟨length_saveStateWith tag s, restored tag.length (saveStateWith tag s) other,
    loadStateWith_of_imageOk (saveStateWith_imageOk tag hs) other, restored_saveStateWith_sameArch tag hs other,
    rfl⟩

end Sys2Proof.Machine
end

section
/-! PROOFS. A line written out by the grammar parses to its address and its bytes, and a text splits into the
lines it was written from (spec/70_reset_and_hazards.md R232). -/

namespace Sys2Proof.Machine

/-! ### Positional digits -/

/-- The `k` low base-`b` digits of `n`, most significant first, weigh `n % b ^ k`. -/
theorem foldl_digits (b k n : Nat) :
    (List.range k).foldl (fun m j => b * m + n / b ^ (k - 1 - j) % b) 0 = n % b ^ k := by
  induction k generalizing n with
  | zero => simp [Nat.mod_one]
  | succ k ih =>
    have hhigh : ∀ m, ∀ j ∈ List.range k, b * m + n / b ^ (k - j) % b = b * m + n / b / b ^ (k - 1 - j) % b := by
      intro m j hj
      have hexp : k - j = k - 1 - j + 1 := by have := List.mem_range.mp hj; omega
      rw [hexp, Nat.pow_succ', Nat.div_div_eq_div_mul]
    rw [List.range_succ, List.foldl_append, Nat.add_sub_cancel, List.foldl_ext _ _ _ hhigh, ih]
    simp [Nat.pow_succ', Nat.mod_mul, Nat.add_comm]

/-! ### The address -/

theorem hexDigit_hexChar : ∀ n < 16, hexDigit? (hexChar n) = some n := by decide

theorem isSome_hexDigit_of_mem_hexChars {a : Word} {c : Char} (hc : c ∈ hexChars a) :
    (hexDigit? c).isSome = true := by
  obtain ⟨k, _, rfl⟩ := List.mem_map.mp hc
  rw [hexDigit_hexChar _ (Nat.mod_lt _ (by decide))]
  rfl

theorem hexValue_hexChars (a : Word) : hexValue (hexChars a) = uint a := by
  have hdigit : ∀ m, ∀ j ∈ List.range 8, 16 * m + (hexDigit? (hexChar (a.toNat / 16 ^ (7 - j) % 16))).getD 0 =
      16 * m + a.toNat / 16 ^ (7 - j) % 16 := by
    intro m j _
    rw [hexDigit_hexChar _ (Nat.mod_lt _ (by decide)), Option.getD_some]
  rw [hexValue, hexChars, List.foldl_map, List.foldl_ext _ _ _ hdigit]
  exact (foldl_digits 16 8 a.toNat).trans (Nat.mod_eq_of_lt a.isLt)

theorem parseAddress_written (a : Word) (body : List Char) :
    parseAddress ('0' :: 'x' :: (hexChars a ++ ':' :: body)) = some (uint a, body) := by
  have hdigits : ∀ c ∈ hexChars a, (hexDigit? c).isSome = true := fun _ => isSome_hexDigit_of_mem_hexChars
  have htake : (hexChars a ++ ':' :: body).takeWhile (fun c => (hexDigit? c).isSome) = hexChars a := by
    rw [List.takeWhile_append_of_pos hdigits]; exact List.append_nil _
  have hdrop : (hexChars a ++ ':' :: body).dropWhile (fun c => (hexDigit? c).isSome) = ':' :: body := by
    rw [List.dropWhile_append_of_pos hdigits]; rfl
  have hlen : (hexChars a).length = 8 := by simp [hexChars]
  simp [parseAddress, htake, hdrop, hlen, hexValue_hexChars]

/-! ### The groups -/

theorem mem_groupChars {b : Byte} {c : Char} (hc : c ∈ groupChars b) : c = '0' ∨ c = '1' := by
  obtain ⟨k, _, rfl⟩ := List.mem_map.mp hc
  split
  · exact .inr rfl
  · exact .inl rfl

theorem parseGroup_groupChars (b : Byte) : parseGroup (groupChars b) = some b := by
  have hshape : (groupChars b).length = 8 ∧ (groupChars b).all (fun c => c == '0' || c == '1') = true := by
    refine ⟨by simp [groupChars], List.all_eq_true.mpr fun c hc => ?_⟩
    rcases mem_groupChars hc with rfl | rfl <;> rfl
  have hbit : ∀ m, ∀ j ∈ List.range 8,
      2 * m + (if (if b.getLsbD (7 - j) then '1' else '0') == '1' then 1 else 0) =
        2 * m + b.toNat / 2 ^ (7 - j) % 2 := by
    intro m j _
    rw [← Nat.toNat_testBit]
    show _ = 2 * m + (b.getLsbD (7 - j)).toNat
    cases b.getLsbD (7 - j) <;> rfl
  rw [parseGroup, if_pos hshape, groupChars, List.foldl_map, List.foldl_ext _ _ _ hbit,
    foldl_digits 2 8 b.toNat, Nat.mod_eq_of_lt b.isLt]
  simp

theorem parseGroups_map_groupChars (bytes : List Byte) : parseGroups (bytes.map groupChars) = some bytes := by
  induction bytes with
  | nil => rfl
  | cons b bytes ih => simp only [List.map_cons, parseGroups, parseGroup_groupChars, ih]

/-- A run with no space or tab goes in front of the first run of what follows. -/
theorem splitGroups_append {run rest t : List Char} {ts : List (List Char)} (hrun : ∀ c ∈ run, isSp c = false)
    (hrest : splitGroups rest = t :: ts) : splitGroups (run ++ rest) = (run ++ t) :: ts := by
  induction run with
  | nil => exact hrest
  | cons c run ih =>
    have ih := ih fun d hd => hrun d (List.mem_cons_of_mem c hd)
    simp [splitGroups, hrun c List.mem_cons_self, ih]

/-- The part of a written line after the colon. -/
def bodyChars (bytes : List Byte) : List Char := bytes.flatMap (fun b => ' ' :: groupChars b)

theorem splitGroups_bodyChars (bytes : List Byte) :
    splitGroups (bodyChars bytes) = [] :: bytes.map groupChars := by
  induction bytes with
  | nil => rfl
  | cons b bytes ih =>
    have hrun : ∀ c ∈ groupChars b, isSp c = false := by
      intro c hc
      rcases mem_groupChars hc with rfl | rfl <;> rfl
    have hrest := splitGroups_append hrun ih
    rw [List.append_nil] at hrest
    show splitGroups (' ' :: (groupChars b ++ bodyChars bytes)) = _
    rw [splitGroups, hrest]
    rfl

theorem parseBody_bodyChars {bytes : List Byte} (hne : bytes ≠ []) : parseBody (bodyChars bytes) = some bytes := by
  have hkeep : ∀ t ∈ bytes.map groupChars, (!t.isEmpty) = true := by
    intro t ht
    obtain ⟨b, _, rfl⟩ := List.mem_map.mp ht
    rfl
  have hfilter : ([] :: bytes.map groupChars).filter (fun t => !t.isEmpty) = bytes.map groupChars := by
    rw [List.filter_cons_of_neg (by simp), List.filter_eq_self.mpr hkeep]
  rw [parseBody, splitGroups_bodyChars, hfilter]
  cases bytes with
  | nil => exact absurd rfl hne
  | cons b bytes => exact parseGroups_map_groupChars (b :: bytes)

/-! ### The line -/

theorem programLine_eq (a : Word) (bytes : List Byte) :
    programLine a bytes = '0' :: 'x' :: (hexChars a ++ ':' :: bodyChars bytes) := by
  simp [programLine, bodyChars]

theorem trimLine_of_ends {first last : Char} {mid l : List Char} (hfront : l = first :: mid)
    (hback : ∃ init, l = init ++ [last]) (hfirst : ¬ isSp first = true) (hlast : ¬ isSp last = true) :
    trimLine l = l := by
  obtain ⟨init, hback⟩ := hback
  have hl : l.dropWhile isSp = l := by rw [hfront, List.dropWhile_cons_of_neg hfirst]
  have hr : l.reverse.dropWhile isSp = l.reverse := by
    rw [hback, List.reverse_append, List.reverse_singleton, List.singleton_append,
      List.dropWhile_cons_of_neg hlast]
  rw [trimLine, hl, hr, List.reverse_reverse]

/-- A line that writes at least one byte ends with that byte's lowest bit. -/
theorem programLine_last (a : Word) {bytes : List Byte} (hne : bytes ≠ []) :
    ∃ init last, programLine a bytes = init ++ [last] ∧ ¬ isSp last = true := by
  obtain ⟨front, b, rfl⟩ : ∃ front b, bytes = front ++ [b] :=
    ⟨_, _, (List.dropLast_append_getLast hne).symm⟩
  refine ⟨'0' :: 'x' :: (hexChars a ++ ':' :: (bodyChars front ++ ' ' :: (groupChars b).dropLast)),
    if b.getLsbD 0 then '1' else '0', ?_, ?_⟩
  · simp [programLine_eq, bodyChars, groupChars, List.range_succ]
  · cases b.getLsbD 0 <;> decide

theorem parseLine_programLine (a : Word) {bytes : List Byte} (hne : bytes ≠ []) :
    parseLine (programLine a bytes) = some (uint a, bytes) := by
  obtain ⟨init, last, hback, hlast⟩ := programLine_last a hne
  have htrim : trimLine (programLine a bytes) = programLine a bytes :=
    trimLine_of_ends (programLine_eq a bytes) ⟨init, hback⟩ (by decide) hlast
  rw [parseLine, htrim, programLine_eq, parseAddress_written]
  simp only [parseBody_bodyChars hne]

theorem blankLine_programLine (a : Word) (bytes : List Byte) : blankLine (programLine a bytes) = false := by
  rw [programLine_eq]; rfl

/-! ### The lines of a text -/

theorem hexChar_ne_break : ∀ n < 16, hexChar n ≠ '\n' ∧ hexChar n ≠ '\r' := by decide

theorem programLine_ne_break {a : Word} {bytes : List Byte} {c : Char} (hc : c ∈ programLine a bytes) :
    c ≠ '\n' ∧ c ≠ '\r' := by
  simp only [programLine_eq, List.mem_cons, List.mem_append] at hc
  rcases hc with rfl | rfl | hc | rfl | hc
  · decide
  · decide
  · obtain ⟨k, _, rfl⟩ := List.mem_map.mp hc
    exact hexChar_ne_break _ (Nat.mod_lt _ (by decide))
  · decide
  · obtain ⟨b, _, hc⟩ := List.mem_flatMap.mp hc
    rcases List.mem_cons.mp hc with rfl | hc
    · decide
    · rcases mem_groupChars hc with rfl | rfl <;> decide

theorem splitLines_cons {c : Char} {rest l : List Char} {ls : List (List Char)} (hn : c ≠ '\n') (hr : c ≠ '\r')
    (hrest : splitLines rest = l :: ls) : splitLines (c :: rest) = (c :: l) :: ls := by
  rw [splitLines, hrest]
  · exact fun _ h _ => hr h
  · exact hn

/-- Characters with no line break among them go in front of the first line of what follows. -/
theorem splitLines_append {run rest l : List Char} {ls : List (List Char)}
    (hrun : ∀ c ∈ run, c ≠ '\n' ∧ c ≠ '\r') (hrest : splitLines rest = l :: ls) :
    splitLines (run ++ rest) = (run ++ l) :: ls := by
  induction run with
  | nil => exact hrest
  | cons c run ih =>
    obtain ⟨hn, hr⟩ := hrun c List.mem_cons_self
    exact splitLines_cons hn hr (ih fun d hd => hrun d (List.mem_cons_of_mem c hd))

/-- A written line, from its address and bytes. -/
def lineOf (l : Word × List Byte) : List Char := programLine l.1 l.2

theorem parseLine_lineOf {l : Word × List Byte} (hne : l.2 ≠ []) : parseLine (lineOf l) = some (uint l.1, l.2) :=
  parseLine_programLine l.1 hne

theorem blankLine_lineOf (l : Word × List Byte) : blankLine (lineOf l) = false :=
  blankLine_programLine l.1 l.2

theorem splitLines_programText (l : Word × List Byte) (ls : List (Word × List Byte)) :
    splitLines (programText (l :: ls)) = (l :: ls).map lineOf := by
  induction ls generalizing l with
  | nil =>
    have h := splitLines_append (run := lineOf l) (rest := []) (fun _ => programLine_ne_break) rfl
    rw [List.append_nil] at h
    exact h
  | cons q ls ih =>
    have hrest : splitLines ('\n' :: programText (q :: ls)) = [] :: (q :: ls).map lineOf := by
      rw [splitLines, ih q]
    have h := splitLines_append (run := lineOf l) (fun _ => programLine_ne_break) hrest
    rwa [List.append_nil] at h

end Sys2Proof.Machine
end

section
/-! PROOFS. Program load and the host's `pc` write: placement in order, where a load stops, and what neither
changes (spec/70_reset_and_hazards.md R232, R233, R240; spec/40_execution_cycle.md R126). -/

namespace Sys2Proof.Machine

/-! ### One line -/

/-- Bytes placed in bounds keep memory canonical and inside `MEM_SIZE`. -/
theorem State.MemoryOk.setMem_writeBytes {s : State} (h : s.MemoryOk) {a : Nat} {bs : List Byte}
    (ha : a + bs.length ≤ s.memSize) : (s.setMem (Memory.writeBytes s.mem a bs)).MemoryOk := by
  obtain ⟨hwf, hin, hrange⟩ := h
  refine ⟨Memory.wf_writeBytes bs s.mem a hwf, fun c hc => ?_, hrange⟩
  rcases Memory.mem_writeBytes hc with hold | ⟨_, hnew⟩
  · exact hin c hold
  · exact Nat.lt_of_lt_of_le hnew ha

section
variable {l : List Char} (line n : Nat) (ls : List (List Char)) (s : State)

theorem loadLines_blank (hb : blankLine l = true) :
    loadLines line n (l :: ls) s = loadLines (line + 1) n ls s := by
  rw [loadLines, if_pos hb]

theorem loadLines_malformed (hb : blankLine l = false) (hp : parseLine l = none) :
    loadLines line n (l :: ls) s = (.malformedProgramText line, s) := by
  simp only [loadLines, hb, hp]; rfl

variable {addr : Nat} {bs : List Byte}

theorem loadLines_of_fits (hb : blankLine l = false) (hp : parseLine l = some (addr, bs))
    (hfit : addr + bs.length ≤ s.memSize) :
    loadLines line n (l :: ls) s =
      loadLines (line + 1) (n + 1) ls (s.setMem (Memory.writeBytes s.mem addr bs)) := by
  simp only [loadLines, hb, hp, if_neg (Nat.not_lt.mpr hfit)]; rfl

theorem loadLines_of_not_fits (hb : blankLine l = false) (hp : parseLine l = some (addr, bs))
    (hfit : ¬ addr + bs.length ≤ s.memSize) :
    loadLines line n (l :: ls) s = (.memoryOutOfBounds (max addr s.memSize) line, s) := by
  simp only [loadLines, hb, hp, if_pos (Nat.lt_of_not_le hfit)]; rfl

end

/-- The inversion of one line: whatever lines follow, the load goes on to them with memory bytes changed at
most, or it stops with the state as it is. -/
theorem loadLines_cons_cases (line n : Nat) (l : List Char) (s : State) :
    (∃ n' m, (s.MemoryOk → (s.setMem m).MemoryOk) ∧
      ∀ ls, loadLines line n (l :: ls) s = loadLines (line + 1) n' ls (s.setMem m)) ∨
    (∃ r, (∀ k, r ≠ .loaded k) ∧ ∀ ls, loadLines line n (l :: ls) s = (r, s)) := by
  cases hb : blankLine l with
  | true => exact .inl ⟨n, s.mem, id, fun ls => loadLines_blank line n ls s hb⟩
  | false =>
    cases hp : parseLine l with
    | none => exact .inr ⟨_, by simp, fun ls => loadLines_malformed line n ls s hb hp⟩
    | some parsed =>
      obtain ⟨addr, bs⟩ := parsed
      by_cases hfit : addr + bs.length ≤ s.memSize
      · exact .inl ⟨n + 1, _, fun hs => hs.setMem_writeBytes hfit,
          fun ls => loadLines_of_fits line n ls s hb hp hfit⟩
      · exact .inr ⟨_, by simp, fun ls => loadLines_of_not_fits line n ls s hb hp hfit⟩

/-! ### All lines -/

/-- Lines that load hand the lines after them their count and the state they leave. -/
theorem loadLines_append {line n m : Nat} {before : List (List Char)} {s t : State}
    (h : loadLines line n before s = (.loaded m, t)) (after : List (List Char)) :
    loadLines line n (before ++ after) s = loadLines (line + before.length) m after t := by
  induction before generalizing line n s with
  | nil => cases h; rfl
  | cons l before ih =>
    rcases loadLines_cons_cases line n l s with ⟨n', mem, _, hgo⟩ | ⟨r, hr, hstop⟩
    · rw [hgo] at h
      rw [List.cons_append, hgo, ih h, List.length_cons, Nat.add_right_comm, Nat.add_assoc]
    · rw [hstop] at h
      cases h
      exact absurd rfl (hr m)

theorem loadLines_changes_mem_only (line n : Nat) (ls : List (List Char)) (s : State) :
    ∃ m, (loadLines line n ls s).2 = s.setMem m ∧ (s.MemoryOk → (s.setMem m).MemoryOk) := by
  induction ls generalizing line n s with
  | nil => exact ⟨s.mem, rfl, id⟩
  | cons l ls ih =>
    rcases loadLines_cons_cases line n l s with ⟨n', m, hm, hgo⟩ | ⟨r, _, hstop⟩
    · obtain ⟨m', heq, hm'⟩ := ih (line + 1) n' (s.setMem m)
      exact ⟨m', by rw [hgo, heq]; rfl, fun hs => hm' (hm hs)⟩
    · exact ⟨s.mem, by rw [hstop]; rfl, id⟩

/-- Settles O53: the load starts from the idle state and changes memory bytes at most. -/
theorem programLoadTouchesOnlyMemory : Obligations.ProgramLoadTouchesOnlyMemory := by
  intro text s t r h
  obtain ⟨m, hm, hok⟩ := loadLines_changes_mem_only 1 0 (splitLines text) s.idle
  have ht : t = s.idle.setMem m := by rw [← hm]; exact (congrArg Prod.snd h).symm
  rw [ht]
  exact ⟨rfl, rfl, rfl, rfl, rfl, rfl, fun hs => hok (hs.congr rfl rfl)⟩

/-- Settles O55: the lines before hand on their state, and the malformed line stops there. -/
theorem loaderStopsAtAMalformedLine : Obligations.LoaderStopsAtAMalformedLine := by
  intro line n m before after bad s t h hb hp
  rw [loadLines_append h]
  exact loadLines_malformed _ m after t hb hp

/-! ### Written lines -/

/-- The lines a text was written from are the lines that load; an empty text is one blank line. -/
theorem loadProgram_programText (lines : List (Word × List Byte)) (s : State) :
    loadProgram (programText lines) s = loadLines 1 0 (lines.map lineOf) s.idle := by
  cases lines with
  | nil => rfl
  | cons l ls => rw [loadProgram, splitLines_programText]

theorem loadLines_written (line n : Nat) {lines : List (Word × List Byte)} {s : State}
    (hfit : ∀ l ∈ lines, l.2 ≠ [] ∧ uint l.1 + l.2.length ≤ s.memSize) :
    loadLines line n (lines.map lineOf) s = (.loaded (n + lines.length), s.setMem (placeLines s.mem lines)) := by
  induction lines generalizing line n s with
  | nil => rfl
  | cons l lines ih =>
    obtain ⟨hne, hl⟩ := hfit l List.mem_cons_self
    have hrest : ∀ q ∈ lines, q.2 ≠ [] ∧
        uint q.1 + q.2.length ≤ (s.setMem (Memory.writeBytes s.mem (uint l.1) l.2)).memSize :=
      fun q hq => hfit q (List.mem_cons_of_mem l hq)
    rw [List.map_cons, loadLines_of_fits line n _ s (blankLine_lineOf l) (parseLine_lineOf hne) hl,
      ih _ _ hrest, List.length_cons, Nat.add_right_comm, Nat.add_assoc]
    rfl

theorem loadProgram_written {lines : List (Word × List Byte)} {s : State}
    (hfit : ∀ l ∈ lines, l.2 ≠ [] ∧ uint l.1 + l.2.length ≤ s.memSize) :
    loadProgram (programText lines) s = (.loaded lines.length, s.idle.setMem (placeLines s.mem lines)) := by
  rw [loadProgram_programText, loadLines_written (s := s.idle) 1 0 hfit, Nat.zero_add]
  rfl

/-- A written line that does not fit stops the load with the lines before it applied. -/
theorem loadProgram_written_not_fits {lines : List (Word × List Byte)} {s : State}
    (hfit : ∀ l ∈ lines, l.2 ≠ [] ∧ uint l.1 + l.2.length ≤ s.memSize) {bad : Word × List Byte}
    (hne : bad.2 ≠ []) (hbad : ¬ uint bad.1 + bad.2.length ≤ s.memSize) (rest : List (Word × List Byte)) :
    loadProgram (programText (lines ++ bad :: rest)) s =
      (.memoryOutOfBounds (max (uint bad.1) s.memSize) (lines.length + 1),
        s.idle.setMem (placeLines s.mem lines)) := by
  have hbefore := loadLines_written (s := s.idle) 1 0 hfit
  have hout : ¬ uint bad.1 + bad.2.length ≤ (s.idle.setMem (placeLines s.idle.mem lines)).memSize := hbad
  rw [loadProgram_programText, List.map_append, List.map_cons, loadLines_append hbefore,
    loadLines_of_not_fits _ _ _ _ (blankLine_lineOf bad) (parseLine_lineOf hne) hout, List.length_map,
    Nat.add_comm 1]
  rfl

/-- Settles O54: a written line is the text of one written line. -/
theorem loaderPlacesAWrittenLine : Obligations.LoaderPlacesAWrittenLine := fun s addr bytes hne =>
  ⟨fun hfit => loadProgram_written (lines := [(addr, bytes)]) (s := s) (by simpa using ⟨hne, hfit⟩),
    fun hfit => loadProgram_written_not_fits (lines := []) (s := s) (by simp) (bad := (addr, bytes)) hne hfit []⟩

/-! ### Placed bytes -/

theorem read_placeLines_of_not_named {lines : List (Word × List Byte)} (m : List Host.Cell) {a : Nat}
    (h : ∀ l ∈ lines, a < uint l.1 ∨ uint l.1 + l.2.length ≤ a) :
    Memory.read (placeLines m lines) a = Memory.read m a := by
  induction lines generalizing m with
  | nil => rfl
  | cons l lines ih =>
    rw [placeLines_cons, ih _ fun q hq => h q (List.mem_cons_of_mem l hq),
      Memory.read_writeBytes_outside _ _ _ _ (h l List.mem_cons_self)]

theorem placeLines_append (m : List Host.Cell) (before after : List (Word × List Byte)) :
    placeLines m (before ++ after) = placeLines (placeLines m before) after := List.foldl_append

/-- The last line that names a byte gives its value. -/
theorem read_placeLines_of_last {m : List Host.Cell} (hwf : Memory.wf m) (before : List (Word × List Byte))
    {after : List (Word × List Byte)} {l : Word × List Byte} {k : Nat} {b : Byte} (hb : l.2[k]? = some b)
    (hafter : ∀ q ∈ after, uint l.1 + k < uint q.1 ∨ uint q.1 + q.2.length ≤ uint l.1 + k) :
    Memory.read (placeLines m (before ++ l :: after)) (uint l.1 + k) = b := by
  obtain ⟨hk, rfl⟩ := List.getElem?_eq_some_iff.mp hb
  rw [placeLines_append, placeLines_cons, read_placeLines_of_not_named _ hafter,
    Memory.read_writeBytes_inside _ _ _ _ (wf_placeLines m before hwf) hk]

/-- Settles O59: the lines of a written text are placed in order, up to the first that does not fit. -/
theorem loaderPlacesWrittenLines : Obligations.LoaderPlacesWrittenLines := by
  intro s lines hfit
  refine ⟨loadProgram_written hfit, fun bad rest hne hbad => loadProgram_written_not_fits hfit hne hbad rest,
    fun a h => read_placeLines_of_not_named s.mem h, ?_⟩
  rintro hwf before after l k b rfl hb hafter
  exact read_placeLines_of_last hwf before hb hafter

/-! ### Writing `pc` -/

/-- Settles O52: the write of `pc` and going idle leave every other part a host sees alone. -/
theorem setPcDiscardsTheInstruction : Obligations.SetPcDiscardsTheInstruction := fun s v =>
  ⟨rfl, rfl, rfl, rfl, sameArch_idle (s.setPc v)⟩

end Sys2Proof.Machine
end
